-- ==== Sys2Proof/Word.lean ====
section
/-! DEFINITION. The word of N2T-CORE and its hardwired sentinel (spec/00_scope.md R5, R6). The readings `s(.)`, `u(.)`
and the arithmetic of R7 are in Machine/Operands.lean. -/

namespace Sys2Proof

/-- A word: a pattern of 16 bits, bit 15 the sign bit (00_scope.md R6). The unit of every register and of memory. -/
abbrev Word := BitVec 16

/-- `NIL`, the free-list sentinel (00_scope.md R5, 10_state.md R28). -/
abbrev nilWord : Word := 0xFFFF#16

end Sys2Proof
end

