-- ==== Sys2Proof/Config.lean ====
section
/-! DEFINITION. What is fixed for one N2T-CORE: the parameters that 00_scope.md R5 marks `argument`, and the one free
value of the spec, the words of memory that nothing has written (93_implementation_defined.md U7).

The parameters that R5 fixes for this hardware stand as literals where the spec's own pseudocode has them: WORD = 16 (the
width of `Word`), HEADER_WORDS = 2, MEM_WORDS = 65536, SCREEN_COLS = 512, SCREEN_ROWS = 256, SCREEN_WORDS = 8192,
ROW_WORDS = 32, MUL_ITER = 16, SQRT_TOP_BIT = 7; NIL is `Sys2Proof.nilWord`. -/

namespace Sys2Proof

/-- The arguments of the machine (00_scope.md R5). `State.cfg` holds one, and no step changes it (log 1). -/
structure Config where
  /-- `COALESCE`: FREE merges with a free block that follows (41_heap_allocator.md R142). -/
  coalesce : Bool
  /-- `HAS_RASTER`: the RASTER unit is present (00_scope.md R3, 30_encoding.md R76). -/
  hasRaster : Bool
  /-- `SCREEN_BASE`, with `SCREEN_BASE + 8192 <= 65536` (00_scope.md R5): the bound is in the type. -/
  screenBase : Fin 57345
  deriving DecidableEq, Repr

/-- DESIGN CHOICE (log 1): the arguments in `State.reset`. COALESCE true is R5's recommended value; the spec leaves all
three to the model's user. -/
def Config.reference : Config := { coalesce := true, hasRaster := true, screenBase := 16384 }

/-- FREE VALUE (log 4): what the word at an address holds while neither the host nor a command has written it
(10_state.md R35: "unspecified, any value"; 93_implementation_defined.md U7: "the model must not fix a value; a proof must
hold for all"). It has no body, so no proof can see a value of it. -/
opaque Config.unwrittenWord : Nat → Word

end Sys2Proof
end

