-- ==== Sys2Proof/Syntax.lean ====
section
/-! DEFINITION. The commands of N2T-CORE as syntax: one constructor per row of spec/opcode_table.json, carrying the words the
command reads, in `A0, A1, A2, A3` order (30_encoding.md R72, R78); and the five words in which a command is
presented (R70, R80). -/

namespace Sys2Proof

/-- A command. Each constructor carries the argument words its row of 30_encoding.md R72 names; a register the row marks
`–` is not read by the command (R74) and is no part of it (log 14, DESIGN CHOICE). -/
inductive Instr where
  /-- `MUL x, y` (40_arithmetic.md R101). -/
  | mul (x y : Word)
  /-- `DIV x, y` (R103). -/
  | div (x y : Word)
  /-- `SQRT x` (R106). -/
  | sqrt (x : Word)
  /-- `ABS x` (R109). -/
  | abs (x : Word)
  /-- `MAX a, b` (R110). -/
  | max (a b : Word)
  /-- `MIN a, b` (R111). -/
  | min (a b : Word)
  /-- `HINIT heapBase, heapSize` (41_heap_allocator.md R131). -/
  | hinit (heapBase heapSize : Word)
  /-- `ALLOC size` (R137). -/
  | alloc (size : Word)
  /-- `FREE address` (R141). -/
  | free (address : Word)
  /-- `SETCOLOR color` (42_rasterizer.md R161). -/
  | setcolor (color : Word)
  /-- `CLEAR` (R162). -/
  | clear
  /-- `PIXEL x, y` (R164). -/
  | pixel (x y : Word)
  /-- `LINE x1, y1, x2, y2` (R166). -/
  | line (x1 y1 x2 y2 : Word)
  /-- `RECT x1, y1, x2, y2` (R169). -/
  | rect (x1 y1 x2 y2 : Word)
  /-- `CIRCLE x, y, r` (R170). -/
  | circle (x y r : Word)
  deriving DecidableEq, Repr

/-- The three functional units (00_scope.md R2). -/
inductive FunctionalUnit where
  | arith | heap | raster
  deriving DecidableEq, Repr

/-- The unit that runs a command (30_encoding.md R72, the column `UNIT`). -/
def Instr.unit : Instr → FunctionalUnit
  | .mul _ _ => .arith
  | .div _ _ => .arith
  | .sqrt _ => .arith
  | .abs _ => .arith
  | .max _ _ => .arith
  | .min _ _ => .arith
  | .hinit _ _ => .heap
  | .alloc _ => .heap
  | .free _ => .heap
  | .setcolor _ => .raster
  | .clear => .raster
  | .pixel _ _ => .raster
  | .line _ _ _ _ => .raster
  | .rect _ _ _ _ => .raster
  | .circle _ _ _ => .raster

/-- The five words presented together at issue (10_state.md R21, 30_encoding.md R70, R80): `OP A0 A1 A2 A3`. -/
structure Command where
  op : Word
  a0 : Word
  a1 : Word
  a2 : Word
  a3 : Word
  deriving DecidableEq, Repr

end Sys2Proof
end

