-- ==== Sys2Proof/WellFormed.lean ====
section
/-! DEFINITION. Which commands exist on a given N2T-CORE: the one check that a command as syntax can fail. Every operand is
a whole word and every word is admitted (30_encoding.md R73), so there is no operand check. -/

namespace Sys2Proof

/-- A command is well formed on a machine when its unit is present: the six RASTER commands only when `HAS_RASTER`
(30_encoding.md R76). -/
def Instr.wellFormed (cfg : Config) (i : Instr) : Bool :=
  match i.unit with
  | .arith => true
  | .heap => true
  | .raster => cfg.hasRaster

end Sys2Proof
end

