-- ==== Sys2Proof/Decode.lean ====
section
/-! DEFINITION. The decoder and the encoder of N2T-CORE (30_encoding.md R70 to R80). There are no bytes (20_memory.md R52):
a command is five words, and the decoder reads those. It is total and names its reason where it rejects. -/

namespace Sys2Proof

/-- Why an `OP` word spells no command: the classes of 30_encoding.md R75 and R76. All four are the error
`IllegalCommand` of 60_exceptions.md R200. -/
inductive DecodeError where
  /-- `OP[15:8]` is not `0x00` (R75). -/
  | reservedBits
  /-- `UNIT` is `0x0` or `0x4..0xF` (R71, R75). -/
  | reservedUnit
  /-- `UNIT` names a unit that has no function `FN` (R75). -/
  | reservedFunction
  /-- A RASTER word while `HAS_RASTER = false` (R76). -/
  | rasterAbsent
  deriving DecidableEq, Repr

/-- The field `RSV = OP[15:8]` (R70). -/
def opRsv (op : Word) : BitVec 8 := op.extractLsb' 8 8

/-- The field `UNIT = OP[7:4]` (R70). -/
def opUnit (op : Word) : BitVec 4 := op.extractLsb' 4 4

/-- The field `FN = OP[3:0]` (R70). -/
def opFn (op : Word) : BitVec 4 := op.extractLsb' 0 4

/-- The name of the reason for a word outside the table of R72, in the order of R75's list. -/
def illegalReason (op : Word) : DecodeError :=
  if opRsv op ≠ 0x00#8 then .reservedBits
  else if opUnit op = 0x1#4 ∨ opUnit op = 0x2#4 ∨ opUnit op = 0x3#4 then .reservedFunction
  else .reservedUnit

/-- A RASTER row of the table exists only when `HAS_RASTER` (R76). -/
def rasterRow (cfg : Config) (i : Instr) : Except DecodeError Instr :=
  if cfg.hasRaster then .ok i else .error .rasterAbsent

/-- Decoding (R75): the whole of `OP` is compared with the table of R72. -/
def decode (cfg : Config) (c : Command) : Except DecodeError Instr :=
  match c.op.toNat with
  | 0x0010 => .ok (.mul c.a0 c.a1)
  | 0x0011 => .ok (.div c.a0 c.a1)
  | 0x0012 => .ok (.sqrt c.a0)
  | 0x0013 => .ok (.abs c.a0)
  | 0x0014 => .ok (.max c.a0 c.a1)
  | 0x0015 => .ok (.min c.a0 c.a1)
  | 0x0020 => .ok (.hinit c.a0 c.a1)
  | 0x0021 => .ok (.alloc c.a0)
  | 0x0022 => .ok (.free c.a0)
  | 0x0030 => rasterRow cfg (.setcolor c.a0)
  | 0x0031 => rasterRow cfg .clear
  | 0x0032 => rasterRow cfg (.pixel c.a0 c.a1)
  | 0x0033 => rasterRow cfg (.line c.a0 c.a1 c.a2 c.a3)
  | 0x0034 => rasterRow cfg (.rect c.a0 c.a1 c.a2 c.a3)
  | 0x0035 => rasterRow cfg (.circle c.a0 c.a1 c.a2)
  | _ => .error (illegalReason c.op)

/-- The command whose words, first to last `OP A0 A1 A2 A3`, are the number `w` in base 65536, the first word least
significant (the numbering of spec/opcode_table.json; `OP` is its row's 16 bits). -/
def Command.ofNat (w : Nat) : Command :=
  { op := BitVec.ofNat 16 w
    a0 := BitVec.ofNat 16 (w / 2 ^ 16)
    a1 := BitVec.ofNat 16 (w / 2 ^ 32)
    a2 := BitVec.ofNat 16 (w / 2 ^ 48)
    a3 := BitVec.ofNat 16 (w / 2 ^ 64) }

/-- What the decoder reads from an instruction whose first `nbits` bits are `w` and whose other bits are zero, on a machine
with the RASTER unit (log 9). -/
def decodeTableWord (nbits w : Nat) : Option Instr :=
  match decode Config.reference (Command.ofNat (w % 2 ^ nbits)) with
  | .ok i => some i
  | .error _ => none

/-- The five words of a command (R72, R80); an argument word the command does not read is written `0x0000` (R78; log 14). -/
def encode : Instr → Command
  | .mul x y => ⟨0x0010#16, x, y, 0#16, 0#16⟩
  | .div x y => ⟨0x0011#16, x, y, 0#16, 0#16⟩
  | .sqrt x => ⟨0x0012#16, x, 0#16, 0#16, 0#16⟩
  | .abs x => ⟨0x0013#16, x, 0#16, 0#16, 0#16⟩
  | .max a b => ⟨0x0014#16, a, b, 0#16, 0#16⟩
  | .min a b => ⟨0x0015#16, a, b, 0#16, 0#16⟩
  | .hinit heapBase heapSize => ⟨0x0020#16, heapBase, heapSize, 0#16, 0#16⟩
  | .alloc size => ⟨0x0021#16, size, 0#16, 0#16, 0#16⟩
  | .free address => ⟨0x0022#16, address, 0#16, 0#16, 0#16⟩
  | .setcolor color => ⟨0x0030#16, color, 0#16, 0#16, 0#16⟩
  | .clear => ⟨0x0031#16, 0#16, 0#16, 0#16, 0#16⟩
  | .pixel x y => ⟨0x0032#16, x, y, 0#16, 0#16⟩
  | .line x1 y1 x2 y2 => ⟨0x0033#16, x1, y1, x2, y2⟩
  | .rect x1 y1 x2 y2 => ⟨0x0034#16, x1, y1, x2, y2⟩
  | .circle x y r => ⟨0x0035#16, x, y, r, 0#16⟩

end Sys2Proof
end

