-- ==== Sys2Proof/Machine/State.lean ====
section
/-! DEFINITION. The state of N2T-CORE (10_state.md R20 to R36), what the host may do to it (70_reset_and_hazards.md R236), and
the state at power-on (10_state.md R35, 70_reset_and_hazards.md R232). Plain data throughout. -/

namespace Sys2Proof.Machine

/-- One word of memory at an address. The cell is a word and not a byte: "There are no bytes" (20_memory.md R52; log 5). -/
abbrev Cell := Nat × Word

/-- `MEM[0..65535]` (20_memory.md R50): the words that something has written, addresses strictly rising. An address not
listed has been written by nobody; what it reads as is `Config.unwrittenWord` (log 4). -/
abbrev Memory := List Cell

/-- `LIVE[0..65535]` (10_state.md R31): the addresses whose bit is 1, strictly rising (log 8). -/
abbrev LiveMap := List Nat

/-- The status codes of 60_exceptions.md R200, by name. `invalidFree` is also `DoubleFree` (41_heap_allocator.md R140). -/
inductive Status where
  | ok
  | invalidSize
  | outOfMemory
  | divisionByZero
  | domainError
  | invalidFree
  | illegalCommand
  | notInitialised
  | alreadyInitialised
  | badConfig
  | heapCorrupt
  | invalidCoordinate
  deriving DecidableEq, Repr

/-- What the host may do between commands, and nothing else acts on the block or on memory (70_reset_and_hazards.md R236). -/
inductive HostAction where
  /-- Present `OP` and `A0..A3` together; the block runs the command (10_state.md R21). -/
  | issue (c : Command)
  /-- Read `ST` (R236 (b)). -/
  | readSt
  /-- Read `R0` (R236 (b)). -/
  | readR0
  /-- Read the memory word at an address (20_memory.md R57). -/
  | peek (addr : Word)
  /-- `.poke addr, word`: write a memory word (20_memory.md R57, 30_encoding.md R79). -/
  | poke (addr value : Word)
  /-- `.reset` (70_reset_and_hazards.md R230). -/
  | reset
  deriving DecidableEq, Repr

/-- The state of the machine. The fields from `op` to `mem` are the spec's; `cfg` and `host` are the arguments of the machine
(00_scope.md R5, 10_state.md R34; logs 1 and 2); `seen` is the model's own (log 3). -/
structure State where
  /-- The parameters of 00_scope.md R5. -/
  cfg : Config
  /-- `OP` (10_state.md R20). -/
  op : Word
  /-- `A0` (R20). -/
  a0 : Word
  /-- `A1` (R20). -/
  a1 : Word
  /-- `A2` (R20). -/
  a2 : Word
  /-- `A3` (R20). -/
  a3 : Word
  /-- `R0`, the result (R20, R22). -/
  r0 : Word
  /-- `ST`, the status (R20, R24). -/
  st : Word
  /-- `HINITED` (R25). -/
  hinited : Bool
  /-- `HBASE` (R26). -/
  hbase : Word
  /-- `HSIZE` (R27). -/
  hsize : Word
  /-- `HEAD` (R28). -/
  head : Word
  /-- `COLOR` (R29): true is 1, foreground. -/
  color : Bool
  /-- `LIVE` (R31). -/
  live : LiveMap
  /-- `MEM` (R32). -/
  mem : Memory
  /-- The host's coming actions, next first (log 2). -/
  host : List HostAction
  /-- Every word the host has read, newest first (log 3). -/
  seen : List Word
  deriving DecidableEq, Repr

/-- The faults of this machine: none. "An access cannot fault" (20_memory.md R58), "A memory access cannot fail" (60_exceptions.md
R211), and every command "is a *completed step*" whose error is a value in `ST` (R212); log 10. Safe: there is nothing to raise. -/
inductive Fault where
  deriving DecidableEq, Repr

/-- The refusals of this machine. -/
inductive Refusal where
  /-- Raised by an arm of `exec` for an instruction that has no meaning yet; no arm raises it now. Safe: the machine stops. -/
  | notModelled (mnemonic : String)
  deriving DecidableEq, Repr

/-- The state at power-on: the table of 10_state.md R35, memory with nothing written (R35, 70_reset_and_hazards.md R232), the
arguments of log 1, and a host that has nothing to do (log 2). -/
def State.reset : State :=
  { cfg := Config.reference
    op := 0x0000#16
    a0 := 0x0000#16
    a1 := 0x0000#16
    a2 := 0x0000#16
    a3 := 0x0000#16
    r0 := 0x0000#16
    st := 0x0000#16
    hinited := false
    hbase := 0x0000#16
    hsize := 0x0000#16
    head := nilWord
    color := true
    live := []
    mem := []
    host := []
    seen := [] }

end Sys2Proof.Machine
end

