-- ==== Sys2Proof/Machine/Flags.lean ====
section
/-! DEFINITION. The status register. There are no flags (10_state.md R24): the only outcome a command leaves beside its
result is the code in `ST`. -/

namespace Sys2Proof.Machine

/-- The code of a status (60_exceptions.md R200), as the word `ST` holds: `ST[15:4]` is zero (10_state.md R24). -/
def Status.code : Status → Word
  | .ok => 0x0000#16
  | .invalidSize => 0x0001#16
  | .outOfMemory => 0x0002#16
  | .divisionByZero => 0x0003#16
  | .domainError => 0x0004#16
  | .invalidFree => 0x0005#16
  | .illegalCommand => 0x0006#16
  | .notInitialised => 0x0007#16
  | .alreadyInitialised => 0x0008#16
  | .badConfig => 0x0009#16
  | .heapCorrupt => 0x000A#16
  | .invalidCoordinate => 0x000B#16

/-- `ST <- c` (00_scope.md R9): every command writes `ST`, and it describes that command only (10_state.md R24). -/
def State.setStatus (s : State) (c : Status) : State := { s with st := c.code }

end Sys2Proof.Machine
end

