-- ==== Sys2Proof/Machine/Operands.lean ====
section
/-! DEFINITION. The readings of a word and the arithmetic of words (00_scope.md R7, R8), the constant table `POW2`
(10_state.md R30), and the operand forms of 30_encoding.md R73. -/

namespace Sys2Proof.Machine

/-- `s(w)`, the signed reading, -32768..32767 (00_scope.md R7). -/
def sval (w : Word) : Int := w.toInt

/-- `u(w)`, the unsigned reading, 0..65535 (R7). An address is read so (20_memory.md R51). -/
def uval (w : Word) : Int := (w.toNat : Int)

/-- `wrap(i)`, the word whose unsigned reading is `i mod 65536` (R7). -/
def wrap (i : Int) : Word := BitVec.ofInt 16 i

/-- `negw(a) = wrap(-s(a))` (R7). -/
def negw (a : Word) : Word := wrap (-(sval a))

/-- `POW2[j] = wrap(2^j)`, hardwired (10_state.md R30). -/
def pow2 (j : Nat) : Word := BitVec.ofNat 16 (2 ^ j)

/-- The test `(w AND POW2[j]) != 0x0000`: bit `j` of `w` is 1 (R30). -/
def testBit (w : Word) (j : Nat) : Bool := (w &&& pow2 j) != 0x0000#16

/-- The operand `color` of SETCOLOR: true when the word is not `0x0000` (30_encoding.md R73). -/
def colorOperand (w : Word) : Bool := w != 0x0000#16

end Sys2Proof.Machine
end

