-- ==== Sys2Proof/Machine/Ops.lean ====
section
/-! DEFINITION. The named operations over memory, `LIVE` and the registers; the error entry `raise`, which is the only
exception this block has; and what the host does between commands. -/

namespace Sys2Proof.Machine

/-- The shape of every answer of the machine. -/
abbrev Result := Host.Outcome State Fault Refusal

/-! Memory: the list of the words written so far. -/

/-- The word written last at an address, or none when nothing has written it. -/
def Memory.find? : Memory → Nat → Option Word
  | [], _ => none
  | (b, w) :: m, a => if b = a then some w else Memory.find? m a

/-- Write one word, keeping the addresses strictly rising. -/
def Memory.write : Memory → Nat → Word → Memory
  | [], a, v => [(a, v)]
  | (b, w) :: m, a, v =>
    if a < b then (a, v) :: (b, w) :: m
    else if a = b then (a, v) :: m
    else (b, w) :: Memory.write m a v

/-- The canonical form: addresses strictly rising, each one of the 65536 (20_memory.md R50). No value is fixed for an unlisted
address, so no entry repeats it (log 4). -/
abbrev Memory.wf (m : Memory) : Prop :=
  m.Pairwise (fun p q => p.1 < q.1) ∧ ∀ p ∈ m, p.1 < 65536

/-- `MemRead(addr, 1)` (00_scope.md R10). The address is an integer that its rule shows to be in 0..65535; in a state that no
run reaches it may not be, and it is then taken modulo 65536 (log 6). -/
def State.memRead (s : State) (addr : Int) : Word :=
  match Memory.find? s.mem (wrap addr).toNat with
  | some w => w
  | none => Config.unwrittenWord (wrap addr).toNat

/-- `MemWrite(addr, 1, v)` (00_scope.md R10); the address as in `State.memRead` (log 6). -/
def State.memWrite (s : State) (addr : Int) (v : Word) : State :=
  { s with mem := Memory.write s.mem (wrap addr).toNat v }

/-- `MemWrite(base + a, 1, v)` for each of the `n` values of `a` below `n`; the order is not observable (00_scope.md R12,
log 12). -/
def State.memFill (base : Int) (v : Word) : Nat → State → State
  | 0, s => s
  | n + 1, s => State.memFill base v n (s.memWrite (base + n) v)

/-! `LIVE`: the rising list of the addresses whose bit is 1 (10_state.md R31). -/

/-- Set one bit of the map. -/
def LiveMap.insert : LiveMap → Nat → LiveMap
  | [], a => [a]
  | b :: l, a => if a < b then a :: b :: l else if a = b then b :: l else b :: LiveMap.insert l a

/-- Clear one bit of the map. -/
def LiveMap.remove : LiveMap → Nat → LiveMap
  | [], _ => []
  | b :: l, a => if b = a then LiveMap.remove l a else b :: LiveMap.remove l a

/-- The canonical form of the map: strictly rising addresses of the 65536. -/
abbrev LiveMap.wf (l : LiveMap) : Prop := l.Pairwise (· < ·) ∧ ∀ a ∈ l, a < 65536

/-- `LIVE[addr] = 1` (10_state.md R31). -/
def State.isLive (s : State) (addr : Int) : Bool := decide ((wrap addr).toNat ∈ s.live)

/-- `LIVE[addr] <- 1`. -/
def State.setLive (s : State) (addr : Int) : State :=
  { s with live := LiveMap.insert s.live (wrap addr).toNat }

/-- `LIVE[addr] <- 0`. -/
def State.clearLive (s : State) (addr : Int) : State :=
  { s with live := LiveMap.remove s.live (wrap addr).toNat }

/-! How a command ends (00_scope.md R11, 10_state.md R22). -/

/-- `raise E` (00_scope.md R11): the one exception entry of the block. The code goes to `ST` and the command ends; nothing is
saved, no mode changes, control goes nowhere, and all other state is as before the command (60_exceptions.md R206).
There is no return from it, "because there is nothing to return from" (R207): the next command runs normally. -/
def raise (e : Status) (s : State) : Result := .next (s.setStatus e)

/-- `ST <- OK` and the end of a command without a result. -/
def complete (s : State) : Result := .next (s.setStatus .ok)

/-- `R0 <- v; ST <- OK`: the end of a command with a result (10_state.md R22). -/
def completeWith (v : Word) (s : State) : Result := .next ({ s with r0 := v }.setStatus .ok)

/-! The host between commands (70_reset_and_hazards.md R236). -/

/-- The host has taken its next action, and `rest` is what it still has to do. -/
def State.hostDone (s : State) (rest : List HostAction) : State := { s with host := rest }

/-- Issue: the host presents `OP` and `A0..A3` together (10_state.md R21). -/
def State.present (s : State) (c : Command) : State :=
  { s with op := c.op, a0 := c.a0, a1 := c.a1, a2 := c.a2, a3 := c.a3 }

/-- The command the port registers hold, which the block reads at issue (10_state.md R20). -/
def State.port (s : State) : Command :=
  { op := s.op, a0 := s.a0, a1 := s.a1, a2 := s.a2, a3 := s.a3 }

/-- The host reads a word (R236 (b), (c)); the read changes nothing of the block or of memory (20_memory.md R55). -/
def State.hostSees (s : State) (w : Word) : State := { s with seen := w :: s.seen }

/-- The effect of reset (70_reset_and_hazards.md R231): every register and table takes its value of 10_state.md R35; memory
is not written. -/
def State.applyReset (s : State) : State :=
  { s with
    op := 0x0000#16
    a0 := 0x0000#16
    a1 := 0x0000#16
    a2 := 0x0000#16
    a3 := 0x0000#16
    r0 := 0x0000#16
    st := Status.ok.code
    hinited := false
    hbase := 0x0000#16
    hsize := 0x0000#16
    head := nilWord
    color := true
    live := [] }

/-- Where a command of `nbits` bits, numbered `w`, is placed so that the next step runs it: it is the next thing the host
issues (log 2). -/
def State.hostIssuesNext (s : State) (nbits w : Nat) : State :=
  { s with host := .issue (Command.ofNat (w % 2 ^ nbits)) :: s.host }

end Sys2Proof.Machine
end

