-- ==== Sys2Proof/Machine/Arith.lean ====
section
/-! DEFINITION. The ARITH unit: MUL, DIV, SQRT, ABS, MAX, MIN (40_arithmetic.md). Each command reads only its operands and
writes only `R0` and `ST` (R100). -/

namespace Sys2Proof.Machine

/-- `(acc, sh)` after the first `n` iterations of the loop of R101. -/
def mulSteps (x y : Word) : Nat → Word × Word
  | 0 => (0x0000#16, x)
  | j + 1 =>
    let (acc, sh) := mulSteps x y j
    (if testBit y j then acc + sh else acc, sh + sh)

/-- `mul16(x, y)`: exactly 16 iterations, no early exit (R101). -/
def mul16 (x y : Word) : Word := (mulSteps x y 16).1

/-- `(q, r)` of the loop of R104 after its first `n` iterations; iteration `n` looks at bit `15 - n`. -/
def udivSteps (ax ay : Word) : Nat → Word × Word
  | 0 => (0x0000#16, 0x0000#16)
  | n + 1 =>
    let (q, r) := udivSteps ax ay n
    let r2 := r + r
    let r3 := if testBit ax (15 - n) then r2 + 0x0001#16 else r2
    let q2 := q + q
    if uval ay ≤ uval r3 then (q2 + 0x0001#16, r3 - ay) else (q2, r3)

/-- `udiv16(ax, ay)`: exactly 16 iterations (R104). -/
def udiv16 (ax ay : Word) : Word := (udivSteps ax ay 16).1

/-- The magnitude of a word as an unsigned word (R103): `(s(x) < 0) ? negw(x) : x`. -/
def magnitude (x : Word) : Word := if sval x < 0 then negw x else x

/-- The quotient of R103 for a divisor that is not zero. -/
def quotient (x y : Word) : Word :=
  let q := udiv16 (magnitude x) (magnitude y)
  if (decide (sval x < 0)) != (decide (sval y < 0)) then negw q else q

/-- `root` of the loop of R106 after its first `n` iterations; iteration `n` tries bit `7 - n`. The guard `s(sq) >= 0` is
R107's exact overflow detector. -/
def sqrtSteps (x : Word) : Nat → Word
  | 0 => 0x0000#16
  | n + 1 =>
    let root := sqrtSteps x n
    let c := root + pow2 (7 - n)
    let sq := mul16 c c
    if 0 ≤ sval sq ∧ sval sq ≤ sval x then c else root

/-- `isqrt16(v)`, the value R106 computes for a non-negative operand: exactly 8 iterations (R106, 42_rasterizer.md R170). -/
def isqrt16 (v : Word) : Word := sqrtSteps v 8

/-- MUL (R101). -/
def execMul (x y : Word) (s : State) : Result := completeWith (mul16 x y) s

/-- DIV (R103). -/
def execDiv (x y : Word) (s : State) : Result :=
  if sval y = 0 then raise .divisionByZero s
  else completeWith (quotient x y) s

/-- SQRT (R106). -/
def execSqrt (x : Word) (s : State) : Result :=
  if sval x < 0 then raise .domainError s
  else completeWith (isqrt16 x) s

/-- ABS (R109). -/
def execAbs (x : Word) (s : State) : Result := completeWith (magnitude x) s

/-- MAX (R110): a true signed comparison. -/
def execMax (a b : Word) (s : State) : Result :=
  completeWith (if sval b ≤ sval a then a else b) s

/-- MIN (R111): a true signed comparison. -/
def execMin (a b : Word) (s : State) : Result :=
  completeWith (if sval a ≤ sval b then a else b) s

end Sys2Proof.Machine
end

