-- ==== Sys2Proof/Machine/Heap.lean ====
section
/-! DEFINITION. The HEAP unit: HINIT, ALLOC, FREE and the walker (41_heap_allocator.md). Every check of a command comes before
its first write (00_scope.md R11), so each meaning is a plan that may raise, and then the writes. -/

namespace Sys2Proof.Machine

/-- `HEND = u(HBASE) + s(HSIZE)`, the first address past the heap (10_state.md R27). -/
def State.hend (s : State) : Int := uval s.hbase + sval s.hsize

/-- `MAXNODES = floor(s(HSIZE) / 2)` (10_state.md R27); 0 for the negative HSIZE that no run reaches (log 7). -/
def State.maxNodes (s : State) : Nat := (sval s.hsize / 2).toNat

/-- `validNode(n)` (R132). -/
abbrev validNode (s : State) (n : Word) : Prop := uval s.hbase ≤ uval n ∧ uval n + 2 ≤ s.hend

/-- `validLen(n, L)` (R132). -/
abbrev validLen (s : State) (n L : Word) : Prop := 0 ≤ sval L ∧ uval n + 2 + sval L ≤ s.hend

/-- The configuration checks of HINIT after the first (R131): a header fits, the heap ends in memory, and it does not
overlap the frame buffer when there is one. -/
abbrev heapRangeOk (cfg : Config) (base size : Int) : Prop :=
  2 ≤ size ∧ base + size ≤ 65536 ∧
  ¬(cfg.hasRaster = true ∧ base < cfg.screenBase.val + 8192 ∧ (cfg.screenBase.val : Int) < base + size)

/-- The writes of HINIT (R131): one free node over the whole range. -/
def State.layHeap (s : State) (heapBase heapSize : Word) : State :=
  let base := uval heapBase
  let size := sval heapSize
  { (s.memWrite base nilWord).memWrite (base + 1) (wrap (size - 2)) with
    hbase := wrap base
    hsize := wrap size
    head := wrap base
    hinited := true }

/-- HINIT (R131). -/
def execHinit (heapBase heapSize : Word) (s : State) : Result :=
  if s.hinited then raise .alreadyInitialised s
  else if heapRangeOk s.cfg (uval heapBase) (sval heapSize) then complete (s.layHeap heapBase heapSize)
  else raise .badConfig s

/-- The first-fit walk of ALLOC (R135, R137) on arriving at `n` with `left = MAXNODES - cnt` arrivals still allowed (R134):
the chosen node and its length, or the error. -/
def allocWalk (s : State) (need : Int) : Nat → Word → Except Status (Word × Word)
  | 0, n => if n = nilWord then .error .outOfMemory else .error .heapCorrupt
  | left + 1, n =>
    if n = nilWord then .error .outOfMemory
    else if ¬ validNode s n then .error .heapCorrupt
    else
      let L := s.memRead (uval n + 1)
      if ¬ validLen s n L then .error .heapCorrupt
      else if need ≤ sval L then .ok (n, L)
      else allocWalk s need left (s.memRead (uval n))

/-- The header address of the block carved from the tail of node `n` of length `L` (R136, R137). -/
def carveAddr (n L : Word) (size : Int) : Int := uval n + sval L - size

/-- The writes of ALLOC on the chosen node (R137): the node shrinks, a fresh header is written, the block is live. -/
def State.carve (s : State) (n L : Word) (size : Int) : State :=
  let h := carveAddr n L size
  (((s.memWrite (uval n + 1) (wrap (sval L - (size + 2)))).memWrite h nilWord).memWrite (h + 1) (wrap size)).setLive (h + 2)

/-- ALLOC (R137). -/
def execAlloc (size : Word) (s : State) : Result :=
  if ¬ s.hinited then raise .notInitialised s
  else if sval size ≤ 0 then raise .invalidSize s
  else
    match allocWalk s (sval size + 2) s.maxNodes s.head with
    | .error e => raise e s
    | .ok (n, L) => completeWith (wrap (carveAddr n L (sval size) + 2)) (s.carve n L (sval size))

/-- What FREE's search finds: no free node starts at `f`, or one does and `prev` is the node before it in the list (none when
it is the first). -/
inductive Found where
  | no
  | yes (prev : Option Word)
  deriving DecidableEq, Repr

/-- FREE's search for a free node that starts at `f` (R141), on arriving at `n` from `prev` with `left = MAXNODES - cnt`. -/
def freeWalk (s : State) (f : Int) : Nat → Option Word → Word → Except Status Found
  | 0, _, n => if n = nilWord then .ok .no else .error .heapCorrupt
  | left + 1, prev, n =>
    if n = nilWord then .ok .no
    else if ¬ validNode s n then .error .heapCorrupt
    else if uval n = f then .ok (.yes prev)
    else freeWalk s f left (some n) (s.memRead (uval n))

/-- A following free neighbour that FREE will absorb: the node before it in the list, its length `Lf`, its `next` `nf`. -/
structure Neighbour where
  prev : Option Word
  len : Word
  next : Word
  deriving DecidableEq, Repr

/-- The checks and reads of FREE about the block that starts at `f` (R141): none when there is nothing to merge. -/
def freeNeighbour (s : State) (f : Int) : Except Status (Option Neighbour) :=
  if s.cfg.coalesce = true ∧ f < s.hend then
    match freeWalk s f s.maxNodes none s.head with
    | .error e => .error e
    | .ok .no => .ok none
    | .ok (.yes prev) =>
      let Lf := s.memRead (f + 1)
      if ¬ validLen s (wrap f) Lf then .error .heapCorrupt
      else .ok (some { prev := prev, len := Lf, next := s.memRead f })
  else .ok none

/-- Take the neighbour out of the list (R141). -/
def State.unlink (s : State) (nb : Neighbour) : State :=
  match nb.prev with
  | none => { s with head := nb.next }
  | some p => s.memWrite (uval p) nb.next

/-- Link the block with header address `h` and payload `len` at the head of the list and forget that it was live
(R141, R143). -/
def State.linkAtHead (s : State) (h len : Int) : State :=
  { ((s.memWrite h s.head).memWrite (h + 1) (wrap len)).clearLive (h + 2) with head := wrap h }

/-- The writes of FREE (R141, R142): with a neighbour, unlink and absorb it; then link the block at the head. -/
def State.release (s : State) (h : Int) (S : Word) : Option Neighbour → State
  | none => s.linkAtHead h (sval S)
  | some nb => (s.unlink nb).linkAtHead h (sval S + 2 + sval nb.len)

/-- FREE (R141). -/
def execFree (address : Word) (s : State) : Result :=
  if ¬ s.hinited then raise .notInitialised s
  else if ¬ s.isLive (uval address) then raise .invalidFree s
  else
    let h := uval address - 2
    let S := s.memRead (h + 1)
    if sval S ≤ 0 ∨ s.hend < h + 2 + sval S then raise .heapCorrupt s
    else
      match freeNeighbour s (h + 2 + sval S) with
      | .error e => raise e s
      | .ok nb => complete (s.release h S nb)

end Sys2Proof.Machine
end

