-- ==== Sys2Proof/Machine/Raster.lean ====
section
/-! DEFINITION. The RASTER unit: SETCOLOR, CLEAR, PIXEL, LINE, RECT, CIRCLE (42_rasterizer.md). Whether the unit is present is
the decoder's check (30_encoding.md R76; log 9). A figure is the list of its points in drawing order, and drawing plots
each one (log 12). -/

namespace Sys2Proof.Machine

/-- A point of the screen, `(x, y)`. -/
abbrev Point := Int × Int

/-- `onScreen(x, y)` (R163). -/
abbrev onScreen (x y : Int) : Prop := 0 ≤ x ∧ x ≤ 511 ∧ 0 ≤ y ∧ y ≤ 255

/-- The address of the frame-buffer word of a pixel (20_memory.md R66, 42_rasterizer.md R164). -/
def pixelAddr (cfg : Config) (x y : Int) : Int :=
  cfg.screenBase.val + uval (mul16 (wrap 32) (wrap y)) + x / 16

/-- The bit of that word, `x mod 16` (R66, R164). -/
def pixelBit (x : Int) : Nat := (x % 16).toNat

/-- Set or clear one bit of a word according to the colour (R164, R165). -/
def paintBit (color : Bool) (k : Nat) (w : Word) : Word :=
  if color then w ||| pow2 k else w &&& ~~~(pow2 k)

/-- `plot(x, y)` for a point known to be on screen (R164). -/
def State.plot (s : State) (p : Point) : State :=
  s.memWrite (pixelAddr s.cfg p.1 p.2)
    (paintBit s.color (pixelBit p.1) (s.memRead (pixelAddr s.cfg p.1 p.2)))

/-- Plot a figure, its points in order. -/
def State.plotAll (s : State) : List Point → State
  | [] => s
  | p :: ps => (s.plot p).plotAll ps

/-- The `n` points from `(x, y)` on, each `(dx, dy)` from the one before. -/
def run (x y dx dy : Int) : Nat → List Point
  | 0 => []
  | n + 1 => (x, y) :: run (x + dx) (y + dy) dx dy n

/-- `sx` and `sy` of R166: the sign of a difference. -/
def signOf (d : Int) : Int := if 0 < d then 1 else if d < 0 then -1 else 0

/-- The offsets `(a, b)` that the general walk of R166 visits from `(a, b)` on, `diff` being its accumulator; the first
argument bounds the loop, which ends after exactly `adx + ady` steps (R167; log 12). A tie `diff = 0` steps `b`. -/
def lineWalk (adx ady : Nat) : Nat → Nat → Nat → Int → List (Nat × Nat)
  | 0, a, b, _ => [(a, b)]
  | left + 1, a, b, diff =>
    (a, b) ::
      if a = adx ∧ b = ady then []
      else if diff < 0 then lineWalk adx ady left (a + 1) b (diff + ady)
      else lineWalk adx ady left a (b + 1) (diff - adx)

/-- The points of LINE in drawing order (R166). -/
def linePoints (x1 y1 x2 y2 : Int) : List Point :=
  let adx := (x2 - x1).natAbs
  let ady := (y2 - y1).natAbs
  let sx := signOf (x2 - x1)
  let sy := signOf (y2 - y1)
  if adx = 0 then run x1 y1 0 sy (ady + 1)
  else if ady = 0 then run x1 y1 sx 0 (adx + 1)
  else (lineWalk adx ady (adx + ady) 0 0 0).map (fun ab => (x1 + sx * ab.1, y1 + sy * ab.2))

/-- `n` rows of `w` points each, the first from `(x, y)` on. -/
def rowsFrom (x y : Int) (w : Nat) : Nat → List Point
  | 0 => []
  | n + 1 => run x y 1 0 w ++ rowsFrom x (y + 1) w n

/-- The points of RECT in drawing order (R169): the corners may be given in any order. -/
def rectPoints (x1 y1 x2 y2 : Int) : List Point :=
  rowsFrom (min x1 x2) (min y1 y2) ((x2 - x1).natAbs + 1) ((y2 - y1).natAbs + 1)

/-- The half-width of the row `d` of a disc of radius `r` (R170). -/
def halfWidth (r d : Int) : Int :=
  sval (isqrt16 (mul16 (wrap r) (wrap r) - mul16 (wrap d) (wrap d)))

/-- The rows of CIRCLE from offset `d` on, `n` of them (R170): row `y + d` from `x - hw` to `x + hw`. -/
def discRows (x y r : Int) : Nat → Int → List Point
  | 0, _ => []
  | n + 1, d =>
    run (x - halfWidth r d) (y + d) 1 0 (2 * halfWidth r d + 1).toNat ++ discRows x y r n (d + 1)

/-- The points of CIRCLE in drawing order (R170): `d` from `-r` to `r`. -/
def circlePoints (x y r : Int) : List Point := discRows x y r (2 * r + 1).toNat (-r)

/-- SETCOLOR (R161). -/
def execSetcolor (color : Word) (s : State) : Result := complete { s with color := colorOperand color }

/-- CLEAR (R162): the complement of the drawing colour in every word of the frame buffer. -/
def execClear (s : State) : Result :=
  complete (State.memFill s.cfg.screenBase.val (if s.color then 0x0000#16 else 0xFFFF#16) 8192 s)

/-- PIXEL (R164). -/
def execPixel (x y : Word) (s : State) : Result :=
  if ¬ onScreen (sval x) (sval y) then raise .invalidCoordinate s
  else complete (s.plot (sval x, sval y))

/-- LINE (R166). -/
def execLine (x1 y1 x2 y2 : Word) (s : State) : Result :=
  if ¬ onScreen (sval x1) (sval y1) ∨ ¬ onScreen (sval x2) (sval y2) then raise .invalidCoordinate s
  else complete (s.plotAll (linePoints (sval x1) (sval y1) (sval x2) (sval y2)))

/-- RECT (R169). -/
def execRect (x1 y1 x2 y2 : Word) (s : State) : Result :=
  if ¬ onScreen (sval x1) (sval y1) ∨ ¬ onScreen (sval x2) (sval y2) then raise .invalidCoordinate s
  else complete (s.plotAll (rectPoints (sval x1) (sval y1) (sval x2) (sval y2)))

/-- CIRCLE (R170): the bounding square is checked with integer sums, not wrapped ones. -/
def execCircle (x y r : Word) (s : State) : Result :=
  if sval r < 0 then raise .invalidCoordinate s
  else if ¬ onScreen (sval x - sval r) (sval y - sval r) ∨ ¬ onScreen (sval x + sval r) (sval y + sval r) then
    raise .invalidCoordinate s
  else complete (s.plotAll (circlePoints (sval x) (sval y) (sval r)))

end Sys2Proof.Machine
end

