-- ==== Sys2Proof/Machine/Dispatch.lean ====
section
/-! DEFINITION. exec: one arm per command of spec/opcode_table.json, each one direct call of its meaning. -/

namespace Sys2Proof.Machine

/-- A command is one atomic transition of the machine (00_scope.md R12). -/
def exec (i : Instr) (s : State) : Host.Outcome State Fault Refusal :=
  match i with
  -- ARITH (40_arithmetic.md)
  | .mul x y => Sys2Proof.Machine.execMul x y s
  | .div x y => Sys2Proof.Machine.execDiv x y s
  | .sqrt x => Sys2Proof.Machine.execSqrt x s
  | .abs x => Sys2Proof.Machine.execAbs x s
  | .max a b => Sys2Proof.Machine.execMax a b s
  | .min a b => Sys2Proof.Machine.execMin a b s
  -- HEAP (41_heap_allocator.md)
  | .hinit heapBase heapSize => Sys2Proof.Machine.execHinit heapBase heapSize s
  | .alloc size => Sys2Proof.Machine.execAlloc size s
  | .free address => Sys2Proof.Machine.execFree address s
  -- RASTER (42_rasterizer.md)
  | .setcolor color => Sys2Proof.Machine.execSetcolor color s
  | .clear => Sys2Proof.Machine.execClear s
  | .pixel x y => Sys2Proof.Machine.execPixel x y s
  | .line x1 y1 x2 y2 => Sys2Proof.Machine.execLine x1 y1 x2 y2 s
  | .rect x1 y1 x2 y2 => Sys2Proof.Machine.execRect x1 y1 x2 y2 s
  | .circle x y r => Sys2Proof.Machine.execCircle x y r s

end Sys2Proof.Machine
end

