-- ==== Sys2Proof/Machine/Step.lean ====
section
/-! DEFINITION. One step of the machine: the host's next action. A command it issues runs to completion in that one step
(00_scope.md R12); with no action left the machine stays as it is (70_reset_and_hazards.md R232; log 2). -/

namespace Sys2Proof.Machine

/-- The block runs the command its port registers hold; a word that spells none raises `IllegalCommand` (30_encoding.md R75). -/
def runPort (s : State) : Host.Outcome State Fault Refusal :=
  match decode s.cfg s.port with
  | .ok i => exec i s
  | .error _ => raise .illegalCommand s

/-- One step: the host's next action (70_reset_and_hazards.md R236). -/
def step (s : State) : Host.Outcome State Fault Refusal :=
  match s.host with
  | [] => .next s
  | .issue c :: rest => runPort ((s.hostDone rest).present c)
  | .readSt :: rest => .next ((s.hostDone rest).hostSees s.st)
  | .readR0 :: rest => .next ((s.hostDone rest).hostSees s.r0)
  | .peek addr :: rest => .next ((s.hostDone rest).hostSees (s.memRead (uval addr)))
  | .poke addr value :: rest => .next ((s.hostDone rest).memWrite (uval addr) value)
  | .reset :: rest => .next ((s.hostDone rest).applyReset)

/-- `s` with the instruction of the table numbered `w` issued by the host next, so that the very next step runs it (log 2). -/
def State.withFetchWord (s : State) (nbits w : Nat) : State := s.hostIssuesNext nbits w

end Sys2Proof.Machine
end

