-- ==== Sys2Proof/Safety.lean ====
section
/-! DEFINITION. The terms in which claims about N2T-CORE are made: what a command may raise, the machine's invariant, what a
well-formed heap is (20_memory.md R64), a walk along the free list, and the pixels of the screen (R66). -/

namespace Sys2Proof.Machine

/-- An address of the address space (20_memory.md R50). -/
abbrev inMemory (a : Int) : Prop := 0 ≤ a ∧ a < 65536

/-- Inside the heap, `[u(HBASE), HEND)` (20_memory.md R56). -/
abbrev State.inHeap (s : State) (a : Int) : Prop := uval s.hbase ≤ a ∧ a < s.hend

/-- Inside the frame buffer, `[SCREEN_BASE, SCREEN_BASE + 8192)` (20_memory.md R56). -/
abbrev State.inFrame (s : State) (a : Int) : Prop :=
  (s.cfg.screenBase.val : Int) ≤ a ∧ a < s.cfg.screenBase.val + 8192

/-- The errors a command can raise, exhaustively (60_exceptions.md R202). -/
def errorsOf : Instr → List Status
  | .mul _ _ => []
  | .div _ _ => [.divisionByZero]
  | .sqrt _ => [.domainError]
  | .abs _ => []
  | .max _ _ => []
  | .min _ _ => []
  | .hinit _ _ => [.alreadyInitialised, .badConfig]
  | .alloc _ => [.notInitialised, .invalidSize, .outOfMemory, .heapCorrupt]
  | .free _ => [.notInitialised, .invalidFree, .heapCorrupt]
  | .setcolor _ => []
  | .clear => []
  | .pixel _ _ => [.invalidCoordinate]
  | .line _ _ _ _ => [.invalidCoordinate]
  | .rect _ _ _ _ => [.invalidCoordinate]
  | .circle _ _ _ => [.invalidCoordinate]

/-- The commands whose rule has a line `R0 <- ...` (10_state.md R22). -/
def hasResult : Instr → Bool
  | .mul _ _ => true
  | .div _ _ => true
  | .sqrt _ => true
  | .abs _ => true
  | .max _ _ => true
  | .min _ _ => true
  | .hinit _ _ => false
  | .alloc _ => true
  | .free _ => false
  | .setcolor _ => false
  | .clear => false
  | .pixel _ _ => false
  | .line _ _ _ _ => false
  | .rect _ _ _ _ => false
  | .circle _ _ _ => false

/-- How many argument words a command reads: the columns `A0..A3` of 30_encoding.md R72 that are not `–`. -/
def argCount : Instr → Nat
  | .mul _ _ => 2
  | .div _ _ => 2
  | .sqrt _ => 1
  | .abs _ => 1
  | .max _ _ => 2
  | .min _ _ => 2
  | .hinit _ _ => 2
  | .alloc _ => 1
  | .free _ => 1
  | .setcolor _ => 1
  | .clear => 0
  | .pixel _ _ => 2
  | .line _ _ _ _ => 4
  | .rect _ _ _ _ => 4
  | .circle _ _ _ => 3

/-- The `OP` words that spell no command, as 30_encoding.md R75 and R76 list them: by `RSV`, `UNIT` and `FN`. -/
def illegalOp (cfg : Config) (op : Word) : Prop :=
  let rsv := op.toNat / 256
  let unit := op.toNat / 16 % 16
  let fn := op.toNat % 16
  rsv ≠ 0 ∨ unit = 0 ∨ 4 ≤ unit ∨ (unit = 1 ∧ 6 ≤ fn) ∨ (unit = 2 ∧ 3 ≤ fn) ∨
    (unit = 3 ∧ (6 ≤ fn ∨ cfg.hasRaster = false))

/-- The machine's invariant: what every step keeps, and what rules out the states that no run from power-on reaches. -/
structure State.Inv (s : State) : Prop where
  /-- Memory is in its canonical form. -/
  memWf : Memory.wf s.mem
  /-- `LIVE` is in its canonical form. -/
  liveWf : LiveMap.wf s.live
  /-- `ST` holds one of the twelve codes (60_exceptions.md R200). -/
  statusLegal : ∃ c : Status, s.st = c.code
  /-- Before HINIT nothing is allocated and the free list is empty (10_state.md R28, R31). -/
  beforeInit : s.hinited = false → s.live = [] ∧ s.head = nilWord
  /-- After HINIT the heap holds a header, ends in memory, and is disjoint from the frame buffer (R27, 20_memory.md R56). -/
  heapPlaced : s.hinited = true → heapRangeOk s.cfg (uval s.hbase) (sval s.hsize)
  /-- `HEAD` is `NIL` or the address of a header inside the heap (10_state.md R28). -/
  headLegal : s.hinited = true → s.head = nilWord ∨ validNode s s.head
  /-- A live address lies past a header that itself lies past the first header of the heap (41_heap_allocator.md R141,
  "Address ranges"). -/
  liveInHeap : ∀ a ∈ s.live, uval s.hbase + 4 ≤ (a : Int) ∧ (a : Int) < s.hend

/-- One block of the heap: its header address, its length, and whether it is free (20_memory.md R64). -/
structure Block where
  header : Int
  length : Int
  isFree : Bool
  deriving DecidableEq, Repr

/-- The extents of the blocks, in order, tile the addresses from `b` up to `e` (20_memory.md R64). -/
def tiles : Int → List Block → Int → Prop
  | b, [], e => b = e
  | b, k :: ks, e => k.header = b ∧ 0 ≤ k.length ∧ tiles (b + 2 + k.length) ks e

/-- Following `next` from node `n` visits exactly these header addresses and ends at `NIL` (20_memory.md R62, R64). -/
def State.freeListFrom (s : State) : Word → List Int → Prop
  | n, [] => n = nilWord
  | n, a :: as => n ≠ nilWord ∧ uval n = a ∧ s.freeListFrom (s.memRead a) as

/-- The heap is well formed with these blocks, in address order, and this free list, in walk order (20_memory.md R64); an
allocated block has a positive size (R63; log 15). -/
structure State.HeapLaidOut (s : State) (blocks : List Block) (nodes : List Int) : Prop where
  inited : s.hinited = true
  tiling : tiles (uval s.hbase) blocks s.hend
  lengths : ∀ k ∈ blocks, sval (s.memRead (k.header + 1)) = k.length
  walk : s.freeListFrom s.head nodes
  noCycle : nodes.Nodup
  free : ∀ a, a ∈ nodes ↔ ∃ k ∈ blocks, k.isFree = true ∧ k.header = a
  allocated : ∀ a, inMemory a → (s.isLive a = true ↔ ∃ k ∈ blocks, k.isFree = false ∧ k.header + 2 = a)
  sizes : ∀ k ∈ blocks, k.isFree = false → 0 < k.length

/-- The heap is well formed (20_memory.md R64). -/
def State.heapWellFormed (s : State) : Prop := ∃ blocks nodes, s.HeapLaidOut blocks nodes

/-- The walker, starting at `n`, leaves the nodes `ns` behind and arrives at `m` (41_heap_allocator.md R134). -/
def State.walksTo (s : State) : Word → List Word → Word → Prop
  | n, [], m => n = m
  | n, x :: xs, m => n = x ∧ s.walksTo (s.memRead (uval x)) xs m

/-- What the walker needs of a node it leaves behind (R132, R133): it is no `NIL` and it passes `validNode`. -/
abbrev State.passable (s : State) (n : Word) : Prop := n ≠ nilWord ∧ validNode s n

/-- A node ALLOC leaves behind because it does not fit: valid, with a valid length below `need` (R137). -/
abbrev State.tooSmall (s : State) (need : Int) (n : Word) : Prop :=
  s.passable n ∧ validLen s n (s.memRead (uval n + 1)) ∧ sval (s.memRead (uval n + 1)) < need

/-- The pixel `(x, y)` shows the foreground colour: its bit is 1 (20_memory.md R66). -/
def State.pixelOn (s : State) (x y : Int) : Bool :=
  testBit (s.memRead (pixelAddr s.cfg x y)) (pixelBit x)

end Sys2Proof.Machine
end

