-- ==== Sys2Proof/Certificates/Slice0/Obligations.lean ====
section
/-! DEFINITION. What is claimed of N2T-CORE, for the provers: statements about every state, from the rules of spec/. -/

open Sys2Proof Sys2Proof.Machine

/-! ## Decoding and encoding (30_encoding.md) -/

/-- The fifteen rows of R72, encoded and decoded: the `OP` word of each, its operands in `A0, A1, A2, A3` order, `0x0000` for
an argument register the row does not read (R78), and any word there when it is decoded (R74); and R80's listing, the five
words `OP A0 A1 A2 A3` of its three examples. -/
def Obligations.ListedCommandsHaveTheirFiveWords : Prop :=
  ∀ (cfg : Config) (a b c d : Word),
    (encode (.mul a b) = ⟨0x0010#16, a, b, 0x0000#16, 0x0000#16⟩ ∧
      encode (.div a b) = ⟨0x0011#16, a, b, 0x0000#16, 0x0000#16⟩ ∧
      encode (.sqrt a) = ⟨0x0012#16, a, 0x0000#16, 0x0000#16, 0x0000#16⟩ ∧
      encode (.abs a) = ⟨0x0013#16, a, 0x0000#16, 0x0000#16, 0x0000#16⟩ ∧
      encode (.max a b) = ⟨0x0014#16, a, b, 0x0000#16, 0x0000#16⟩ ∧
      encode (.min a b) = ⟨0x0015#16, a, b, 0x0000#16, 0x0000#16⟩ ∧
      encode (.hinit a b) = ⟨0x0020#16, a, b, 0x0000#16, 0x0000#16⟩ ∧
      encode (.alloc a) = ⟨0x0021#16, a, 0x0000#16, 0x0000#16, 0x0000#16⟩ ∧
      encode (.free a) = ⟨0x0022#16, a, 0x0000#16, 0x0000#16, 0x0000#16⟩ ∧
      encode (.setcolor a) = ⟨0x0030#16, a, 0x0000#16, 0x0000#16, 0x0000#16⟩ ∧
      encode .clear = ⟨0x0031#16, 0x0000#16, 0x0000#16, 0x0000#16, 0x0000#16⟩ ∧
      encode (.pixel a b) = ⟨0x0032#16, a, b, 0x0000#16, 0x0000#16⟩ ∧
      encode (.line a b c d) = ⟨0x0033#16, a, b, c, d⟩ ∧
      encode (.rect a b c d) = ⟨0x0034#16, a, b, c, d⟩ ∧
      encode (.circle a b c) = ⟨0x0035#16, a, b, c, 0x0000#16⟩) ∧
    (decode cfg ⟨0x0010#16, a, b, c, d⟩ = .ok (.mul a b) ∧
      decode cfg ⟨0x0011#16, a, b, c, d⟩ = .ok (.div a b) ∧
      decode cfg ⟨0x0012#16, a, b, c, d⟩ = .ok (.sqrt a) ∧
      decode cfg ⟨0x0013#16, a, b, c, d⟩ = .ok (.abs a) ∧
      decode cfg ⟨0x0014#16, a, b, c, d⟩ = .ok (.max a b) ∧
      decode cfg ⟨0x0015#16, a, b, c, d⟩ = .ok (.min a b) ∧
      decode cfg ⟨0x0020#16, a, b, c, d⟩ = .ok (.hinit a b) ∧
      decode cfg ⟨0x0021#16, a, b, c, d⟩ = .ok (.alloc a) ∧
      decode cfg ⟨0x0022#16, a, b, c, d⟩ = .ok (.free a)) ∧
    (cfg.hasRaster = true →
      decode cfg ⟨0x0030#16, a, b, c, d⟩ = .ok (.setcolor a) ∧
      decode cfg ⟨0x0031#16, a, b, c, d⟩ = .ok .clear ∧
      decode cfg ⟨0x0032#16, a, b, c, d⟩ = .ok (.pixel a b) ∧
      decode cfg ⟨0x0033#16, a, b, c, d⟩ = .ok (.line a b c d) ∧
      decode cfg ⟨0x0034#16, a, b, c, d⟩ = .ok (.rect a b c d) ∧
      decode cfg ⟨0x0035#16, a, b, c, d⟩ = .ok (.circle a b c)) ∧
    encode (.mul 7#16 (wrap (-3))) = ⟨0x0010#16, 0x0007#16, 0xFFFD#16, 0x0000#16, 0x0000#16⟩ ∧
    encode (.alloc 10#16) = ⟨0x0021#16, 0x000A#16, 0x0000#16, 0x0000#16, 0x0000#16⟩ ∧
    encode (.line 0#16 0#16 5#16 0#16) = ⟨0x0033#16, 0x0000#16, 0x0000#16, 0x0005#16, 0x0000#16⟩

/-- Decoding the encoding of a command that exists on the machine gives it back, whatever its operands. -/
def Obligations.DecodeInvertsEncode : Prop :=
  ∀ (cfg : Config) (i : Instr), i.wellFormed cfg = true → decode cfg (encode i) = .ok i

/-- A command that decodes is well formed, and encoding it gives back the `OP` word and every argument word it reads: no two
words of `OP` decode to one command, and no bit of an operand is lost. -/
def Obligations.EncodeInvertsDecode : Prop :=
  ∀ (cfg : Config) (c : Command) (i : Instr), decode cfg c = .ok i →
    i.wellFormed cfg = true ∧
    encode i =
      { op := c.op
        a0 := if 0 < argCount i then c.a0 else 0#16
        a1 := if 1 < argCount i then c.a1 else 0#16
        a2 := if 2 < argCount i then c.a2 else 0#16
        a3 := if 3 < argCount i then c.a3 else 0#16 }

/-- R74: an argument register that R72 marks `–` for a command is not read by it: two hosts that issue words with one `OP`
which agree where the command reads them run one command, and it ends the same way: the two next states differ in nothing
but the argument words the hosts presented. -/
def Obligations.UnreadArgumentsAreIgnored : Prop :=
  ∀ (s : State) (c d : Command) (rest : List HostAction) (i : Instr), decode s.cfg c = .ok i → d.op = c.op →
    (0 < argCount i → d.a0 = c.a0) → (1 < argCount i → d.a1 = c.a1) →
    (2 < argCount i → d.a2 = c.a2) → (3 < argCount i → d.a3 = c.a3) →
    decode s.cfg d = .ok i ∧
    ∃ t, step { s with host := .issue c :: rest } = .next t ∧
      step { s with host := .issue d :: rest } = .next { t with a0 := d.a0, a1 := d.a1, a2 := d.a2, a3 := d.a3 }

/-- R75 and R76: issuing a word outside the opcode map raises `IllegalCommand` and changes nothing else but the port the
host wrote; any other word is the `OP` of a row, and that row's command runs. -/
def Obligations.IllegalWordsRaiseIllegalCommand : Prop :=
  ∀ (s : State) (c : Command) (rest : List HostAction), s.host = .issue c :: rest →
    (illegalOp s.cfg c.op →
      step s = .next { s with
        host := rest, op := c.op, a0 := c.a0, a1 := c.a1, a2 := c.a2, a3 := c.a3, st := 0x0006#16 }) ∧
    (¬ illegalOp s.cfg c.op →
      ∃ i, decode s.cfg c = .ok i ∧ (encode i).op = c.op ∧
        step s = exec i { s with host := rest, op := c.op, a0 := c.a0, a1 := c.a1, a2 := c.a2, a3 := c.a3 })

/-! ## The step: the host and the block -/

/-- A step runs the issued command: when the host's next action issues words that decode to `i`, the step is `exec i` on the
state whose port registers hold those words and whose host has that action behind it. -/
def Obligations.StepRunsTheIssuedCommand : Prop :=
  ∀ (s : State) (c : Command) (rest : List HostAction) (i : Instr),
    s.host = .issue c :: rest → decode s.cfg c = .ok i →
    step s = exec i { s with host := rest, op := c.op, a0 := c.a0, a1 := c.a1, a2 := c.a2, a3 := c.a3 }

/-- `withFetchWord` places a table word so that the very next step runs it (the model's convention, log 2). -/
def Obligations.PlacedTableWordRunsNext : Prop :=
  ∀ (s : State) (w : Nat) (i : Instr), s.cfg.hasRaster = true → w < 65536 → decodeTableWord 16 w = some i →
    step (s.withFetchWord 16 w) =
      exec i { s with op := BitVec.ofNat 16 w, a0 := 0#16, a1 := 0#16, a2 := 0#16, a3 := 0#16 }

/-- The host between commands: it reads `ST`, `R0` or a memory word and nothing else changes; it writes one memory word,
which then reads as written, and no other word and no register changes; with nothing to do, nothing happens. -/
def Obligations.HostActsBetweenCommands : Prop :=
  ∀ (s : State) (rest : List HostAction),
    (s.host = [] → step s = .next s) ∧
    (s.host = .readSt :: rest → step s = .next { s with host := rest, seen := s.st :: s.seen }) ∧
    (s.host = .readR0 :: rest → step s = .next { s with host := rest, seen := s.r0 :: s.seen }) ∧
    (∀ a, s.host = .peek a :: rest →
      step s = .next { s with host := rest, seen := s.memRead (uval a) :: s.seen }) ∧
    (∀ a v, s.host = .poke a v :: rest →
      ∃ t, step s = .next t ∧ t = { s with host := rest, mem := t.mem } ∧ t.memRead (uval a) = v ∧
        ∀ b, inMemory b → b ≠ uval a → t.memRead b = s.memRead b)

/-- R231: what a reset by the host leaves, and that the blocks handed out before it are forgotten. -/
def Obligations.HostResetRestoresTheBlock : Prop :=
  ∀ (s : State) (rest : List HostAction), s.host = .reset :: rest →
    ∃ t, step s = .next t ∧
      t = { s with
        host := rest, op := 0#16, a0 := 0#16, a1 := 0#16, a2 := 0#16, a3 := 0#16, r0 := 0#16, st := 0#16,
        hinited := false, hbase := 0#16, hsize := 0#16, head := 0xFFFF#16, color := true, live := [] } ∧
      (∀ p, exec (.free p) t = .next { t with st := 0x0007#16 }) ∧
      (∀ base size t' p, exec (.hinit base size) t = .next t' → t'.st = 0#16 →
        exec (.free p) t' = .next { t' with st := 0x0005#16 })

/-- R35: the state at power-on, by the table; a word of memory is the free value of its address, so nothing is known of it. -/
def Obligations.PowerOnState : Prop :=
  State.reset.op = 0x0000#16 ∧ State.reset.a0 = 0x0000#16 ∧ State.reset.a1 = 0x0000#16 ∧
  State.reset.a2 = 0x0000#16 ∧ State.reset.a3 = 0x0000#16 ∧ State.reset.r0 = 0x0000#16 ∧
  State.reset.st = 0x0000#16 ∧ State.reset.hinited = false ∧ State.reset.hbase = 0x0000#16 ∧
  State.reset.hsize = 0x0000#16 ∧ State.reset.head = 0xFFFF#16 ∧ State.reset.color = true ∧
  (∀ j, j < 16 → pow2 j = wrap (2 ^ j)) ∧ (∀ a, State.reset.isLive a = false) ∧
  (∀ a, inMemory a → State.reset.memRead a = Config.unwrittenWord a.toNat)

/-- R202: every command completes, with `OK` or with one of its own errors, from every state. -/
def Obligations.CommandsRaiseOnlyTheirErrors : Prop :=
  ∀ (i : Instr) (s : State), ∃ t, exec i s = .next t ∧
    (t.st = Status.ok.code ∨ ∃ e ∈ errorsOf i, t.st = e.code)

/-- R206: a command that ends in an error has changed nothing but `ST`; nor has a word that spells no command, but for the port
registers, which the host writes as it issues them (R21). -/
def Obligations.ErrorsChangeOnlyTheStatus : Prop :=
  (∀ (i : Instr) (s t : State), exec i s = .next t → t.st ≠ 0x0000#16 → t = { s with st := t.st }) ∧
  (∀ (s t : State) (c : Command) (rest : List HostAction), s.host = .issue c :: rest → step s = .next t →
    t.st ≠ 0x0000#16 →
    t = { s with host := rest, op := c.op, a0 := c.a0, a1 := c.a1, a2 := c.a2, a3 := c.a3, st := t.st })

/-- R207: what a command does is the same whatever `ST` held before it; no error is sticky. -/
def Obligations.NoErrorIsSticky : Prop :=
  ∀ (i : Instr) (s : State) (v : Word), exec i { s with st := v } = exec i s

/-- R22: `R0` is written only when a command with a result ends in `OK`; every other end leaves it. -/
def Obligations.ResultOnlyWithOk : Prop :=
  ∀ (i : Instr) (s t : State), exec i s = .next t → (hasResult i = false ∨ t.st ≠ 0x0000#16) → t.r0 = s.r0

/-- R21 and the arguments of the machine: no command writes `OP`, `A0..A3`, the parameters, or what concerns the host. -/
def Obligations.CommandsLeaveThePort : Prop :=
  ∀ (i : Instr) (s t : State), exec i s = .next t →
    t.op = s.op ∧ t.a0 = s.a0 ∧ t.a1 = s.a1 ∧ t.a2 = s.a2 ∧ t.a3 = s.a3 ∧
    t.cfg = s.cfg ∧ t.host = s.host ∧ t.seen = s.seen

/-- R36: what the host reads is fixed by `ST`, `R0` and memory: two machines that agree on those and on the host's next action,
which issues no command, show the host the same. -/
def Obligations.HostSeesOnlyStatusResultAndMemory : Prop :=
  ∀ (s s' t t' : State), s.st = s'.st → s.r0 = s'.r0 → (∀ a, inMemory a → s.memRead a = s'.memRead a) →
    s.host = s'.host → s.seen = s'.seen → (∀ c rest, s.host ≠ .issue c :: rest) →
    step s = .next t → step s' = .next t' → t.seen = t'.seen

/-! ## ARITH (40_arithmetic.md) -/

/-- R102: the law of MUL: both readings, the loop after each step, and that the product is commutative and associative. -/
def Obligations.MulIsWrappingMultiplication : Prop :=
  ∀ x y z : Word,
    mul16 x y = wrap (sval x * sval y) ∧ mul16 x y = wrap (uval x * uval y) ∧
    (∀ j : Nat, j < 16 →
      mulSteps x y (j + 1) = (wrap (uval x * (uval y % 2 ^ (j + 1))), wrap (uval x * 2 ^ (j + 1)))) ∧
    mul16 x y = mul16 y x ∧ mul16 (mul16 x y) z = mul16 x (mul16 y z)

/-- R101: MUL gives the low 16 bits of the exact product, raises nothing, and writes `R0` and `ST` only. -/
def Obligations.MulGivesTheLowProduct : Prop :=
  ∀ (x y : Word) (s : State),
    exec (.mul x y) s = .next { s with r0 := wrap (sval x * sval y), st := 0x0000#16 }

/-- R103: DIV truncates toward zero, wraps, and raises `DivisionByZero` for a zero divisor whatever the dividend is. -/
def Obligations.DivTruncatesTowardZero : Prop :=
  ∀ (x y : Word) (s : State),
    exec (.div x y) s =
      if sval y = 0 then .next { s with st := 0x0003#16 }
      else .next { s with r0 := wrap ((sval x).tdiv (sval y)), st := 0x0000#16 }

/-- R104: `udiv16` is the floor quotient, its last remainder is the modulus, and its loop keeps `u(r) < u(ay)` at the end of every
iteration; the remainder that an iteration doubles is at most 32767, so no step wraps. -/
def Obligations.UdivIsTheFloorQuotient : Prop :=
  ∀ ax ay : Word, 1 ≤ uval ay →
    uval (udiv16 ax ay) = uval ax / uval ay ∧
    uval (udivSteps ax ay 16).2 = uval ax % uval ay ∧
    (∀ n, n ≤ 16 → uval (udivSteps ax ay n).2 < uval ay) ∧
    ∀ n, n < 16 → uval (udivSteps ax ay n).2 ≤ 32767

/-- R105: the law of DIV: the size and sign of the quotient, the one operand pair whose quotient does not fit, and the implied
remainder; a zero divisor signals `DivisionByZero`. -/
def Obligations.DivReconstructsTheDividend : Prop :=
  ∀ (x y : Word) (s t : State), exec (.div x y) s = .next t → (sval y = 0 → t.st = 0x0003#16) ∧ (sval y ≠ 0 →
    ∃ T rem : Int, t.r0 = wrap T ∧ (T.natAbs = (sval x).natAbs / (sval y).natAbs) ∧
      ((sval x < 0 ↔ sval y < 0) → 0 ≤ T) ∧ (¬(sval x < 0 ↔ sval y < 0) → T ≤ 0) ∧
      (¬(sval x = -32768 ∧ sval y = -1) → -32768 ≤ T ∧ T ≤ 32767 ∧ sval t.r0 = T) ∧
      (sval x = -32768 ∧ sval y = -1 → T = 32768 ∧ sval t.r0 = -32768) ∧
      rem = sval x - T * sval y ∧ (rem = 0 ∨ (rem < 0 ↔ sval x < 0)) ∧ rem.natAbs < (sval y).natAbs ∧
      sval x = T * sval y + rem ∧ x = wrap (sval t.r0 * sval y + rem))

/-- R106 and R108: SQRT gives the floor of the square root, in 0..181, and raises `DomainError` for a negative operand; after `n`
iterations `root` is the largest multiple of `2^(8-n)` whose square is at most the operand. -/
def Obligations.SqrtIsTheFloorRoot : Prop :=
  ∀ (x : Word) (s : State),
    (sval x < 0 → exec (.sqrt x) s = .next { s with st := 0x0004#16 }) ∧
    (0 ≤ sval x → ∃ r : Int, 0 ≤ r ∧ r ≤ 181 ∧ r * r ≤ sval x ∧ sval x < (r + 1) * (r + 1) ∧
      exec (.sqrt x) s = .next { s with r0 := wrap r, st := 0x0000#16 }) ∧
    (0 ≤ sval x → ∀ n : Nat, n ≤ 8 → ∃ m : Int, uval (sqrtSteps x n) = m * 2 ^ (8 - n) ∧
      m * 2 ^ (8 - n) * (m * 2 ^ (8 - n)) ≤ sval x ∧ sval x < (m + 1) * 2 ^ (8 - n) * ((m + 1) * 2 ^ (8 - n)))

/-- R107: for a candidate in 1..255 the square word is the true square, and its sign is an exact overflow detector. -/
def Obligations.SqrtGuardDetectsOverflow : Prop :=
  ∀ c : Word, 1 ≤ uval c → uval c ≤ 255 →
    uval (mul16 c c) = uval c * uval c ∧ (sval (mul16 c c) < 0 ↔ 32768 ≤ uval c * uval c)

/-- R109: ABS gives the magnitude, exact in its unsigned reading and in its signed reading but for -32768. -/
def Obligations.AbsGivesTheMagnitude : Prop :=
  ∀ (x : Word) (s : State),
    ∃ r : Word, exec (.abs x) s = .next { s with r0 := r, st := 0x0000#16 } ∧
      r = (if sval x < 0 then wrap (-(sval x)) else x) ∧ uval r = |sval x| ∧
      (sval x ≠ -32768 → sval r = |sval x|) ∧ (sval x = -32768 → r = 0x8000#16)

/-- R110: MAX gives the operand with the larger signed reading. -/
def Obligations.MaxGivesTheLarger : Prop :=
  ∀ (a b : Word) (s : State),
    ∃ r : Word, exec (.max a b) s = .next { s with r0 := r, st := 0x0000#16 } ∧
      (r = a ∨ r = b) ∧ sval r = max (sval a) (sval b)

/-- R111: MIN gives the operand with the smaller signed reading. -/
def Obligations.MinGivesTheSmaller : Prop :=
  ∀ (a b : Word) (s : State),
    ∃ r : Word, exec (.min a b) s = .next { s with r0 := r, st := 0x0000#16 } ∧
      (r = a ∨ r = b) ∧ sval r = min (sval a) (sval b)

/-- R100: an ARITH command writes only `R0` and `ST`, and its outcome is a function of its operands. -/
def Obligations.ArithCommandsArePure : Prop :=
  ∀ (i : Instr) (s s' t t' : State), i.unit = .arith → exec i s = .next t → exec i s' = .next t' →
    t = { s with r0 := t.r0, st := t.st } ∧ t.st = t'.st ∧ (s.r0 = s'.r0 → t.r0 = t'.r0) ∧
    (t.st = 0x0000#16 → t.r0 = t'.r0)

/-! ## HEAP (41_heap_allocator.md) -/

/-- R131: HINIT lays one free node over a range that passes its checks, and writes nothing else; a second HINIT raises
`AlreadyInitialised`, and a range that fails a check raises `BadConfig`. -/
def Obligations.HinitLaysOneFreeNode : Prop :=
  ∀ (heapBase heapSize : Word) (s : State),
    (s.hinited = true → exec (.hinit heapBase heapSize) s = .next { s with st := 0x0008#16 }) ∧
    (s.hinited = false →
      (sval heapSize < 2 ∨ 65536 < uval heapBase + sval heapSize ∨
        (s.cfg.hasRaster = true ∧ uval heapBase < (s.cfg.screenBase.val : Int) + 8192 ∧
          (s.cfg.screenBase.val : Int) < uval heapBase + sval heapSize)) →
      exec (.hinit heapBase heapSize) s = .next { s with st := 0x0009#16 }) ∧
    (s.hinited = false → 2 ≤ sval heapSize → uval heapBase + sval heapSize ≤ 65536 →
      (s.cfg.hasRaster = true →
        (s.cfg.screenBase.val : Int) + 8192 ≤ uval heapBase ∨
          uval heapBase + sval heapSize ≤ (s.cfg.screenBase.val : Int)) →
      ∃ t, exec (.hinit heapBase heapSize) s = .next t ∧
        t = { s with
          hbase := heapBase, hsize := heapSize, head := heapBase, hinited := true, st := 0x0000#16, mem := t.mem } ∧
        t.memRead (uval heapBase) = 0xFFFF#16 ∧
        t.memRead (uval heapBase + 1) = wrap (sval heapSize - 2) ∧
        ∀ a, inMemory a → a ≠ uval heapBase → a ≠ uval heapBase + 1 → t.memRead a = s.memRead a)

/-- R135 to R137: ALLOC takes the first node from `HEAD` whose length is at least `size + 2`, carves the block from its tail,
leaves `HEAD` and every `next` word, and returns the address past the fresh header. -/
def Obligations.AllocTakesTheFirstFit : Prop :=
  ∀ (size n : Word) (ns : List Word) (s : State), s.hinited = true → 0 < sval size →
    s.walksTo s.head ns n → ns.length < s.maxNodes → (∀ x ∈ ns, s.tooSmall (sval size + 2) x) →
    s.passable n → validLen s n (s.memRead (uval n + 1)) → sval size + 2 ≤ sval (s.memRead (uval n + 1)) →
    ∃ L h : Int, L = sval (s.memRead (uval n + 1)) ∧ h = uval n + L - sval size ∧
      exec (.alloc size) s = .next
        { (((s.memWrite (uval n + 1) (wrap (L - (sval size + 2)))).memWrite h 0xFFFF#16).memWrite (h + 1) size).setLive
            (h + 2) with
          r0 := wrap (h + 2), st := 0x0000#16 }

/-- R137: what ALLOC leaves alone in a heap that keeps the machine's invariant: every register but `R0`, `ST`, every word but
the length of the node the walk chose and the fresh header at `carveAddr`, every other bit of `LIVE`. -/
def Obligations.AllocFrame : Prop :=
  ∀ (size : Word) (s t : State), s.Inv → exec (.alloc size) s = .next t → t.st = 0x0000#16 →
    t = { s with r0 := t.r0, st := 0x0000#16, mem := t.mem, live := t.live } ∧
    ∃ (n L : Word) (h : Int), allocWalk s (sval size + 2) s.maxNodes s.head = .ok (n, L) ∧
      L = s.memRead (uval n + 1) ∧ h = carveAddr n L (sval size) ∧
      s.inHeap (uval n) ∧ uval n + 2 ≤ h ∧ uval t.r0 = h + 2 ∧ h + 2 + sval size ≤ s.hend ∧
      t.memRead h = 0xFFFF#16 ∧ t.memRead (h + 1) = size ∧
      sval (t.memRead (uval n + 1)) = sval L - (sval size + 2) ∧
      (∀ a, inMemory a → a ≠ uval n + 1 → a ≠ h → a ≠ h + 1 → t.memRead a = s.memRead a) ∧
      (∀ a, inMemory a → t.isLive a = (decide (a = h + 2) || s.isLive a))

/-- R137: ALLOC before HINIT, and ALLOC of a size that is not positive, in that order. -/
def Obligations.AllocRefusesBadRequests : Prop :=
  ∀ (size : Word) (s : State),
    (s.hinited = false → exec (.alloc size) s = .next { s with st := 0x0007#16 }) ∧
    (s.hinited = true → sval size ≤ 0 → exec (.alloc size) s = .next { s with st := 0x0001#16 })

/-- R137: when no node of the list fits, ALLOC raises `OutOfMemory`. -/
def Obligations.AllocReportsOutOfMemory : Prop :=
  ∀ (size : Word) (ns : List Word) (s : State), s.hinited = true → 0 < sval size →
    s.walksTo s.head ns nilWord → ns.length ≤ s.maxNodes → (∀ x ∈ ns, s.tooSmall (sval size + 2) x) →
    exec (.alloc size) s = .next { s with st := 0x0002#16 }

/-- R132 to R134: a node that fails its check, or a list longer than `MAXNODES` (a cycle among them), ends ALLOC in
`HeapCorrupt`. -/
def Obligations.AllocReportsACorruptList : Prop :=
  ∀ (size n : Word) (ns : List Word) (s : State), s.hinited = true → 0 < sval size →
    s.walksTo s.head ns n → ns.length ≤ s.maxNodes → (∀ x ∈ ns, s.tooSmall (sval size + 2) x) → n ≠ nilWord →
    (ns.length = s.maxNodes ∨ ¬ validNode s n ∨ ¬ validLen s n (s.memRead (uval n + 1))) →
    exec (.alloc size) s = .next { s with st := 0x000A#16 }

/-- R139 (b): right after HINIT the largest request that succeeds is `heapSize - 4`, and the block lies at the heap's end. -/
def Obligations.FreshHeapCapacity : Prop :=
  ∀ (heapBase heapSize size : Word) (s t : State), exec (.hinit heapBase heapSize) s = .next t → t.st = 0x0000#16 →
    0 < sval size →
    (sval size ≤ sval heapSize - 4 →
      ∃ t', exec (.alloc size) t = .next t' ∧ t'.st = 0x0000#16 ∧
        uval t'.r0 = uval heapBase + sval heapSize - sval size) ∧
    (sval heapSize - 4 < sval size → exec (.alloc size) t = .next { t with st := 0x0002#16 })

/-- R138: ALLOC carves the block from the node its walk chose, and its three writes, the node's length and the two words of the
fresh header, leave the same memory in whatever order `ws` they are made. -/
def Obligations.AllocWritesInAnyOrder : Prop :=
  ∀ (s : State) (n L size : Word), uval n + 2 + sval L ≤ 65536 → 0 < sval size → sval size + 2 ≤ sval L →
    (s.hinited = true → allocWalk s (sval size + 2) s.maxNodes s.head = .ok (n, L) →
      exec (.alloc size) s = .next { s.carve n L (sval size) with
        r0 := wrap (carveAddr n L (sval size) + 2), st := 0x0000#16 }) ∧
    ∀ ws : List (Int × Word),
      ws.Perm [(uval n + 1, wrap (sval L - (sval size + 2))), (carveAddr n L (sval size), 0xFFFF#16),
        (carveAddr n L (sval size) + 1, size)] →
      (ws.foldl (fun u w => u.memWrite w.1 w.2) s).mem = (s.carve n L (sval size)).mem

/-- R141, R143: FREE of a live block that no free block follows, or without `COALESCE`, links it at the head of the list as it
is, clears its `LIVE` bit, and changes nothing else. -/
def Obligations.FreeLinksAtTheHead : Prop :=
  ∀ (address : Word) (s : State), s.hinited = true → s.isLive (uval address) = true →
    0 < sval (s.memRead (uval address - 1)) → uval address + sval (s.memRead (uval address - 1)) ≤ s.hend →
    (s.cfg.coalesce = false ∨ uval address + sval (s.memRead (uval address - 1)) = s.hend ∨
      ∃ ns, s.walksTo s.head ns nilWord ∧ ns.length ≤ s.maxNodes ∧
        ∀ x ∈ ns, s.passable x ∧ uval x ≠ uval address + sval (s.memRead (uval address - 1))) →
    exec (.free address) s = .next
      { ((s.memWrite (uval address - 2) s.head).memWrite (uval address - 1)
            (s.memRead (uval address - 1))).clearLive (uval address) with
        head := wrap (uval address - 2), st := 0x0000#16 }

/-- R141, R142: with `COALESCE`, FREE unlinks the free node that starts right after the block, absorbs it with its header, and
links the merged block at the head of the list. -/
def Obligations.FreeMergesTheFollowingBlock : Prop :=
  ∀ (address n : Word) (ns : List Word) (s : State) (S Lf nf : Word), s.hinited = true →
    s.isLive (uval address) = true → S = s.memRead (uval address - 1) → 0 < sval S →
    s.cfg.coalesce = true → uval n = uval address + sval S → uval n < s.hend →
    s.walksTo s.head ns n → ns.length < s.maxNodes → (∀ x ∈ ns, s.passable x ∧ x ≠ n) → s.passable n →
    Lf = s.memRead (uval n + 1) → validLen s n Lf → nf = s.memRead (uval n) →
    exec (.free address) s = .next
      (match ns.getLast? with
       | none =>
         { ((s.memWrite (uval address - 2) nf).memWrite (uval address - 1)
               (wrap (sval S + 2 + sval Lf))).clearLive (uval address) with
           head := wrap (uval address - 2), st := 0x0000#16 }
       | some prev =>
         { (((s.memWrite (uval prev) nf).memWrite (uval address - 2) s.head).memWrite (uval address - 1)
               (wrap (sval S + 2 + sval Lf))).clearLive (uval address) with
           head := wrap (uval address - 2), st := 0x0000#16 })

/-- R141: FREE before HINIT; FREE of an address that is not live; FREE of a block whose size word is not a positive length that
ends inside the heap: in that order. -/
def Obligations.FreeErrorsBeforeTheWalk : Prop :=
  ∀ (address : Word) (s : State),
    (s.hinited = false → exec (.free address) s = .next { s with st := 0x0007#16 }) ∧
    (s.hinited = true → s.isLive (uval address) = false →
      exec (.free address) s = .next { s with st := 0x0005#16 }) ∧
    (s.hinited = true → s.isLive (uval address) = true →
      (sval (s.memRead (uval address - 1)) ≤ 0 ∨ s.hend < uval address + sval (s.memRead (uval address - 1))) →
      exec (.free address) s = .next { s with st := 0x000A#16 })

/-- R132 to R134, R141: with `COALESCE`, a search that meets a bad node or too long a list, or a following free node with a bad
length, ends FREE in `HeapCorrupt`. -/
def Obligations.FreeReportsACorruptList : Prop :=
  ∀ (address n : Word) (ns : List Word) (s : State) (f : Int), s.hinited = true →
    s.isLive (uval address) = true → 0 < sval (s.memRead (uval address - 1)) →
    f = uval address + sval (s.memRead (uval address - 1)) → f < s.hend → s.cfg.coalesce = true →
    s.walksTo s.head ns n → ns.length ≤ s.maxNodes → (∀ x ∈ ns, s.passable x ∧ uval x ≠ f) → n ≠ nilWord →
    (ns.length = s.maxNodes ∨ ¬ validNode s n ∨ (uval n = f ∧ ¬ validLen s n (s.memRead (f + 1)))) →
    exec (.free address) s = .next { s with st := 0x000A#16 }

/-- R141: what FREE leaves alone, in a machine that keeps its invariant: every register but `HEAD` and `ST`, every word but the
block's header and, when `freeNeighbour` finds a following free node that is not the first of the list, the `next` word of
the node before it, which then holds that node's `next`; every other bit of `LIVE`. -/
def Obligations.FreeFrame : Prop :=
  ∀ (address : Word) (s t : State), s.Inv → exec (.free address) s = .next t → t.st = 0x0000#16 →
    t = { s with head := wrap (uval address - 2), st := 0x0000#16, mem := t.mem, live := t.live } ∧
    s.inHeap (uval address - 2) ∧ s.inHeap (uval address - 1) ∧
    (∀ a, inMemory a → t.isLive a = (decide (a ≠ uval address) && s.isLive a)) ∧
    ∃ found : Option Neighbour,
      freeNeighbour s (uval address + sval (s.memRead (uval address - 1))) = .ok found ∧
      (∀ nb p, found = some nb → nb.prev = some p → s.cfg.coalesce = true ∧ s.inHeap (uval p) ∧
        (uval p ≠ uval address - 2 → uval p ≠ uval address - 1 → t.memRead (uval p) = nb.next)) ∧
      ∀ a, inMemory a → a ≠ uval address - 2 → a ≠ uval address - 1 →
        (∀ nb p, found = some nb → nb.prev = some p → a ≠ uval p) → t.memRead a = s.memRead a

/-- R143, R135 (the reuse property of 90_conflicts.md C1): after a successful FREE, a request that fits the freed block is
allocated inside it. -/
def Obligations.FreedBlockIsReusedFirst : Prop :=
  ∀ (address size : Word) (s t : State), s.Inv → exec (.free address) s = .next t → t.st = 0x0000#16 →
    0 < sval size → sval size + 2 ≤ sval (t.memRead (uval address - 1)) →
    ∃ t', exec (.alloc size) t = .next t' ∧ t'.st = 0x0000#16 ∧ uval address + 2 ≤ uval t'.r0 ∧
      uval t'.r0 + sval size = uval address + sval (t.memRead (uval address - 1))

/-- The heap commands' reads (R68): an ALLOC or a FREE on two machines that agree but for memory outside the heap ends the same
way, and leaves the same heap. (A HINIT on these initialised machines is turned away with `AlreadyInitialised`; what it does
before initialisation is `HinitLaysOneFreeNode`.) -/
def Obligations.HeapCommandsIgnoreOtherMemory : Prop :=
  ∀ (i : Instr) (s s' t t' : State), i.unit = .heap → s.Inv → s.hinited = true →
    s' = { s with mem := s'.mem } → (∀ a, s.inHeap a → s.memRead a = s'.memRead a) →
    exec i s = .next t → exec i s' = .next t' →
    t' = { t with mem := t'.mem } ∧ ∀ a, s.inHeap a → t.memRead a = t'.memRead a

/-- R146: HINIT establishes the tiling. -/
def Obligations.HinitMakesTheHeapWellFormed : Prop :=
  ∀ (heapBase heapSize : Word) (s t : State), s.Inv → s.hinited = false →
    exec (.hinit heapBase heapSize) s = .next t → t.st = 0x0000#16 →
    t.HeapLaidOut [{ header := uval heapBase, length := sval heapSize - 2, isFree := true }] [uval heapBase]

/-- R146: ALLOC keeps the heap well formed, whatever `ST` is. -/
def Obligations.AllocKeepsTheHeapWellFormed : Prop :=
  ∀ (size : Word) (s t : State), s.Inv → s.heapWellFormed → exec (.alloc size) s = .next t → t.heapWellFormed

/-- R146: FREE keeps the heap well formed, whatever `ST` is and whatever `COALESCE` is. -/
def Obligations.FreeKeepsTheHeapWellFormed : Prop :=
  ∀ (address : Word) (s t : State), s.Inv → s.heapWellFormed → exec (.free address) s = .next t → t.heapWellFormed

/-- R238: a host write that hits no header word of any block keeps the heap well formed. -/
def Obligations.PayloadWritesKeepTheHeapWellFormed : Prop :=
  ∀ (s t : State) (a v : Word) (rest : List HostAction) (blocks : List Block) (nodes : List Int), s.Inv →
    s.HeapLaidOut blocks nodes → (∀ k ∈ blocks, uval a ≠ k.header ∧ uval a ≠ k.header + 1) →
    s.host = .poke a v :: rest → step s = .next t → t.HeapLaidOut blocks nodes

/-- R145: in a well-formed heap no command raises `HeapCorrupt`. -/
def Obligations.WellFormedHeapIsNeverCorrupt : Prop :=
  ∀ (i : Instr) (s t : State), s.Inv → s.heapWellFormed → exec i s = .next t → t.st ≠ Status.heapCorrupt.code

/-! ## RASTER (42_rasterizer.md) -/

/-- R161: SETCOLOR selects the foreground for every word but `0x0000`, and no other command changes the colour. -/
def Obligations.SetcolorSelectsTheColour : Prop :=
  ∀ (color : Word) (s : State),
    exec (.setcolor color) s = .next { s with color := decide (color ≠ 0x0000#16), st := 0x0000#16 } ∧
    ∀ (i : Instr) (t : State), exec i s = .next t → t.color ≠ s.color → ∃ c, i = .setcolor c

/-- R162: CLEAR writes the background of the current colour to every word of the frame buffer and to no other word. -/
def Obligations.ClearWritesTheBackground : Prop :=
  ∀ s : State, ∃ t, exec .clear s = .next t ∧ t = { s with mem := t.mem, st := 0x0000#16 } ∧
    ∀ a, inMemory a →
      t.memRead a = if s.inFrame a then (if s.color then 0x0000#16 else 0xFFFF#16) else s.memRead a

/-- R164, R165: PIXEL sets or clears its pixel, as the colour says, and changes no other pixel and no word outside the frame
buffer; off screen it raises `InvalidCoordinate`. -/
def Obligations.PixelPaintsOnePixel : Prop :=
  ∀ (x y : Word) (s : State),
    (¬ onScreen (sval x) (sval y) → exec (.pixel x y) s = .next { s with st := 0x000B#16 }) ∧
    (onScreen (sval x) (sval y) →
      ∃ t, exec (.pixel x y) s = .next t ∧ t = { s with mem := t.mem, st := 0x0000#16 } ∧
        (∀ a, inMemory a →
          a ≠ (s.cfg.screenBase.val : Int) + 32 * sval y + sval x / 16 → t.memRead a = s.memRead a) ∧
        (∀ k : Nat, k < 16 →
          (t.memRead ((s.cfg.screenBase.val : Int) + 32 * sval y + sval x / 16)).getLsbD k =
            if (k : Int) = sval x % 16 then s.color
            else (s.memRead ((s.cfg.screenBase.val : Int) + 32 * sval y + sval x / 16)).getLsbD k))

/-- R166: LINE between points of the screen paints the pixels of its walk and no other, and no word outside the frame buffer
changes; with an end point off screen it raises `InvalidCoordinate` and draws nothing. -/
def Obligations.LinePaintsItsWalk : Prop :=
  ∀ (x1 y1 x2 y2 : Word) (s : State),
    (¬ onScreen (sval x1) (sval y1) ∨ ¬ onScreen (sval x2) (sval y2) →
      exec (.line x1 y1 x2 y2) s = .next { s with st := 0x000B#16 }) ∧
    (onScreen (sval x1) (sval y1) → onScreen (sval x2) (sval y2) →
      ∃ t, exec (.line x1 y1 x2 y2) s = .next t ∧ t = { s with mem := t.mem, st := 0x0000#16 } ∧
        (∀ a, inMemory a → ¬ s.inFrame a → t.memRead a = s.memRead a) ∧
        ∀ px py, onScreen px py →
          t.pixelOn px py =
            if (px, py) ∈ linePoints (sval x1) (sval y1) (sval x2) (sval y2) then s.color else s.pixelOn px py)

/-- R166, R168: a line with equal `x` or equal `y` is exactly the straight run between its end points. -/
def Obligations.StraightLinesAreRuns : Prop :=
  ∀ x1 y1 x2 y2 px py : Int, x1 = x2 ∨ y1 = y2 →
    ((px, py) ∈ linePoints x1 y1 x2 y2 ↔
      min x1 x2 ≤ px ∧ px ≤ max x1 x2 ∧ min y1 y2 ≤ py ∧ py ≤ max y1 y2)

/-- R166, R167: the general walk starts and ends at the end points, draws `adx + ady + 1` points, and steps one offset at a
time, chosen by the sign of `diff = a*ady - b*adx`; a tie steps `y`; `diff` is never larger than the larger side, which is at
most 511 on the screen. -/
def Obligations.SlantedLinesAreStaircases : Prop :=
  ∀ x1 y1 x2 y2 : Int, x1 ≠ x2 → y1 ≠ y2 →
    (linePoints x1 y1 x2 y2).length = (x2 - x1).natAbs + (y2 - y1).natAbs + 1 ∧
    (linePoints x1 y1 x2 y2).head? = some (x1, y1) ∧
    (linePoints x1 y1 x2 y2).getLast? = some (x2, y2) ∧
    (onScreen x1 y1 → onScreen x2 y2 → |x2 - x1| ≤ 511 ∧ |y2 - y1| ≤ 511) ∧
    ∀ k, k < (x2 - x1).natAbs + (y2 - y1).natAbs →
      ∃ a b sx sy : Int, 0 ≤ a ∧ a ≤ |x2 - x1| ∧ 0 ≤ b ∧ b ≤ |y2 - y1| ∧ a + b = k ∧
        -(max (x2 - x1).natAbs (y2 - y1).natAbs : Nat) ≤ a * |y2 - y1| - b * |x2 - x1| ∧
        a * |y2 - y1| - b * |x2 - x1| ≤ (max (x2 - x1).natAbs (y2 - y1).natAbs : Nat) ∧
        sx = (if x1 < x2 then 1 else -1) ∧ sy = (if y1 < y2 then 1 else -1) ∧
        (linePoints x1 y1 x2 y2)[k]? = some (x1 + sx * a, y1 + sy * b) ∧
        (linePoints x1 y1 x2 y2)[k + 1]? =
          some (if a * |y2 - y1| - b * |x2 - x1| < 0 then (x1 + sx * (a + 1), y1 + sy * b)
                else (x1 + sx * a, y1 + sy * (b + 1)))

/-- R169: RECT paints every pixel of the inclusive rectangle, whatever the order of its corners, and nothing else; with a corner
off screen it raises `InvalidCoordinate` and draws nothing. -/
def Obligations.RectFillsTheRectangle : Prop :=
  ∀ (x1 y1 x2 y2 : Word) (s : State),
    (¬ onScreen (sval x1) (sval y1) ∨ ¬ onScreen (sval x2) (sval y2) →
      exec (.rect x1 y1 x2 y2) s = .next { s with st := 0x000B#16 }) ∧
    (onScreen (sval x1) (sval y1) → onScreen (sval x2) (sval y2) →
      ∃ t, exec (.rect x1 y1 x2 y2) s = .next t ∧ t = { s with mem := t.mem, st := 0x0000#16 } ∧
        (∀ a, inMemory a → ¬ s.inFrame a → t.memRead a = s.memRead a) ∧
        ∀ px py, onScreen px py →
          t.pixelOn px py =
            if min (sval x1) (sval x2) ≤ px ∧ px ≤ max (sval x1) (sval x2) ∧
                min (sval y1) (sval y2) ≤ py ∧ py ≤ max (sval y1) (sval y2) then s.color
            else s.pixelOn px py)

/-- R170 with R108: CIRCLE paints exactly the disc: the pixels whose squared distance from the centre is at most the square of
the radius. -/
def Obligations.CircleFillsTheDisc : Prop :=
  ∀ (x y r : Word) (s : State), 0 ≤ sval r → onScreen (sval x - sval r) (sval y - sval r) →
    onScreen (sval x + sval r) (sval y + sval r) →
    ∃ t, exec (.circle x y r) s = .next t ∧ t = { s with mem := t.mem, st := 0x0000#16 } ∧
      (∀ a, inMemory a → ¬ s.inFrame a → t.memRead a = s.memRead a) ∧
      ∀ px py, onScreen px py →
        t.pixelOn px py =
          if (px - sval x) * (px - sval x) + (py - sval y) * (py - sval y) ≤ sval r * sval r then s.color
          else s.pixelOn px py

/-- R170: CIRCLE with a negative radius, or with a bounding square that is not wholly on screen, raises `InvalidCoordinate` and
draws nothing. -/
def Obligations.CircleErrors : Prop :=
  ∀ (x y r : Word) (s : State),
    (sval r < 0 ∨ ¬ onScreen (sval x - sval r) (sval y - sval r) ∨
      ¬ onScreen (sval x + sval r) (sval y + sval r)) →
    exec (.circle x y r) s = .next { s with st := 0x000B#16 }

/-- The RASTER commands' reads (R160, R68): on two machines that agree but for memory outside the frame buffer, a RASTER command
ends the same way and leaves the same frame buffer. -/
def Obligations.RasterCommandsIgnoreOtherMemory : Prop :=
  ∀ (i : Instr) (s s' t t' : State), i.unit = .raster → s' = { s with mem := s'.mem } →
    (∀ a, s.inFrame a → s.memRead a = s'.memRead a) → exec i s = .next t → exec i s' = .next t' →
    t' = { t with mem := t'.mem } ∧ ∀ a, s.inFrame a → t.memRead a = t'.memRead a

/-! ## The machine -/

/-- R68: no command writes outside its region: ARITH nowhere, HEAP inside the heap, RASTER inside the frame buffer. -/
def Obligations.CommandsWriteOnlyTheirRegion : Prop :=
  ∀ (i : Instr) (s t : State) (a : Int), s.Inv → exec i s = .next t → inMemory a →
    (match i.unit with
     | .arith => True
     | .heap => ¬ t.inHeap a
     | .raster => ¬ s.inFrame a) →
    t.memRead a = s.memRead a

/-- The machine's invariant holds at power-on. -/
def Obligations.PowerOnMeetsTheInvariant : Prop := State.reset.Inv

/-- Every step keeps the machine's invariant, whatever the host does and whatever memory holds. -/
def Obligations.EveryStepKeepsTheInvariant : Prop :=
  ∀ s t : State, s.Inv → step s = .next t → t.Inv
end

