-- ==== Sys2Proof/Laws/Operands.lean ====
section
/-! SUPPORT. The readings of a word and `wrap`: their ranges and how they undo each other (00_scope.md R7). -/

namespace Sys2Proof.Machine

theorem uval_nonneg (w : Word) : 0 ≤ uval w := Int.natCast_nonneg _

theorem uval_lt (w : Word) : uval w < 65536 := by
  have := w.isLt; unfold uval; omega

theorem sval_eq (w : Word) : sval w = if uval w < 32768 then uval w else uval w - 65536 := by
  have := w.isLt
  unfold sval uval
  rw [BitVec.toInt_eq_toNat_cond]
  split <;> split <;> omega

theorem sval_range (w : Word) : -32768 ≤ sval w ∧ sval w ≤ 32767 := by
  have := uval_lt w; have := uval_nonneg w; rw [sval_eq]; split <;> omega

theorem uval_wrap (i : Int) : uval (wrap i) = i % 65536 := by
  unfold uval wrap
  rw [BitVec.toNat_ofInt]
  have : (0 : Int) ≤ i % 65536 := Int.emod_nonneg _ (by decide)
  norm_num
  omega

theorem uval_wrap_of_range {i : Int} (h0 : 0 ≤ i) (h1 : i < 65536) : uval (wrap i) = i := by
  rw [uval_wrap]; exact Int.emod_eq_of_lt h0 h1

theorem sval_wrap_of_range {i : Int} (h0 : -32768 ≤ i) (h1 : i ≤ 32767) : sval (wrap i) = i := by
  rw [sval_eq, uval_wrap]; split <;> omega

theorem uval_inj {a b : Word} (h : uval a = uval b) : a = b := by
  apply BitVec.eq_of_toNat_eq; unfold uval at h; omega

theorem eq_iff_uval {a b : Word} : a = b ↔ uval a = uval b := ⟨fun h => by rw [h], uval_inj⟩

@[simp] theorem wrap_uval (w : Word) : wrap (uval w) = w := by
  apply uval_inj; rw [uval_wrap]; exact Int.emod_eq_of_lt (uval_nonneg w) (uval_lt w)

@[simp] theorem wrap_sval (w : Word) : wrap (sval w) = w := by
  apply uval_inj
  have := uval_lt w; have := uval_nonneg w
  rw [uval_wrap, sval_eq]; split <;> omega

theorem wrap_eq_wrap_iff {i j : Int} : wrap i = wrap j ↔ i % 65536 = j % 65536 := by
  rw [eq_iff_uval, uval_wrap, uval_wrap]

theorem wrap_inj {i j : Int} (hi : inMemory i) (hj : inMemory j) : wrap i = wrap j ↔ i = j := by
  have := hi.1; have := hi.2; have := hj.1; have := hj.2
  rw [wrap_eq_wrap_iff]; omega

theorem toNat_wrap (i : Int) : ((wrap i).toNat : Int) = i % 65536 := uval_wrap i

theorem toNat_wrap_of_range {i : Int} (h : inMemory i) : ((wrap i).toNat : Int) = i := by
  rw [toNat_wrap]; exact Int.emod_eq_of_lt h.1 h.2

theorem uval_add (a b : Word) : uval (a + b) = (uval a + uval b) % 65536 := by
  unfold uval; rw [BitVec.toNat_add]; norm_cast

theorem uval_sub (a b : Word) : uval (a - b) = (uval a - uval b) % 65536 := by
  have := b.isLt; have := a.isLt
  unfold uval; rw [BitVec.toNat_sub]; omega

theorem uval_nilWord : uval nilWord = 65535 := by decide

theorem ne_nilWord_of_validNode {s : State} {n : Word} (he : s.hend ≤ 65536) (h : validNode s n) : n ≠ nilWord := by
  have := h.2
  rintro rfl
  rw [uval_nilWord] at this; omega

/-- Testing a bit through the mask table is testing it (10_state.md R30). -/
theorem testBit_eq (w : Word) {j : Nat} (hj : j < 16) : testBit w j = w.getLsbD j := by
  have h : w &&& pow2 j = if w.getLsbD j then BitVec.twoPow 16 j else 0#16 := by
    have : pow2 j = BitVec.twoPow 16 j := by
      apply BitVec.eq_of_toNat_eq
      unfold pow2; rw [BitVec.toNat_ofNat, BitVec.toNat_twoPow]
    rw [this, BitVec.and_twoPow]
  unfold testBit
  rw [h]
  cases hb : w.getLsbD j
  · simp
  · have : BitVec.twoPow 16 j ≠ 0#16 := by
      intro hz
      have := congrArg BitVec.toNat hz
      rw [BitVec.toNat_twoPow, Nat.mod_eq_of_lt (Nat.pow_lt_pow_right (by decide) hj)] at this
      exact absurd this (Nat.two_pow_pos j).ne'
    simpa using this

/-- Painting a bit sets it to the colour and leaves the others (42_rasterizer.md R164, R165). -/
theorem testBit_paintBit (color : Bool) (w : Word) {k j : Nat} (hj : j < 16) :
    testBit (paintBit color k w) j = if j = k then color else testBit w j := by
  have hp : (pow2 k).getLsbD j = decide (j = k) := by
    have : pow2 k = BitVec.twoPow 16 k := by
      apply BitVec.eq_of_toNat_eq
      unfold pow2; rw [BitVec.toNat_ofNat, BitVec.toNat_twoPow]
    rw [this, BitVec.getLsbD_twoPow]
    by_cases h : k = j <;> simp [h, hj, eq_comm]
  rw [testBit_eq _ hj, testBit_eq _ hj]
  unfold paintBit
  cases color
  · rw [if_neg (by decide), BitVec.getLsbD_and, BitVec.getLsbD_not, hp]
    by_cases h : j = k <;> simp [h, hj]
  · rw [if_pos rfl, BitVec.getLsbD_or, hp]
    by_cases h : j = k <;> simp [h]

end Sys2Proof.Machine
end

