-- ==== Sys2Proof/Laws/State.lean ====
section
/-! SUPPORT. What each update of the state does to each field: one lemma per field per update, true by `rfl`. -/

namespace Sys2Proof.Machine

variable (s : State)

@[simp] theorem State.setStatus_cfg (c : Status) : (s.setStatus c).cfg = s.cfg := rfl
@[simp] theorem State.setStatus_op (c : Status) : (s.setStatus c).op = s.op := rfl
@[simp] theorem State.setStatus_a0 (c : Status) : (s.setStatus c).a0 = s.a0 := rfl
@[simp] theorem State.setStatus_a1 (c : Status) : (s.setStatus c).a1 = s.a1 := rfl
@[simp] theorem State.setStatus_a2 (c : Status) : (s.setStatus c).a2 = s.a2 := rfl
@[simp] theorem State.setStatus_a3 (c : Status) : (s.setStatus c).a3 = s.a3 := rfl
@[simp] theorem State.setStatus_r0 (c : Status) : (s.setStatus c).r0 = s.r0 := rfl
@[simp] theorem State.setStatus_st (c : Status) : (s.setStatus c).st = c.code := rfl
@[simp] theorem State.setStatus_hinited (c : Status) : (s.setStatus c).hinited = s.hinited := rfl
@[simp] theorem State.setStatus_hbase (c : Status) : (s.setStatus c).hbase = s.hbase := rfl
@[simp] theorem State.setStatus_hsize (c : Status) : (s.setStatus c).hsize = s.hsize := rfl
@[simp] theorem State.setStatus_head (c : Status) : (s.setStatus c).head = s.head := rfl
@[simp] theorem State.setStatus_color (c : Status) : (s.setStatus c).color = s.color := rfl
@[simp] theorem State.setStatus_live (c : Status) : (s.setStatus c).live = s.live := rfl
@[simp] theorem State.setStatus_mem (c : Status) : (s.setStatus c).mem = s.mem := rfl
@[simp] theorem State.setStatus_host (c : Status) : (s.setStatus c).host = s.host := rfl
@[simp] theorem State.setStatus_seen (c : Status) : (s.setStatus c).seen = s.seen := rfl

@[simp] theorem State.memWrite_cfg (addr : Int) (v : Word) : (s.memWrite addr v).cfg = s.cfg := rfl
@[simp] theorem State.memWrite_op (addr : Int) (v : Word) : (s.memWrite addr v).op = s.op := rfl
@[simp] theorem State.memWrite_a0 (addr : Int) (v : Word) : (s.memWrite addr v).a0 = s.a0 := rfl
@[simp] theorem State.memWrite_a1 (addr : Int) (v : Word) : (s.memWrite addr v).a1 = s.a1 := rfl
@[simp] theorem State.memWrite_a2 (addr : Int) (v : Word) : (s.memWrite addr v).a2 = s.a2 := rfl
@[simp] theorem State.memWrite_a3 (addr : Int) (v : Word) : (s.memWrite addr v).a3 = s.a3 := rfl
@[simp] theorem State.memWrite_r0 (addr : Int) (v : Word) : (s.memWrite addr v).r0 = s.r0 := rfl
@[simp] theorem State.memWrite_st (addr : Int) (v : Word) : (s.memWrite addr v).st = s.st := rfl
@[simp] theorem State.memWrite_hinited (addr : Int) (v : Word) : (s.memWrite addr v).hinited = s.hinited := rfl
@[simp] theorem State.memWrite_hbase (addr : Int) (v : Word) : (s.memWrite addr v).hbase = s.hbase := rfl
@[simp] theorem State.memWrite_hsize (addr : Int) (v : Word) : (s.memWrite addr v).hsize = s.hsize := rfl
@[simp] theorem State.memWrite_head (addr : Int) (v : Word) : (s.memWrite addr v).head = s.head := rfl
@[simp] theorem State.memWrite_color (addr : Int) (v : Word) : (s.memWrite addr v).color = s.color := rfl
@[simp] theorem State.memWrite_live (addr : Int) (v : Word) : (s.memWrite addr v).live = s.live := rfl
@[simp] theorem State.memWrite_mem (addr : Int) (v : Word) : (s.memWrite addr v).mem = Memory.write s.mem (wrap addr).toNat v := rfl
@[simp] theorem State.memWrite_host (addr : Int) (v : Word) : (s.memWrite addr v).host = s.host := rfl
@[simp] theorem State.memWrite_seen (addr : Int) (v : Word) : (s.memWrite addr v).seen = s.seen := rfl

@[simp] theorem State.setLive_cfg (addr : Int) : (s.setLive addr).cfg = s.cfg := rfl
@[simp] theorem State.setLive_op (addr : Int) : (s.setLive addr).op = s.op := rfl
@[simp] theorem State.setLive_a0 (addr : Int) : (s.setLive addr).a0 = s.a0 := rfl
@[simp] theorem State.setLive_a1 (addr : Int) : (s.setLive addr).a1 = s.a1 := rfl
@[simp] theorem State.setLive_a2 (addr : Int) : (s.setLive addr).a2 = s.a2 := rfl
@[simp] theorem State.setLive_a3 (addr : Int) : (s.setLive addr).a3 = s.a3 := rfl
@[simp] theorem State.setLive_r0 (addr : Int) : (s.setLive addr).r0 = s.r0 := rfl
@[simp] theorem State.setLive_st (addr : Int) : (s.setLive addr).st = s.st := rfl
@[simp] theorem State.setLive_hinited (addr : Int) : (s.setLive addr).hinited = s.hinited := rfl
@[simp] theorem State.setLive_hbase (addr : Int) : (s.setLive addr).hbase = s.hbase := rfl
@[simp] theorem State.setLive_hsize (addr : Int) : (s.setLive addr).hsize = s.hsize := rfl
@[simp] theorem State.setLive_head (addr : Int) : (s.setLive addr).head = s.head := rfl
@[simp] theorem State.setLive_color (addr : Int) : (s.setLive addr).color = s.color := rfl
@[simp] theorem State.setLive_live (addr : Int) : (s.setLive addr).live = LiveMap.insert s.live (wrap addr).toNat := rfl
@[simp] theorem State.setLive_mem (addr : Int) : (s.setLive addr).mem = s.mem := rfl
@[simp] theorem State.setLive_host (addr : Int) : (s.setLive addr).host = s.host := rfl
@[simp] theorem State.setLive_seen (addr : Int) : (s.setLive addr).seen = s.seen := rfl

@[simp] theorem State.clearLive_cfg (addr : Int) : (s.clearLive addr).cfg = s.cfg := rfl
@[simp] theorem State.clearLive_op (addr : Int) : (s.clearLive addr).op = s.op := rfl
@[simp] theorem State.clearLive_a0 (addr : Int) : (s.clearLive addr).a0 = s.a0 := rfl
@[simp] theorem State.clearLive_a1 (addr : Int) : (s.clearLive addr).a1 = s.a1 := rfl
@[simp] theorem State.clearLive_a2 (addr : Int) : (s.clearLive addr).a2 = s.a2 := rfl
@[simp] theorem State.clearLive_a3 (addr : Int) : (s.clearLive addr).a3 = s.a3 := rfl
@[simp] theorem State.clearLive_r0 (addr : Int) : (s.clearLive addr).r0 = s.r0 := rfl
@[simp] theorem State.clearLive_st (addr : Int) : (s.clearLive addr).st = s.st := rfl
@[simp] theorem State.clearLive_hinited (addr : Int) : (s.clearLive addr).hinited = s.hinited := rfl
@[simp] theorem State.clearLive_hbase (addr : Int) : (s.clearLive addr).hbase = s.hbase := rfl
@[simp] theorem State.clearLive_hsize (addr : Int) : (s.clearLive addr).hsize = s.hsize := rfl
@[simp] theorem State.clearLive_head (addr : Int) : (s.clearLive addr).head = s.head := rfl
@[simp] theorem State.clearLive_color (addr : Int) : (s.clearLive addr).color = s.color := rfl
@[simp] theorem State.clearLive_live (addr : Int) : (s.clearLive addr).live = LiveMap.remove s.live (wrap addr).toNat := rfl
@[simp] theorem State.clearLive_mem (addr : Int) : (s.clearLive addr).mem = s.mem := rfl
@[simp] theorem State.clearLive_host (addr : Int) : (s.clearLive addr).host = s.host := rfl
@[simp] theorem State.clearLive_seen (addr : Int) : (s.clearLive addr).seen = s.seen := rfl

@[simp] theorem State.hostDone_cfg (rest : List HostAction) : (s.hostDone rest).cfg = s.cfg := rfl
@[simp] theorem State.hostDone_op (rest : List HostAction) : (s.hostDone rest).op = s.op := rfl
@[simp] theorem State.hostDone_a0 (rest : List HostAction) : (s.hostDone rest).a0 = s.a0 := rfl
@[simp] theorem State.hostDone_a1 (rest : List HostAction) : (s.hostDone rest).a1 = s.a1 := rfl
@[simp] theorem State.hostDone_a2 (rest : List HostAction) : (s.hostDone rest).a2 = s.a2 := rfl
@[simp] theorem State.hostDone_a3 (rest : List HostAction) : (s.hostDone rest).a3 = s.a3 := rfl
@[simp] theorem State.hostDone_r0 (rest : List HostAction) : (s.hostDone rest).r0 = s.r0 := rfl
@[simp] theorem State.hostDone_st (rest : List HostAction) : (s.hostDone rest).st = s.st := rfl
@[simp] theorem State.hostDone_hinited (rest : List HostAction) : (s.hostDone rest).hinited = s.hinited := rfl
@[simp] theorem State.hostDone_hbase (rest : List HostAction) : (s.hostDone rest).hbase = s.hbase := rfl
@[simp] theorem State.hostDone_hsize (rest : List HostAction) : (s.hostDone rest).hsize = s.hsize := rfl
@[simp] theorem State.hostDone_head (rest : List HostAction) : (s.hostDone rest).head = s.head := rfl
@[simp] theorem State.hostDone_color (rest : List HostAction) : (s.hostDone rest).color = s.color := rfl
@[simp] theorem State.hostDone_live (rest : List HostAction) : (s.hostDone rest).live = s.live := rfl
@[simp] theorem State.hostDone_mem (rest : List HostAction) : (s.hostDone rest).mem = s.mem := rfl
@[simp] theorem State.hostDone_host (rest : List HostAction) : (s.hostDone rest).host = rest := rfl
@[simp] theorem State.hostDone_seen (rest : List HostAction) : (s.hostDone rest).seen = s.seen := rfl

@[simp] theorem State.present_cfg (c : Command) : (s.present c).cfg = s.cfg := rfl
@[simp] theorem State.present_op (c : Command) : (s.present c).op = c.op := rfl
@[simp] theorem State.present_a0 (c : Command) : (s.present c).a0 = c.a0 := rfl
@[simp] theorem State.present_a1 (c : Command) : (s.present c).a1 = c.a1 := rfl
@[simp] theorem State.present_a2 (c : Command) : (s.present c).a2 = c.a2 := rfl
@[simp] theorem State.present_a3 (c : Command) : (s.present c).a3 = c.a3 := rfl
@[simp] theorem State.present_r0 (c : Command) : (s.present c).r0 = s.r0 := rfl
@[simp] theorem State.present_st (c : Command) : (s.present c).st = s.st := rfl
@[simp] theorem State.present_hinited (c : Command) : (s.present c).hinited = s.hinited := rfl
@[simp] theorem State.present_hbase (c : Command) : (s.present c).hbase = s.hbase := rfl
@[simp] theorem State.present_hsize (c : Command) : (s.present c).hsize = s.hsize := rfl
@[simp] theorem State.present_head (c : Command) : (s.present c).head = s.head := rfl
@[simp] theorem State.present_color (c : Command) : (s.present c).color = s.color := rfl
@[simp] theorem State.present_live (c : Command) : (s.present c).live = s.live := rfl
@[simp] theorem State.present_mem (c : Command) : (s.present c).mem = s.mem := rfl
@[simp] theorem State.present_host (c : Command) : (s.present c).host = s.host := rfl
@[simp] theorem State.present_seen (c : Command) : (s.present c).seen = s.seen := rfl

@[simp] theorem State.hostSees_cfg (w : Word) : (s.hostSees w).cfg = s.cfg := rfl
@[simp] theorem State.hostSees_op (w : Word) : (s.hostSees w).op = s.op := rfl
@[simp] theorem State.hostSees_a0 (w : Word) : (s.hostSees w).a0 = s.a0 := rfl
@[simp] theorem State.hostSees_a1 (w : Word) : (s.hostSees w).a1 = s.a1 := rfl
@[simp] theorem State.hostSees_a2 (w : Word) : (s.hostSees w).a2 = s.a2 := rfl
@[simp] theorem State.hostSees_a3 (w : Word) : (s.hostSees w).a3 = s.a3 := rfl
@[simp] theorem State.hostSees_r0 (w : Word) : (s.hostSees w).r0 = s.r0 := rfl
@[simp] theorem State.hostSees_st (w : Word) : (s.hostSees w).st = s.st := rfl
@[simp] theorem State.hostSees_hinited (w : Word) : (s.hostSees w).hinited = s.hinited := rfl
@[simp] theorem State.hostSees_hbase (w : Word) : (s.hostSees w).hbase = s.hbase := rfl
@[simp] theorem State.hostSees_hsize (w : Word) : (s.hostSees w).hsize = s.hsize := rfl
@[simp] theorem State.hostSees_head (w : Word) : (s.hostSees w).head = s.head := rfl
@[simp] theorem State.hostSees_color (w : Word) : (s.hostSees w).color = s.color := rfl
@[simp] theorem State.hostSees_live (w : Word) : (s.hostSees w).live = s.live := rfl
@[simp] theorem State.hostSees_mem (w : Word) : (s.hostSees w).mem = s.mem := rfl
@[simp] theorem State.hostSees_host (w : Word) : (s.hostSees w).host = s.host := rfl
@[simp] theorem State.hostSees_seen (w : Word) : (s.hostSees w).seen = w :: s.seen := rfl

@[simp] theorem State.applyReset_cfg : (s.applyReset).cfg = s.cfg := rfl
@[simp] theorem State.applyReset_op : (s.applyReset).op = 0x0000#16 := rfl
@[simp] theorem State.applyReset_a0 : (s.applyReset).a0 = 0x0000#16 := rfl
@[simp] theorem State.applyReset_a1 : (s.applyReset).a1 = 0x0000#16 := rfl
@[simp] theorem State.applyReset_a2 : (s.applyReset).a2 = 0x0000#16 := rfl
@[simp] theorem State.applyReset_a3 : (s.applyReset).a3 = 0x0000#16 := rfl
@[simp] theorem State.applyReset_r0 : (s.applyReset).r0 = 0x0000#16 := rfl
@[simp] theorem State.applyReset_st : (s.applyReset).st = 0x0000#16 := rfl
@[simp] theorem State.applyReset_hinited : (s.applyReset).hinited = false := rfl
@[simp] theorem State.applyReset_hbase : (s.applyReset).hbase = 0x0000#16 := rfl
@[simp] theorem State.applyReset_hsize : (s.applyReset).hsize = 0x0000#16 := rfl
@[simp] theorem State.applyReset_head : (s.applyReset).head = nilWord := rfl
@[simp] theorem State.applyReset_color : (s.applyReset).color = true := rfl
@[simp] theorem State.applyReset_live : (s.applyReset).live = [] := rfl
@[simp] theorem State.applyReset_mem : (s.applyReset).mem = s.mem := rfl
@[simp] theorem State.applyReset_host : (s.applyReset).host = s.host := rfl
@[simp] theorem State.applyReset_seen : (s.applyReset).seen = s.seen := rfl

@[simp] theorem State.layHeap_cfg (b n : Word) : (s.layHeap b n).cfg = s.cfg := rfl
@[simp] theorem State.layHeap_op (b n : Word) : (s.layHeap b n).op = s.op := rfl
@[simp] theorem State.layHeap_a0 (b n : Word) : (s.layHeap b n).a0 = s.a0 := rfl
@[simp] theorem State.layHeap_a1 (b n : Word) : (s.layHeap b n).a1 = s.a1 := rfl
@[simp] theorem State.layHeap_a2 (b n : Word) : (s.layHeap b n).a2 = s.a2 := rfl
@[simp] theorem State.layHeap_a3 (b n : Word) : (s.layHeap b n).a3 = s.a3 := rfl
@[simp] theorem State.layHeap_r0 (b n : Word) : (s.layHeap b n).r0 = s.r0 := rfl
@[simp] theorem State.layHeap_st (b n : Word) : (s.layHeap b n).st = s.st := rfl
@[simp] theorem State.layHeap_hinited (b n : Word) : (s.layHeap b n).hinited = true := rfl
@[simp] theorem State.layHeap_hbase (b n : Word) : (s.layHeap b n).hbase = wrap (uval b) := rfl
@[simp] theorem State.layHeap_hsize (b n : Word) : (s.layHeap b n).hsize = wrap (sval n) := rfl
@[simp] theorem State.layHeap_head (b n : Word) : (s.layHeap b n).head = wrap (uval b) := rfl
@[simp] theorem State.layHeap_color (b n : Word) : (s.layHeap b n).color = s.color := rfl
@[simp] theorem State.layHeap_live (b n : Word) : (s.layHeap b n).live = s.live := rfl
@[simp] theorem State.layHeap_mem (b n : Word) : (s.layHeap b n).mem = ((s.memWrite (uval b) nilWord).memWrite (uval b + 1) (wrap (sval n - 2))).mem := rfl
@[simp] theorem State.layHeap_host (b n : Word) : (s.layHeap b n).host = s.host := rfl
@[simp] theorem State.layHeap_seen (b n : Word) : (s.layHeap b n).seen = s.seen := rfl

@[simp] theorem State.carve_cfg (n L : Word) (size : Int) : (s.carve n L size).cfg = s.cfg := rfl
@[simp] theorem State.carve_op (n L : Word) (size : Int) : (s.carve n L size).op = s.op := rfl
@[simp] theorem State.carve_a0 (n L : Word) (size : Int) : (s.carve n L size).a0 = s.a0 := rfl
@[simp] theorem State.carve_a1 (n L : Word) (size : Int) : (s.carve n L size).a1 = s.a1 := rfl
@[simp] theorem State.carve_a2 (n L : Word) (size : Int) : (s.carve n L size).a2 = s.a2 := rfl
@[simp] theorem State.carve_a3 (n L : Word) (size : Int) : (s.carve n L size).a3 = s.a3 := rfl
@[simp] theorem State.carve_r0 (n L : Word) (size : Int) : (s.carve n L size).r0 = s.r0 := rfl
@[simp] theorem State.carve_st (n L : Word) (size : Int) : (s.carve n L size).st = s.st := rfl
@[simp] theorem State.carve_hinited (n L : Word) (size : Int) : (s.carve n L size).hinited = s.hinited := rfl
@[simp] theorem State.carve_hbase (n L : Word) (size : Int) : (s.carve n L size).hbase = s.hbase := rfl
@[simp] theorem State.carve_hsize (n L : Word) (size : Int) : (s.carve n L size).hsize = s.hsize := rfl
@[simp] theorem State.carve_head (n L : Word) (size : Int) : (s.carve n L size).head = s.head := rfl
@[simp] theorem State.carve_color (n L : Word) (size : Int) : (s.carve n L size).color = s.color := rfl
@[simp] theorem State.carve_live (n L : Word) (size : Int) : (s.carve n L size).live = LiveMap.insert s.live (wrap (carveAddr n L size + 2)).toNat := rfl
@[simp] theorem State.carve_mem (n L : Word) (size : Int) : (s.carve n L size).mem = (((s.memWrite (uval n + 1) (wrap (sval L - (size + 2)))).memWrite (carveAddr n L size) nilWord).memWrite
      (carveAddr n L size + 1) (wrap size)).mem := rfl
@[simp] theorem State.carve_host (n L : Word) (size : Int) : (s.carve n L size).host = s.host := rfl
@[simp] theorem State.carve_seen (n L : Word) (size : Int) : (s.carve n L size).seen = s.seen := rfl

@[simp] theorem State.linkAtHead_cfg (h len : Int) : (s.linkAtHead h len).cfg = s.cfg := rfl
@[simp] theorem State.linkAtHead_op (h len : Int) : (s.linkAtHead h len).op = s.op := rfl
@[simp] theorem State.linkAtHead_a0 (h len : Int) : (s.linkAtHead h len).a0 = s.a0 := rfl
@[simp] theorem State.linkAtHead_a1 (h len : Int) : (s.linkAtHead h len).a1 = s.a1 := rfl
@[simp] theorem State.linkAtHead_a2 (h len : Int) : (s.linkAtHead h len).a2 = s.a2 := rfl
@[simp] theorem State.linkAtHead_a3 (h len : Int) : (s.linkAtHead h len).a3 = s.a3 := rfl
@[simp] theorem State.linkAtHead_r0 (h len : Int) : (s.linkAtHead h len).r0 = s.r0 := rfl
@[simp] theorem State.linkAtHead_st (h len : Int) : (s.linkAtHead h len).st = s.st := rfl
@[simp] theorem State.linkAtHead_hinited (h len : Int) : (s.linkAtHead h len).hinited = s.hinited := rfl
@[simp] theorem State.linkAtHead_hbase (h len : Int) : (s.linkAtHead h len).hbase = s.hbase := rfl
@[simp] theorem State.linkAtHead_hsize (h len : Int) : (s.linkAtHead h len).hsize = s.hsize := rfl
@[simp] theorem State.linkAtHead_head (h len : Int) : (s.linkAtHead h len).head = wrap h := rfl
@[simp] theorem State.linkAtHead_color (h len : Int) : (s.linkAtHead h len).color = s.color := rfl
@[simp] theorem State.linkAtHead_live (h len : Int) : (s.linkAtHead h len).live = LiveMap.remove s.live (wrap (h + 2)).toNat := rfl
@[simp] theorem State.linkAtHead_mem (h len : Int) : (s.linkAtHead h len).mem = ((s.memWrite h s.head).memWrite (h + 1) (wrap len)).mem := rfl
@[simp] theorem State.linkAtHead_host (h len : Int) : (s.linkAtHead h len).host = s.host := rfl
@[simp] theorem State.linkAtHead_seen (h len : Int) : (s.linkAtHead h len).seen = s.seen := rfl

@[simp] theorem State.plot_cfg (p : Point) : (s.plot p).cfg = s.cfg := rfl
@[simp] theorem State.plot_op (p : Point) : (s.plot p).op = s.op := rfl
@[simp] theorem State.plot_a0 (p : Point) : (s.plot p).a0 = s.a0 := rfl
@[simp] theorem State.plot_a1 (p : Point) : (s.plot p).a1 = s.a1 := rfl
@[simp] theorem State.plot_a2 (p : Point) : (s.plot p).a2 = s.a2 := rfl
@[simp] theorem State.plot_a3 (p : Point) : (s.plot p).a3 = s.a3 := rfl
@[simp] theorem State.plot_r0 (p : Point) : (s.plot p).r0 = s.r0 := rfl
@[simp] theorem State.plot_st (p : Point) : (s.plot p).st = s.st := rfl
@[simp] theorem State.plot_hinited (p : Point) : (s.plot p).hinited = s.hinited := rfl
@[simp] theorem State.plot_hbase (p : Point) : (s.plot p).hbase = s.hbase := rfl
@[simp] theorem State.plot_hsize (p : Point) : (s.plot p).hsize = s.hsize := rfl
@[simp] theorem State.plot_head (p : Point) : (s.plot p).head = s.head := rfl
@[simp] theorem State.plot_color (p : Point) : (s.plot p).color = s.color := rfl
@[simp] theorem State.plot_live (p : Point) : (s.plot p).live = s.live := rfl
@[simp] theorem State.plot_mem (p : Point) : (s.plot p).mem = (s.memWrite (pixelAddr s.cfg p.1 p.2)
      (paintBit s.color (pixelBit p.1) (s.memRead (pixelAddr s.cfg p.1 p.2)))).mem := rfl
@[simp] theorem State.plot_host (p : Point) : (s.plot p).host = s.host := rfl
@[simp] theorem State.plot_seen (p : Point) : (s.plot p).seen = s.seen := rfl

@[simp] theorem State.unlink_cfg (nb : Neighbour) : (s.unlink nb).cfg = s.cfg := by
  unfold State.unlink; split <;> rfl
@[simp] theorem State.unlink_op (nb : Neighbour) : (s.unlink nb).op = s.op := by
  unfold State.unlink; split <;> rfl
@[simp] theorem State.unlink_a0 (nb : Neighbour) : (s.unlink nb).a0 = s.a0 := by
  unfold State.unlink; split <;> rfl
@[simp] theorem State.unlink_a1 (nb : Neighbour) : (s.unlink nb).a1 = s.a1 := by
  unfold State.unlink; split <;> rfl
@[simp] theorem State.unlink_a2 (nb : Neighbour) : (s.unlink nb).a2 = s.a2 := by
  unfold State.unlink; split <;> rfl
@[simp] theorem State.unlink_a3 (nb : Neighbour) : (s.unlink nb).a3 = s.a3 := by
  unfold State.unlink; split <;> rfl
@[simp] theorem State.unlink_r0 (nb : Neighbour) : (s.unlink nb).r0 = s.r0 := by
  unfold State.unlink; split <;> rfl
@[simp] theorem State.unlink_st (nb : Neighbour) : (s.unlink nb).st = s.st := by
  unfold State.unlink; split <;> rfl
@[simp] theorem State.unlink_hinited (nb : Neighbour) : (s.unlink nb).hinited = s.hinited := by
  unfold State.unlink; split <;> rfl
@[simp] theorem State.unlink_hbase (nb : Neighbour) : (s.unlink nb).hbase = s.hbase := by
  unfold State.unlink; split <;> rfl
@[simp] theorem State.unlink_hsize (nb : Neighbour) : (s.unlink nb).hsize = s.hsize := by
  unfold State.unlink; split <;> rfl
@[simp] theorem State.unlink_color (nb : Neighbour) : (s.unlink nb).color = s.color := by
  unfold State.unlink; split <;> rfl
@[simp] theorem State.unlink_live (nb : Neighbour) : (s.unlink nb).live = s.live := by
  unfold State.unlink; split <;> rfl
@[simp] theorem State.unlink_host (nb : Neighbour) : (s.unlink nb).host = s.host := by
  unfold State.unlink; split <;> rfl
@[simp] theorem State.unlink_seen (nb : Neighbour) : (s.unlink nb).seen = s.seen := by
  unfold State.unlink; split <;> rfl

@[simp] theorem State.release_cfg (h : Int) (S : Word) (nb : Option Neighbour) : (s.release h S nb).cfg = s.cfg := by
  cases nb <;> simp [State.release]
@[simp] theorem State.release_op (h : Int) (S : Word) (nb : Option Neighbour) : (s.release h S nb).op = s.op := by
  cases nb <;> simp [State.release]
@[simp] theorem State.release_a0 (h : Int) (S : Word) (nb : Option Neighbour) : (s.release h S nb).a0 = s.a0 := by
  cases nb <;> simp [State.release]
@[simp] theorem State.release_a1 (h : Int) (S : Word) (nb : Option Neighbour) : (s.release h S nb).a1 = s.a1 := by
  cases nb <;> simp [State.release]
@[simp] theorem State.release_a2 (h : Int) (S : Word) (nb : Option Neighbour) : (s.release h S nb).a2 = s.a2 := by
  cases nb <;> simp [State.release]
@[simp] theorem State.release_a3 (h : Int) (S : Word) (nb : Option Neighbour) : (s.release h S nb).a3 = s.a3 := by
  cases nb <;> simp [State.release]
@[simp] theorem State.release_r0 (h : Int) (S : Word) (nb : Option Neighbour) : (s.release h S nb).r0 = s.r0 := by
  cases nb <;> simp [State.release]
@[simp] theorem State.release_st (h : Int) (S : Word) (nb : Option Neighbour) : (s.release h S nb).st = s.st := by
  cases nb <;> simp [State.release]
@[simp] theorem State.release_hinited (h : Int) (S : Word) (nb : Option Neighbour) : (s.release h S nb).hinited = s.hinited := by
  cases nb <;> simp [State.release]
@[simp] theorem State.release_hbase (h : Int) (S : Word) (nb : Option Neighbour) : (s.release h S nb).hbase = s.hbase := by
  cases nb <;> simp [State.release]
@[simp] theorem State.release_hsize (h : Int) (S : Word) (nb : Option Neighbour) : (s.release h S nb).hsize = s.hsize := by
  cases nb <;> simp [State.release]
@[simp] theorem State.release_color (h : Int) (S : Word) (nb : Option Neighbour) : (s.release h S nb).color = s.color := by
  cases nb <;> simp [State.release]
@[simp] theorem State.release_host (h : Int) (S : Word) (nb : Option Neighbour) : (s.release h S nb).host = s.host := by
  cases nb <;> simp [State.release]
@[simp] theorem State.release_seen (h : Int) (S : Word) (nb : Option Neighbour) : (s.release h S nb).seen = s.seen := by
  cases nb <;> simp [State.release]
@[simp] theorem State.release_head (h : Int) (S : Word) (nb : Option Neighbour) : (s.release h S nb).head = wrap h := by
  cases nb <;> rfl
@[simp] theorem State.release_live (h : Int) (S : Word) (nb : Option Neighbour) :
    (s.release h S nb).live = LiveMap.remove s.live (wrap (h + 2)).toNat := by
  cases nb <;> simp [State.release]

@[simp] theorem State.plotAll_cfg (ps : List Point) : (s.plotAll ps).cfg = s.cfg := by
  induction ps generalizing s with
  | nil => rfl
  | cons p ps ih => simp [State.plotAll, ih]
@[simp] theorem State.plotAll_op (ps : List Point) : (s.plotAll ps).op = s.op := by
  induction ps generalizing s with
  | nil => rfl
  | cons p ps ih => simp [State.plotAll, ih]
@[simp] theorem State.plotAll_a0 (ps : List Point) : (s.plotAll ps).a0 = s.a0 := by
  induction ps generalizing s with
  | nil => rfl
  | cons p ps ih => simp [State.plotAll, ih]
@[simp] theorem State.plotAll_a1 (ps : List Point) : (s.plotAll ps).a1 = s.a1 := by
  induction ps generalizing s with
  | nil => rfl
  | cons p ps ih => simp [State.plotAll, ih]
@[simp] theorem State.plotAll_a2 (ps : List Point) : (s.plotAll ps).a2 = s.a2 := by
  induction ps generalizing s with
  | nil => rfl
  | cons p ps ih => simp [State.plotAll, ih]
@[simp] theorem State.plotAll_a3 (ps : List Point) : (s.plotAll ps).a3 = s.a3 := by
  induction ps generalizing s with
  | nil => rfl
  | cons p ps ih => simp [State.plotAll, ih]
@[simp] theorem State.plotAll_r0 (ps : List Point) : (s.plotAll ps).r0 = s.r0 := by
  induction ps generalizing s with
  | nil => rfl
  | cons p ps ih => simp [State.plotAll, ih]
@[simp] theorem State.plotAll_st (ps : List Point) : (s.plotAll ps).st = s.st := by
  induction ps generalizing s with
  | nil => rfl
  | cons p ps ih => simp [State.plotAll, ih]
@[simp] theorem State.plotAll_hinited (ps : List Point) : (s.plotAll ps).hinited = s.hinited := by
  induction ps generalizing s with
  | nil => rfl
  | cons p ps ih => simp [State.plotAll, ih]
@[simp] theorem State.plotAll_hbase (ps : List Point) : (s.plotAll ps).hbase = s.hbase := by
  induction ps generalizing s with
  | nil => rfl
  | cons p ps ih => simp [State.plotAll, ih]
@[simp] theorem State.plotAll_hsize (ps : List Point) : (s.plotAll ps).hsize = s.hsize := by
  induction ps generalizing s with
  | nil => rfl
  | cons p ps ih => simp [State.plotAll, ih]
@[simp] theorem State.plotAll_head (ps : List Point) : (s.plotAll ps).head = s.head := by
  induction ps generalizing s with
  | nil => rfl
  | cons p ps ih => simp [State.plotAll, ih]
@[simp] theorem State.plotAll_color (ps : List Point) : (s.plotAll ps).color = s.color := by
  induction ps generalizing s with
  | nil => rfl
  | cons p ps ih => simp [State.plotAll, ih]
@[simp] theorem State.plotAll_live (ps : List Point) : (s.plotAll ps).live = s.live := by
  induction ps generalizing s with
  | nil => rfl
  | cons p ps ih => simp [State.plotAll, ih]
@[simp] theorem State.plotAll_host (ps : List Point) : (s.plotAll ps).host = s.host := by
  induction ps generalizing s with
  | nil => rfl
  | cons p ps ih => simp [State.plotAll, ih]
@[simp] theorem State.plotAll_seen (ps : List Point) : (s.plotAll ps).seen = s.seen := by
  induction ps generalizing s with
  | nil => rfl
  | cons p ps ih => simp [State.plotAll, ih]

@[simp] theorem State.memFill_cfg (base : Int) (v : Word) (n : Nat) : (State.memFill base v n s).cfg = s.cfg := by
  induction n generalizing s with
  | zero => rfl
  | succ n ih => simp [State.memFill, ih]
@[simp] theorem State.memFill_op (base : Int) (v : Word) (n : Nat) : (State.memFill base v n s).op = s.op := by
  induction n generalizing s with
  | zero => rfl
  | succ n ih => simp [State.memFill, ih]
@[simp] theorem State.memFill_a0 (base : Int) (v : Word) (n : Nat) : (State.memFill base v n s).a0 = s.a0 := by
  induction n generalizing s with
  | zero => rfl
  | succ n ih => simp [State.memFill, ih]
@[simp] theorem State.memFill_a1 (base : Int) (v : Word) (n : Nat) : (State.memFill base v n s).a1 = s.a1 := by
  induction n generalizing s with
  | zero => rfl
  | succ n ih => simp [State.memFill, ih]
@[simp] theorem State.memFill_a2 (base : Int) (v : Word) (n : Nat) : (State.memFill base v n s).a2 = s.a2 := by
  induction n generalizing s with
  | zero => rfl
  | succ n ih => simp [State.memFill, ih]
@[simp] theorem State.memFill_a3 (base : Int) (v : Word) (n : Nat) : (State.memFill base v n s).a3 = s.a3 := by
  induction n generalizing s with
  | zero => rfl
  | succ n ih => simp [State.memFill, ih]
@[simp] theorem State.memFill_r0 (base : Int) (v : Word) (n : Nat) : (State.memFill base v n s).r0 = s.r0 := by
  induction n generalizing s with
  | zero => rfl
  | succ n ih => simp [State.memFill, ih]
@[simp] theorem State.memFill_st (base : Int) (v : Word) (n : Nat) : (State.memFill base v n s).st = s.st := by
  induction n generalizing s with
  | zero => rfl
  | succ n ih => simp [State.memFill, ih]
@[simp] theorem State.memFill_hinited (base : Int) (v : Word) (n : Nat) : (State.memFill base v n s).hinited = s.hinited := by
  induction n generalizing s with
  | zero => rfl
  | succ n ih => simp [State.memFill, ih]
@[simp] theorem State.memFill_hbase (base : Int) (v : Word) (n : Nat) : (State.memFill base v n s).hbase = s.hbase := by
  induction n generalizing s with
  | zero => rfl
  | succ n ih => simp [State.memFill, ih]
@[simp] theorem State.memFill_hsize (base : Int) (v : Word) (n : Nat) : (State.memFill base v n s).hsize = s.hsize := by
  induction n generalizing s with
  | zero => rfl
  | succ n ih => simp [State.memFill, ih]
@[simp] theorem State.memFill_head (base : Int) (v : Word) (n : Nat) : (State.memFill base v n s).head = s.head := by
  induction n generalizing s with
  | zero => rfl
  | succ n ih => simp [State.memFill, ih]
@[simp] theorem State.memFill_color (base : Int) (v : Word) (n : Nat) : (State.memFill base v n s).color = s.color := by
  induction n generalizing s with
  | zero => rfl
  | succ n ih => simp [State.memFill, ih]
@[simp] theorem State.memFill_live (base : Int) (v : Word) (n : Nat) : (State.memFill base v n s).live = s.live := by
  induction n generalizing s with
  | zero => rfl
  | succ n ih => simp [State.memFill, ih]
@[simp] theorem State.memFill_host (base : Int) (v : Word) (n : Nat) : (State.memFill base v n s).host = s.host := by
  induction n generalizing s with
  | zero => rfl
  | succ n ih => simp [State.memFill, ih]
@[simp] theorem State.memFill_seen (base : Int) (v : Word) (n : Nat) : (State.memFill base v n s).seen = s.seen := by
  induction n generalizing s with
  | zero => rfl
  | succ n ih => simp [State.memFill, ih]

/-! Drawing, filling and releasing, as wholes. -/

/-- Drawing changes memory and nothing else. -/
theorem State.plotAll_eq (ps : List Point) : s.plotAll ps = { s with mem := (s.plotAll ps).mem } := by
  induction ps generalizing s with
  | nil => rfl
  | cons p ps ih => rw [State.plotAll, ih]; rfl

/-- Filling changes memory and nothing else. -/
theorem State.memFill_eq (base : Int) (v : Word) (n : Nat) :
    State.memFill base v n s = { s with mem := (State.memFill base v n s).mem } := by
  induction n generalizing s with
  | zero => rfl
  | succ n ih => rw [State.memFill, ih]; rfl

/-- Drawing does not look at the port. -/
theorem State.plotAll_present (c : Command) (ps : List Point) : (s.present c).plotAll ps = (s.plotAll ps).present c := by
  induction ps generalizing s with
  | nil => rfl
  | cons p ps ih => exact ih (s.plot p)

/-- Filling does not look at the port. -/
theorem State.memFill_present (c : Command) (base : Int) (v : Word) (n : Nat) :
    State.memFill base v n (s.present c) = (State.memFill base v n s).present c := by
  induction n generalizing s with
  | zero => rfl
  | succ n ih => exact ih (s.memWrite (base + n) v)

/-- FREE's writes do not look at the port. -/
theorem State.release_present (c : Command) (h : Int) (S : Word) (nb : Option Neighbour) :
    (s.present c).release h S nb = (s.release h S nb).present c := by
  obtain _ | ⟨_ | _, _, _⟩ := nb <;> rfl

/-- FREE's writes change memory, `HEAD` and `LIVE` and nothing else. -/
theorem State.release_eq (h : Int) (S : Word) (nb : Option Neighbour) :
    s.release h S nb =
      { s with
        mem := (s.release h S nb).mem
        head := wrap h
        live := LiveMap.remove s.live (wrap (h + 2)).toNat } := by
  obtain _ | ⟨_ | _, _, _⟩ := nb <;> rfl

end Sys2Proof.Machine
end

