-- ==== Sys2Proof/Laws/Memory.lean ====
section
/-! SUPPORT. Memory and `LIVE`: a read after a write, and that every operation keeps the canonical form. -/

namespace Sys2Proof.Machine

/-! The list of cells. -/

@[simp] theorem Memory.find?_write_same (m : Memory) (a : Nat) (v : Word) : (Memory.write m a v).find? a = some v := by
  induction m with
  | nil => simp [Memory.write, Memory.find?]
  | cons c m ih =>
    obtain ⟨b, w⟩ := c
    unfold Memory.write
    split
    · simp [Memory.find?]
    · split
      · simp [Memory.find?]
      · rw [Memory.find?, if_neg (by omega), ih]

theorem Memory.find?_write_ne (m : Memory) {a b : Nat} (v : Word) (h : a ≠ b) :
    (Memory.write m a v).find? b = m.find? b := by
  induction m with
  | nil => simp [Memory.write, Memory.find?, h]
  | cons c m ih =>
    obtain ⟨d, w⟩ := c
    unfold Memory.write
    split
    · rw [Memory.find?, if_neg h]
    · split
      · rename_i hd; subst hd; simp [Memory.find?, h]
      · rw [Memory.find?, Memory.find?, ih]

theorem Memory.mem_write {m : Memory} {a : Nat} {v : Word} {c : Cell} (h : c ∈ Memory.write m a v) :
    c = (a, v) ∨ c ∈ m := by
  induction m with
  | nil => left; simpa [Memory.write] using h
  | cons d m ih =>
    obtain ⟨b, w⟩ := d
    unfold Memory.write at h
    split at h
    · simpa using h
    · split at h
      · rcases List.mem_cons.1 h with h | h
        · exact .inl h
        · exact .inr (List.mem_cons_of_mem _ h)
      · rcases List.mem_cons.1 h with h | h
        · exact .inr (by simp [h])
        · exact (ih h).imp_right (List.mem_cons_of_mem _)

/-- A write keeps the canonical form. -/
theorem Memory.write_wf {m : Memory} {a : Nat} (v : Word) (h : m.wf) (ha : a < 65536) : (Memory.write m a v).wf := by
  refine ⟨?_, fun c hc => ?_⟩
  · have hs := h.1
    clear h
    induction m with
    | nil => simp [Memory.write]
    | cons d m ih =>
      obtain ⟨b, w⟩ := d
      have hs' := List.pairwise_cons.1 hs
      unfold Memory.write
      split
      · rename_i hab
        refine List.pairwise_cons.2 ⟨fun c hc => ?_, hs⟩
        rcases List.mem_cons.1 hc with rfl | hc
        · exact hab
        · exact Nat.lt_trans hab (hs'.1 c hc)
      · split
        · rename_i hab; subst hab
          exact List.pairwise_cons.2 ⟨hs'.1, hs'.2⟩
        · refine List.pairwise_cons.2 ⟨fun c hc => ?_, ih hs'.2⟩
          rcases Memory.mem_write hc with rfl | hc
          · simp only; omega
          · exact hs'.1 c hc
  · rcases Memory.mem_write hc with rfl | hc
    · exact ha
    · exact h.2 c hc

/-- Writes to two different addresses can be made in either order: the list is the same. -/
theorem Memory.write_comm (m : Memory) {a b : Nat} (h : a ≠ b) (v w : Word) :
    (m.write a v).write b w = (m.write b w).write a v := by
  induction m with
  | nil => simp only [Memory.write]; split_ifs <;> first | rfl | omega
  | cons d m ih =>
    obtain ⟨c, u⟩ := d
    simp only [Memory.write]
    split_ifs <;> simp only [Memory.write] <;> split_ifs <;> first | rfl | omega | rw [ih]

/-! Reads and writes of the machine. -/

theorem State.memRead_memWrite (s : State) (a b : Int) (v : Word) :
    (s.memWrite a v).memRead b = if wrap a = wrap b then v else s.memRead b := by
  unfold State.memRead
  rw [State.memWrite_mem]
  split_ifs with h
  · rw [h, Memory.find?_write_same]
  · rw [Memory.find?_write_ne _ _ (fun hn => h (BitVec.eq_of_toNat_eq hn))]

/-- A read after a write, at addresses of the address space (20_memory.md R59). -/
theorem State.memRead_memWrite_of_range (s : State) {a b : Int} (ha : inMemory a) (hb : inMemory b) (v : Word) :
    (s.memWrite a v).memRead b = if a = b then v else s.memRead b := by
  rw [State.memRead_memWrite]; simp only [wrap_inj ha hb]

/-- Writes of the machine at two different addresses can be made in either order. -/
theorem State.memWrite_comm (s : State) {a b : Int} (v w : Word) (h : wrap a ≠ wrap b) :
    (s.memWrite a v).memWrite b w = (s.memWrite b w).memWrite a v := by
  unfold State.memWrite
  dsimp only
  rw [Memory.write_comm _ (fun hn => h (BitVec.eq_of_toNat_eq hn))]

/-- A read looks at memory alone. -/
theorem State.memRead_congr {s t : State} (h : s.mem = t.mem) (a : Int) : s.memRead a = t.memRead a := by
  unfold State.memRead; rw [h]

@[simp] theorem State.memRead_setStatus (s : State) (c : Status) (a : Int) : (s.setStatus c).memRead a = s.memRead a := rfl

@[simp] theorem State.memRead_setLive (s : State) (b a : Int) : (s.setLive b).memRead a = s.memRead a := rfl

@[simp] theorem State.memRead_clearLive (s : State) (b a : Int) : (s.clearLive b).memRead a = s.memRead a := rfl

theorem State.memWrite_wf {s : State} (h : s.mem.wf) (a : Int) (v : Word) : (s.memWrite a v).mem.wf :=
  Memory.write_wf v h (wrap a).isLt

theorem State.memFill_wf {s : State} (h : s.mem.wf) (base : Int) (v : Word) (n : Nat) :
    (State.memFill base v n s).mem.wf := by
  induction n generalizing s with
  | zero => exact h
  | succ n ih => exact ih (State.memWrite_wf h _ _)

/-- What `memFill` does to every word. -/
theorem State.memRead_memFill (s : State) {base : Int} {n : Nat} (v : Word) (hb : 0 ≤ base) (hn : base + n ≤ 65536)
    {a : Int} (ha : inMemory a) :
    (State.memFill base v n s).memRead a = if base ≤ a ∧ a < base + n then v else s.memRead a := by
  induction n generalizing s with
  | zero => rw [State.memFill, if_neg (by omega)]
  | succ n ih =>
    rw [State.memFill, ih _ (by omega), State.memRead_memWrite_of_range _ ⟨by omega, by omega⟩ ha]
    push_cast at hn ⊢
    split_ifs <;> first | rfl | omega

theorem State.reset_mem_wf : State.reset.mem.wf := by decide

/-! `LIVE`. -/

@[simp] theorem LiveMap.mem_insert {l : LiveMap} {a b : Nat} : b ∈ l.insert a ↔ b = a ∨ b ∈ l := by
  induction l with
  | nil => simp [LiveMap.insert]
  | cons c l ih =>
    unfold LiveMap.insert
    split_ifs with h1 h2
    · simp
    · subst h2; simp
    · simp only [List.mem_cons, ih]; tauto

@[simp] theorem LiveMap.mem_remove {l : LiveMap} {a b : Nat} : b ∈ l.remove a ↔ b ≠ a ∧ b ∈ l := by
  induction l with
  | nil => simp [LiveMap.remove]
  | cons c l ih =>
    unfold LiveMap.remove
    split_ifs with h
    · subst h; simp only [ih, List.mem_cons]; tauto
    · simp only [List.mem_cons, ih]
      constructor
      · rintro (rfl | h') <;> tauto
      · tauto

theorem LiveMap.insert_wf {l : LiveMap} {a : Nat} (h : l.wf) (ha : a < 65536) : (l.insert a).wf := by
  refine ⟨?_, fun b hb => ?_⟩
  · have hs := h.1
    clear h
    induction l with
    | nil => simp [LiveMap.insert]
    | cons c l ih =>
      have hs' := List.pairwise_cons.1 hs
      unfold LiveMap.insert
      split_ifs with h1 h2
      · refine List.pairwise_cons.2 ⟨fun b hb => ?_, hs⟩
        rcases List.mem_cons.1 hb with rfl | hb
        · exact h1
        · exact Nat.lt_trans h1 (hs'.1 b hb)
      · exact hs
      · refine List.pairwise_cons.2 ⟨fun b hb => ?_, ih hs'.2⟩
        rcases LiveMap.mem_insert.1 hb with rfl | hb
        · omega
        · exact hs'.1 b hb
  · rcases LiveMap.mem_insert.1 hb with rfl | hb
    · exact ha
    · exact h.2 b hb

theorem LiveMap.remove_wf {l : LiveMap} (a : Nat) (h : l.wf) : (l.remove a).wf := by
  refine ⟨?_, fun b hb => h.2 b (LiveMap.mem_remove.1 hb).2⟩
  have hs := h.1
  clear h
  induction l with
  | nil => simp [LiveMap.remove]
  | cons c l ih =>
    have hs' := List.pairwise_cons.1 hs
    unfold LiveMap.remove
    split_ifs with h1
    · exact ih hs'.2
    · exact List.pairwise_cons.2 ⟨fun b hb => hs'.1 b (LiveMap.mem_remove.1 hb).2, ih hs'.2⟩

theorem State.isLive_iff {s : State} {a : Int} : s.isLive a = true ↔ (wrap a).toNat ∈ s.live := by
  simp [State.isLive]

/-- Setting a bit of `LIVE` sets that bit and no other (10_state.md R31). -/
theorem State.isLive_setLive (s : State) (a b : Int) :
    (s.setLive a).isLive b = (decide (wrap b = wrap a) || s.isLive b) := by
  have h : ((wrap b).toNat = (wrap a).toNat) ↔ wrap b = wrap a := ⟨BitVec.eq_of_toNat_eq, fun h => by rw [h]⟩
  rw [Bool.eq_iff_iff]
  simp [State.isLive, State.setLive, h]

/-- Clearing a bit of `LIVE` clears that bit and no other (10_state.md R31). -/
theorem State.isLive_clearLive (s : State) (a b : Int) :
    (s.clearLive a).isLive b = (!decide (wrap b = wrap a) && s.isLive b) := by
  have h : ((wrap b).toNat = (wrap a).toNat) ↔ wrap b = wrap a := ⟨BitVec.eq_of_toNat_eq, fun h => by rw [h]⟩
  rw [Bool.eq_iff_iff]
  simp [State.isLive, State.clearLive, h]

end Sys2Proof.Machine
end

