-- ==== Sys2Proof/Laws/Ops.lean ====
section
/-! SUPPORT. How a command ends (00_scope.md R11, 10_state.md R22), and the status codes (60_exceptions.md R200). -/

namespace Sys2Proof.Machine

theorem raise_eq_next {e : Status} {s t : State} : raise e s = .next t ↔ t = { s with st := e.code } := by
  unfold raise State.setStatus
  constructor
  · intro h; injection h with h; exact h.symm
  · rintro rfl; rfl

theorem complete_eq_next {s t : State} : complete s = .next t ↔ t = { s with st := 0x0000#16 } := by
  unfold complete State.setStatus Status.code
  constructor
  · intro h; injection h with h; exact h.symm
  · rintro rfl; rfl

theorem completeWith_eq_next {v : Word} {s t : State} :
    completeWith v s = .next t ↔ t = { s with r0 := v, st := 0x0000#16 } := by
  unfold completeWith State.setStatus Status.code
  constructor
  · intro h; injection h with h; exact h.symm
  · rintro rfl; rfl

/-- Different statuses have different codes (60_exceptions.md R200). -/
theorem Status.code_inj {c d : Status} (h : c.code = d.code) : c = d := by
  revert h; cases c <;> cases d <;> decide

@[simp] theorem Status.code_ok : Status.ok.code = 0x0000#16 := rfl

theorem Status.code_ne_zero {c : Status} (h : c ≠ .ok) : c.code ≠ 0x0000#16 :=
  fun hc => h (Status.code_inj (hc.trans Status.code_ok.symm))

end Sys2Proof.Machine
end

