-- ==== Sys2Proof/Laws/Arith.lean ====
section
/-! SUPPORT. The shared multiplier `mul16` (40_arithmetic.md R101): what its loop holds after each iteration, and the product. -/

namespace Sys2Proof.Machine

theorem wrap_add_wrap (i j : Int) : wrap i + wrap j = wrap (i + j) := by
  apply uval_inj
  rw [uval_add, uval_wrap, uval_wrap, uval_wrap]
  omega

/-- The low `j + 1` bits of a word, from its low `j` bits and bit `j` (10_state.md R30). -/
theorem uval_mod_two_pow_succ (y : Word) {j : Nat} (hj : j < 16) :
    uval y % 2 ^ (j + 1) = uval y % 2 ^ j + (if testBit y j then 2 ^ j else 0) := by
  have hb : testBit y j = decide (y.toNat / 2 ^ j % 2 = 1) := by
    rw [testBit_eq y hj, BitVec.getLsbD, Nat.testBit_eq_decide_div_mod_eq]
  have hm : ∀ n : Nat, uval y % 2 ^ n = ((y.toNat % 2 ^ n : Nat) : Int) := by
    intro n; unfold uval; push_cast; rfl
  rw [hm, hm, Nat.mod_pow_succ, hb]
  rcases Nat.mod_two_eq_zero_or_one (y.toNat / 2 ^ j) with h | h <;> simp [h]

/-- `(acc, sh)` after `n` iterations of the loop of R101. -/
theorem mulSteps_eq (x y : Word) {n : Nat} (hn : n ≤ 16) :
    mulSteps x y n = (wrap (uval x * (uval y % 2 ^ n)), wrap (uval x * 2 ^ n)) := by
  induction n with
  | zero => simp [mulSteps]; decide
  | succ n ih =>
    simp only [mulSteps, ih (by omega), uval_mod_two_pow_succ y (show n < 16 by omega), wrap_add_wrap]
    refine Prod.ext ?_ ?_
    · show _ = wrap _
      split
      · rw [Int.mul_add]
      · simp
    · show wrap _ = wrap _
      rw [show uval x * 2 ^ (n + 1) = uval x * 2 ^ n + uval x * 2 ^ n by ring]

/-- The word `mul16` gives, by the unsigned readings of its operands (R101). -/
theorem uval_mul16 (x y : Word) : uval (mul16 x y) = uval x * uval y % 65536 := by
  have := uval_nonneg y
  have := uval_lt y
  rw [mul16, mulSteps_eq x y (le_refl 16), uval_wrap, Int.emod_eq_of_lt (a := uval y) (by omega) (by omega)]

end Sys2Proof.Machine
end

