-- ==== Sys2Proof/Laws/Heap.lean ====
section
/-! SUPPORT. The walker of the HEAP unit (41_heap_allocator.md R132 to R134) and the inversion of ALLOC and FREE: everything a
walk, and a command, can answer. -/

namespace Sys2Proof.Machine

/-! ALLOC's walk. -/

section AllocWalk

variable {s : State} {need : Int} {left : Nat} {n₀ n L : Word} {ns : List Word}

/-- Arriving at `NIL`: nothing fitted (R137). -/
theorem allocWalk_nil : allocWalk s need left nilWord = .error .outOfMemory := by
  cases left <;> rw [allocWalk, if_pos rfl]

/-- Arriving at a node with the bound used up, or at one that fails `validNode` (R133, R134). -/
theorem allocWalk_stop (hn : n ≠ nilWord) (h : left = 0 ∨ ¬ validNode s n) :
    allocWalk s need left n = .error .heapCorrupt := by
  cases left with
  | zero => rw [allocWalk, if_neg hn]
  | succ k =>
    rw [allocWalk, if_neg hn, if_pos (h.resolve_left (Nat.succ_ne_zero k))]

/-- Arriving at a node that passes `validNode` (R137). -/
theorem allocWalk_node (hn : s.passable n) :
    allocWalk s need (left + 1) n =
      if validLen s n (s.memRead (uval n + 1)) then
        if need ≤ sval (s.memRead (uval n + 1)) then .ok (n, s.memRead (uval n + 1))
        else allocWalk s need left (s.memRead (uval n))
      else .error .heapCorrupt := by
  rw [allocWalk, if_neg hn.1, if_neg (not_not.2 hn.2)]
  by_cases h : validLen s n (s.memRead (uval n + 1))
  · rw [if_pos h]; exact if_neg (not_not.2 h)
  · rw [if_neg h]; exact if_pos h

/-- A walk past nodes that do not fit goes on with what is left of the bound. -/
theorem allocWalk_past (hw : s.walksTo n₀ ns n) (hall : ∀ x ∈ ns, s.tooSmall need x) :
    allocWalk s need (ns.length + left) n₀ = allocWalk s need left n := by
  induction ns generalizing n₀ with
  | nil => rw [show n₀ = n from hw]; simp
  | cons x xs ih =>
    obtain ⟨rfl, hw⟩ := hw
    have hx := hall n₀ (by simp)
    rw [List.length_cons, show xs.length + 1 + left = (xs.length + left) + 1 by omega, allocWalk_node hx.1,
      if_pos hx.2.1, if_neg (not_le.2 hx.2.2)]
    exact ih hw (fun y hy => hall y (by simp [hy]))

/-- ALLOC's walk reads memory, `HBASE` and `HSIZE`, and nothing else of the state. -/
theorem allocWalk_congr {t : State} (hm : s.mem = t.mem) (hb : s.hbase = t.hbase) (hz : s.hsize = t.hsize) :
    allocWalk s need left n = allocWalk t need left n := by
  induction left generalizing n with
  | zero => rfl
  | succ left ih => simp only [allocWalk, validNode, validLen, State.hend, State.memRead_congr hm, hb, hz, ih]; congr

/-- Everything ALLOC's walk can answer: the first node that fits, `OutOfMemory` at the end of the list, or `HeapCorrupt` at a
node that fails a check or comes after too many (R137). -/
theorem allocWalk_cases (s : State) (need : Int) (left : Nat) (n₀ : Word) :
    ∃ ns n, s.walksTo n₀ ns n ∧ ns.length ≤ left ∧ (∀ x ∈ ns, s.tooSmall need x) ∧
      ((allocWalk s need left n₀ = .error .outOfMemory ∧ n = nilWord) ∨
       (allocWalk s need left n₀ = .error .heapCorrupt ∧ n ≠ nilWord ∧
        (ns.length = left ∨ ¬ validNode s n ∨ ¬ validLen s n (s.memRead (uval n + 1)))) ∨
       (allocWalk s need left n₀ = .ok (n, s.memRead (uval n + 1)) ∧ ns.length < left ∧ s.passable n ∧
        validLen s n (s.memRead (uval n + 1)) ∧ need ≤ sval (s.memRead (uval n + 1)))) := by
  induction left generalizing n₀ with
  | zero =>
    refine ⟨[], n₀, rfl, le_rfl, by simp, ?_⟩
    by_cases h : n₀ = nilWord
    · subst h; exact .inl ⟨allocWalk_nil, rfl⟩
    · exact .inr (.inl ⟨allocWalk_stop h (.inl rfl), h, .inl rfl⟩)
  | succ left ih =>
    by_cases h1 : n₀ = nilWord
    · subst h1; exact ⟨[], _, rfl, by simp, by simp, .inl ⟨allocWalk_nil, rfl⟩⟩
    by_cases h2 : validNode s n₀
    swap
    · exact ⟨[], n₀, rfl, by simp, by simp, .inr (.inl ⟨allocWalk_stop h1 (.inr h2), h1, .inr (.inl h2)⟩)⟩
    rw [allocWalk_node ⟨h1, h2⟩]
    split_ifs with h3 h4
    · exact ⟨[], n₀, rfl, by simp, by simp, .inr (.inr ⟨rfl, by simp, ⟨h1, h2⟩, h3, h4⟩)⟩
    · obtain ⟨ns, n, hw, hl, hall, rest⟩ := ih (s.memRead (uval n₀))
      refine ⟨n₀ :: ns, n, ⟨rfl, hw⟩, by simpa using hl, fun x hx => ?_, ?_⟩
      · rcases List.mem_cons.1 hx with rfl | hx
        · exact ⟨⟨h1, h2⟩, h3, not_le.1 h4⟩
        · exact hall x hx
      · rcases rest with r | ⟨r, hn, hr⟩ | ⟨r, hlt, hr⟩
        · exact .inl r
        · exact .inr (.inl ⟨r, hn, hr.imp_left (by simp)⟩)
        · exact .inr (.inr ⟨r, by simpa using hlt, hr⟩)
    · exact ⟨[], n₀, rfl, by simp, by simp, .inr (.inl ⟨rfl, h1, .inr (.inr h3)⟩)⟩

end AllocWalk

/-- Everything ALLOC can do (R137): it raises one of its errors, or it carves the block from the first node that fits. -/
theorem execAlloc_cases (size : Word) (s : State) :
    (∃ e ∈ errorsOf (.alloc size), execAlloc size s = raise e s) ∨
    ∃ ns n, s.hinited = true ∧ 0 < sval size ∧ s.walksTo s.head ns n ∧ ns.length < s.maxNodes ∧
      (∀ x ∈ ns, s.tooSmall (sval size + 2) x) ∧ s.passable n ∧
      validLen s n (s.memRead (uval n + 1)) ∧ sval size + 2 ≤ sval (s.memRead (uval n + 1)) ∧
      execAlloc size s =
        completeWith (wrap (carveAddr n (s.memRead (uval n + 1)) (sval size) + 2))
          (s.carve n (s.memRead (uval n + 1)) (sval size)) := by
  unfold execAlloc
  by_cases h1 : s.hinited = true
  swap
  · exact .inl ⟨.notInitialised, by simp [errorsOf], if_pos h1⟩
  rw [if_neg (not_not.2 h1)]
  by_cases h2 : sval size ≤ 0
  · exact .inl ⟨.invalidSize, by simp [errorsOf], if_pos h2⟩
  rw [if_neg h2]
  obtain ⟨ns, n, hw, -, hall, ⟨r, -⟩ | ⟨r, -⟩ | ⟨r, hl, hp, hv, hf⟩⟩ :=
    allocWalk_cases s (sval size + 2) s.maxNodes s.head
  · rw [r]; exact .inl ⟨_, by simp [errorsOf], rfl⟩
  · rw [r]; exact .inl ⟨_, by simp [errorsOf], rfl⟩
  · rw [r]; exact .inr ⟨ns, n, h1, by omega, hw, hl, hall, hp, hv, hf, rfl⟩

/-! FREE's search. -/

section FreeWalk

variable {s : State} {f : Int} {left : Nat} {prev : Option Word} {n₀ n : Word} {ns : List Word}

/-- Arriving at `NIL`: no free node starts at `f` (R141). -/
theorem freeWalk_nil : freeWalk s f left prev nilWord = .ok .no := by
  cases left <;> rw [freeWalk, if_pos rfl]

/-- Arriving at a node with the bound used up, or at one that fails `validNode` (R133, R134). -/
theorem freeWalk_stop (hn : n ≠ nilWord) (h : left = 0 ∨ ¬ validNode s n) :
    freeWalk s f left prev n = .error .heapCorrupt := by
  cases left with
  | zero => rw [freeWalk, if_neg hn]
  | succ k => rw [freeWalk, if_neg hn, if_pos (h.resolve_left (Nat.succ_ne_zero k))]

/-- Arriving at a node that passes `validNode` (R141). -/
theorem freeWalk_node (hn : s.passable n) :
    freeWalk s f (left + 1) prev n =
      if uval n = f then .ok (.yes prev) else freeWalk s f left (some n) (s.memRead (uval n)) := by
  rw [freeWalk, if_neg hn.1, if_neg (not_not.2 hn.2)]

theorem getLast?_cons_or (x : Word) (xs : List Word) (prev : Option Word) :
    (x :: xs).getLast?.or prev = xs.getLast?.or (some x) := by
  cases xs with
  | nil => rfl
  | cons y ys => simp [List.getLast?_eq_some_getLast]

/-- FREE's search past nodes that are not the neighbour goes on with what is left of the bound. -/
theorem freeWalk_past (hw : s.walksTo n₀ ns n) (hall : ∀ x ∈ ns, s.passable x ∧ uval x ≠ f) :
    freeWalk s f (ns.length + left) prev n₀ = freeWalk s f left (ns.getLast?.or prev) n := by
  induction ns generalizing n₀ prev with
  | nil => rw [show n₀ = n from hw]; simp
  | cons x xs ih =>
    obtain ⟨rfl, hw⟩ := hw
    have hx := hall n₀ (by simp)
    rw [List.length_cons, show xs.length + 1 + left = (xs.length + left) + 1 by omega, freeWalk_node hx.1,
      if_neg hx.2, ih hw (fun y hy => hall y (by simp [hy])), getLast?_cons_or]

/-- FREE's search reads memory, `HBASE` and `HSIZE`, and nothing else of the state. -/
theorem freeWalk_congr {t : State} (hm : s.mem = t.mem) (hb : s.hbase = t.hbase) (hz : s.hsize = t.hsize) :
    freeWalk s f left prev n = freeWalk t f left prev n := by
  induction left generalizing prev n with
  | zero => rfl
  | succ left ih => simp only [freeWalk, validNode, State.hend, State.memRead_congr hm, hb, hz, ih]; congr

/-- Everything FREE's search can answer (R141, R134). -/
theorem freeWalk_cases (s : State) (f : Int) (left : Nat) (prev : Option Word) (n₀ : Word) :
    ∃ ns n, s.walksTo n₀ ns n ∧ ns.length ≤ left ∧ (∀ x ∈ ns, s.passable x ∧ uval x ≠ f) ∧
      ((freeWalk s f left prev n₀ = .error .heapCorrupt ∧ n ≠ nilWord ∧ (ns.length = left ∨ ¬ validNode s n)) ∨
       (freeWalk s f left prev n₀ = .ok .no ∧ n = nilWord) ∨
       (freeWalk s f left prev n₀ = .ok (.yes (ns.getLast?.or prev)) ∧ ns.length < left ∧ s.passable n ∧ uval n = f)) := by
  induction left generalizing n₀ prev with
  | zero =>
    refine ⟨[], n₀, rfl, le_rfl, by simp, ?_⟩
    by_cases h : n₀ = nilWord
    · subst h; exact .inr (.inl ⟨freeWalk_nil, rfl⟩)
    · exact .inl ⟨freeWalk_stop h (.inl rfl), h, .inl rfl⟩
  | succ left ih =>
    by_cases h1 : n₀ = nilWord
    · subst h1; exact ⟨[], _, rfl, by simp, by simp, .inr (.inl ⟨freeWalk_nil, rfl⟩)⟩
    by_cases h2 : validNode s n₀
    swap
    · exact ⟨[], n₀, rfl, by simp, by simp, .inl ⟨freeWalk_stop h1 (.inr h2), h1, .inr h2⟩⟩
    rw [freeWalk_node ⟨h1, h2⟩]
    split_ifs with h3
    · exact ⟨[], n₀, rfl, by simp, by simp, .inr (.inr ⟨rfl, by simp, ⟨h1, h2⟩, h3⟩)⟩
    · obtain ⟨ns, n, hw, hl, hall, rest⟩ := ih (some n₀) (s.memRead (uval n₀))
      refine ⟨n₀ :: ns, n, ⟨rfl, hw⟩, by simpa using hl, fun x hx => ?_, ?_⟩
      · rcases List.mem_cons.1 hx with rfl | hx
        · exact ⟨⟨h1, h2⟩, h3⟩
        · exact hall x hx
      · rw [getLast?_cons_or]
        rcases rest with ⟨r, hn, hr⟩ | r | ⟨r, hlt, hr⟩
        · exact .inl ⟨r, hn, hr.imp_left (by simp)⟩
        · exact .inr (.inl r)
        · exact .inr (.inr ⟨r, by simpa using hlt, hr⟩)

end FreeWalk

/-- Everything the look at the block after the freed one can answer (R141, R142). -/
theorem freeNeighbour_cases (s : State) (f : Int) :
    freeNeighbour s f = .error .heapCorrupt ∨
    (freeNeighbour s f = .ok none ∧ (s.cfg.coalesce = false ∨ s.hend ≤ f ∨
      ∃ ns, s.walksTo s.head ns nilWord ∧ ns.length ≤ s.maxNodes ∧ ∀ x ∈ ns, s.passable x ∧ uval x ≠ f)) ∨
    ∃ ns n, freeNeighbour s f =
        .ok (some { prev := ns.getLast?, len := s.memRead (uval n + 1), next := s.memRead (uval n) }) ∧
      s.cfg.coalesce = true ∧ f < s.hend ∧ s.walksTo s.head ns n ∧ ns.length < s.maxNodes ∧
      (∀ x ∈ ns, s.passable x ∧ uval x ≠ f) ∧ s.passable n ∧ uval n = f ∧
      validLen s n (s.memRead (uval n + 1)) := by
  unfold freeNeighbour
  by_cases h : s.cfg.coalesce = true ∧ f < s.hend
  · rw [if_pos h]
    obtain ⟨ns, n, hw, hl, hall, ⟨r, -⟩ | ⟨r, rfl⟩ | ⟨r, hlt, hp, rfl⟩⟩ := freeWalk_cases s f s.maxNodes none s.head
    · rw [r]; exact .inl rfl
    · rw [r]; exact .inr (.inl ⟨rfl, .inr (.inr ⟨ns, hw, hl, hall⟩)⟩)
    · rw [r]
      dsimp only
      rw [wrap_uval, Option.or_none]
      by_cases hv : validLen s n (s.memRead (uval n + 1))
      · rw [if_neg (not_not.2 hv)]
        exact .inr (.inr ⟨ns, n, rfl, h.1, h.2, hw, hlt, hall, hp, rfl, hv⟩)
      · rw [if_pos hv]; exact .inl rfl
  · rw [if_neg h]
    refine .inr (.inl ⟨rfl, ?_⟩)
    cases hc : s.cfg.coalesce
    · exact .inl rfl
    · exact .inr (.inl (not_lt.1 (fun hf => h ⟨hc, hf⟩)))

/-- What FREE finds after the block depends on memory, the heap registers and `COALESCE` alone. -/
theorem freeNeighbour_congr {s t : State} (hm : s.mem = t.mem) (hb : s.hbase = t.hbase) (hz : s.hsize = t.hsize)
    (hh : s.head = t.head) (hc : s.cfg = t.cfg) (f : Int) : freeNeighbour s f = freeNeighbour t f := by
  simp only [freeNeighbour, validLen, State.hend, State.maxNodes, State.memRead_congr hm, freeWalk_congr hm hb hz, hb, hz, hh,
    hc]
  congr

/-- Everything FREE can do (R141): it raises one of its errors, or it releases the block. -/
theorem execFree_cases (address : Word) (s : State) :
    (∃ e ∈ errorsOf (.free address), execFree address s = raise e s) ∨
    ∃ nb, s.hinited = true ∧ s.isLive (uval address) = true ∧ 0 < sval (s.memRead (uval address - 1)) ∧
      uval address + sval (s.memRead (uval address - 1)) ≤ s.hend ∧
      freeNeighbour s (uval address + sval (s.memRead (uval address - 1))) = .ok nb ∧
      execFree address s = complete (s.release (uval address - 2) (s.memRead (uval address - 1)) nb) := by
  have e1 : uval address - 2 + 1 = uval address - 1 := by omega
  have e2 : ∀ L, uval address - 2 + 2 + L = uval address + L := by intro L; omega
  unfold execFree
  by_cases h1 : s.hinited = true
  swap
  · exact .inl ⟨.notInitialised, by simp [errorsOf], if_pos h1⟩
  rw [if_neg (not_not.2 h1)]
  by_cases h2 : s.isLive (uval address) = true
  swap
  · exact .inl ⟨.invalidFree, by simp [errorsOf], if_pos h2⟩
  rw [if_neg (not_not.2 h2)]
  simp only [e1, e2]
  by_cases h3 : sval (s.memRead (uval address - 1)) ≤ 0 ∨
      s.hend < uval address + sval (s.memRead (uval address - 1))
  · exact .inl ⟨.heapCorrupt, by simp [errorsOf], if_pos h3⟩
  rw [if_neg h3]
  have hS : 0 < sval (s.memRead (uval address - 1)) := by omega
  have hE : uval address + sval (s.memRead (uval address - 1)) ≤ s.hend := by omega
  rcases freeNeighbour_cases s (uval address + sval (s.memRead (uval address - 1))) with h | ⟨h, -⟩ | ⟨_, _, h, -⟩
  · rw [h]; exact .inl ⟨_, by simp [errorsOf], rfl⟩
  · rw [h]; exact .inr ⟨_, h1, h2, hS, hE, rfl, rfl⟩
  · rw [h]; exact .inr ⟨_, h1, h2, hS, hE, rfl, rfl⟩

end Sys2Proof.Machine
end

