-- ==== Sys2Proof/Laws/Exec.lean ====
section
/-! SUPPORT. The inversion of exec and of step: everything a command, and a step, can answer, said once. -/

namespace Sys2Proof.Machine

/-- Everything a command can do (00_scope.md R11, 10_state.md R22, 60_exceptions.md R202): raise one of its errors; end in `OK`
without a result, having written at most memory, `LIVE`, `COLOR` and the heap registers; or end in `OK` with a result,
having written at most memory and `LIVE` beside it. -/
theorem exec_cases (i : Instr) (s : State) :
    (∃ e ∈ errorsOf i, exec i s = raise e s) ∨
    (hasResult i = false ∧ ∃ u, exec i s = complete u ∧
      u = { s with
        mem := u.mem, live := u.live, color := u.color, hinited := u.hinited, hbase := u.hbase, hsize := u.hsize,
        head := u.head }) ∨
    (hasResult i = true ∧ ∃ v u, exec i s = completeWith v u ∧ u = { s with mem := u.mem, live := u.live }) := by
  cases i with
  | mul x y => exact .inr (.inr ⟨rfl, _, s, rfl, rfl⟩)
  | div x y =>
    by_cases h : sval y = 0
    · exact .inl ⟨.divisionByZero, by simp [errorsOf], if_pos h⟩
    · exact .inr (.inr ⟨rfl, quotient x y, s, if_neg h, rfl⟩)
  | sqrt x =>
    by_cases h : sval x < 0
    · exact .inl ⟨.domainError, by simp [errorsOf], if_pos h⟩
    · exact .inr (.inr ⟨rfl, isqrt16 x, s, if_neg h, rfl⟩)
  | abs x => exact .inr (.inr ⟨rfl, _, s, rfl, rfl⟩)
  | max a b => exact .inr (.inr ⟨rfl, _, s, rfl, rfl⟩)
  | min a b => exact .inr (.inr ⟨rfl, _, s, rfl, rfl⟩)
  | hinit b n =>
    by_cases h1 : s.hinited = true
    · exact .inl ⟨.alreadyInitialised, by simp [errorsOf], if_pos h1⟩
    · by_cases h2 : heapRangeOk s.cfg (uval b) (sval n)
      · exact .inr (.inl ⟨rfl, s.layHeap b n, by simp only [exec, execHinit]; rw [if_neg h1, if_pos h2], rfl⟩)
      · exact .inl ⟨.badConfig, by simp [errorsOf], by simp only [exec, execHinit]; rw [if_neg h1, if_neg h2]⟩
  | alloc size =>
    rcases execAlloc_cases size s with h | ⟨_, _, _, _, _, _, _, _, _, _, h⟩
    · exact .inl h
    · exact .inr (.inr ⟨rfl, _, _, h, rfl⟩)
  | free address =>
    rcases execFree_cases address s with h | ⟨_, _, _, _, _, _, h⟩
    · exact .inl h
    · exact .inr (.inl ⟨rfl, _, h, by rw [State.release_eq]⟩)
  | setcolor c => exact .inr (.inl ⟨rfl, { s with color := colorOperand c }, rfl, rfl⟩)
  | clear => exact .inr (.inl ⟨rfl, _, rfl, by rw [State.memFill_eq]⟩)
  | pixel x y =>
    by_cases h : onScreen (sval x) (sval y)
    · exact .inr (.inl ⟨rfl, s.plot (sval x, sval y), if_neg (not_not.2 h), rfl⟩)
    · exact .inl ⟨.invalidCoordinate, by simp [errorsOf], if_pos h⟩
  | line x1 y1 x2 y2 =>
    by_cases h : ¬ onScreen (sval x1) (sval y1) ∨ ¬ onScreen (sval x2) (sval y2)
    · exact .inl ⟨.invalidCoordinate, by simp [errorsOf], if_pos h⟩
    · exact .inr (.inl ⟨rfl, _, if_neg h, by rw [State.plotAll_eq]⟩)
  | rect x1 y1 x2 y2 =>
    by_cases h : ¬ onScreen (sval x1) (sval y1) ∨ ¬ onScreen (sval x2) (sval y2)
    · exact .inl ⟨.invalidCoordinate, by simp [errorsOf], if_pos h⟩
    · exact .inr (.inl ⟨rfl, _, if_neg h, by rw [State.plotAll_eq]⟩)
  | circle x y r =>
    by_cases h : sval r < 0
    · exact .inl ⟨.invalidCoordinate, by simp [errorsOf], if_pos h⟩
    · by_cases h' : ¬ onScreen (sval x - sval r) (sval y - sval r) ∨ ¬ onScreen (sval x + sval r) (sval y + sval r)
      · exact .inl ⟨.invalidCoordinate, by simp [errorsOf], by simp only [exec, execCircle]; rw [if_neg h, if_pos h']⟩
      · exact .inr (.inl ⟨rfl, s.plotAll (circlePoints (sval x) (sval y) (sval r)),
          by simp only [exec, execCircle]; rw [if_neg h, if_neg h'], by rw [State.plotAll_eq]⟩)

/-- A fill that ends a command changes memory and `ST` and nothing else, however long it is. -/
theorem complete_memFill {s t : State} {base : Int} {v : Word} {n : Nat}
    (h : complete (State.memFill base v n s) = .next t) : t = { s with mem := t.mem, st := 0x0000#16 } := by
  rw [complete_eq_next.1 h, State.memFill_eq]

/-- What CLEAR leaves alone (42_rasterizer.md R162), said without its count of words, which Lean must not evaluate. -/
theorem execClear_next {s t : State} (h : execClear s = .next t) : t = { s with mem := t.mem, st := 0x0000#16 } :=
  complete_memFill (n := 8192) h

/-! The port registers: a command carries the words it reads, so its meaning does not look at the port again (30_encoding.md
R74, 10_state.md R21). -/

section Port

variable {s t : State} (c : Command)

theorem raise_present {e : Status} (h : raise e s = .next t) : raise e (s.present c) = .next (t.present c) := by
  rw [raise_eq_next] at h ⊢; rw [h]; rfl

theorem complete_present (h : complete s = .next t) : complete (s.present c) = .next (t.present c) := by
  rw [complete_eq_next] at h ⊢; rw [h]; rfl

theorem completeWith_present {v : Word} (h : completeWith v s = .next t) :
    completeWith v (s.present c) = .next (t.present c) := by
  rw [completeWith_eq_next] at h ⊢; rw [h]; rfl

/-- A check answers alike on both sides when each of its branches does. -/
theorem ite_present {p : Prop} [Decidable p] {a b a' b' : Result} (ha : a = .next t → a' = .next (t.present c))
    (hb : b = .next t → b' = .next (t.present c)) (h : (if p then a else b) = .next t) :
    (if p then a' else b') = .next (t.present c) := by
  by_cases hp : p
  · rw [if_pos hp] at h ⊢; exact ha h
  · rw [if_neg hp] at h ⊢; exact hb h

theorem execAlloc_present {size : Word} : execAlloc size s = .next t → execAlloc size (s.present c) = .next (t.present c) := by
  refine ite_present c (raise_present c) (ite_present c (raise_present c) fun h => ?_)
  rw [show allocWalk (s.present c) _ (s.present c).maxNodes (s.present c).head =
    allocWalk s (sval size + 2) s.maxNodes s.head from allocWalk_congr rfl rfl rfl]
  generalize allocWalk s (sval size + 2) s.maxNodes s.head = r at h ⊢
  obtain e | ⟨n, L⟩ := r
  · exact raise_present c h
  · exact completeWith_present c h

theorem execFree_present {address : Word} : execFree address s = .next t → execFree address (s.present c) = .next (t.present c) := by
  refine ite_present c (raise_present c) (ite_present c (raise_present c) (ite_present c (raise_present c) fun h => ?_))
  rw [show ∀ f, freeNeighbour (s.present c) f = freeNeighbour s f from freeNeighbour_congr rfl rfl rfl rfl rfl]
  change (match freeNeighbour s (uval address - 2 + 2 + sval (s.memRead (uval address - 2 + 1))) with
    | .error e => raise e (s.present c)
    | .ok nb => complete ((s.present c).release (uval address - 2) (s.memRead (uval address - 2 + 1)) nb)) = _
  generalize freeNeighbour s (uval address - 2 + 2 + sval (s.memRead (uval address - 2 + 1))) = r at h ⊢
  obtain e | nb := r
  · exact raise_present c h
  · simp only [State.release_present]; exact complete_present c h

/-- What a command does is the same whatever the port holds, and the port is left as it was. -/
theorem exec_present {i : Instr} : exec i s = .next t → exec i (s.present c) = .next (t.present c) := by
  cases i with
  | mul x y => exact completeWith_present c
  | div x y => exact ite_present c (raise_present c) (completeWith_present c)
  | sqrt x => exact ite_present c (raise_present c) (completeWith_present c)
  | abs x => exact completeWith_present c
  | max a b => exact completeWith_present c
  | min a b => exact completeWith_present c
  | hinit b n => exact ite_present c (raise_present c) (ite_present c (complete_present c) (raise_present c))
  | alloc size => exact execAlloc_present c
  | free address => exact execFree_present c
  | setcolor w => exact complete_present c
  | clear =>
    simp only [exec, execClear, State.memFill_present]
    exact complete_present c
  | pixel x y => exact ite_present c (raise_present c) (complete_present c)
  | line x1 y1 x2 y2 =>
    simp only [exec, execLine, State.plotAll_present]
    exact ite_present c (raise_present c) (complete_present c)
  | rect x1 y1 x2 y2 =>
    simp only [exec, execRect, State.plotAll_present]
    exact ite_present c (raise_present c) (complete_present c)
  | circle x y r =>
    simp only [exec, execCircle, State.plotAll_present]
    exact ite_present c (raise_present c) (ite_present c (raise_present c) (complete_present c))

end Port

end Sys2Proof.Machine
end

