-- ==== Sys2Proof/Laws/PerInstr.lean ====
section
/-! SUPPORT. Statements made per command: that the encoded `OP` has the fields of 30_encoding.md R70 to R72, and that an
argument word the command does not read is encoded as zero (R78). -/

namespace Sys2Proof.Laws.EncodedOp

open Sys2Proof Sys2Proof.Machine

/-- The nibble `UNIT` of a unit (30_encoding.md R71). -/
def unitNibble : FunctionalUnit → BitVec 4
  | .arith => 0x1#4
  | .heap => 0x2#4
  | .raster => 0x3#4

/-- The encoded words of a command: `RSV` is zero, `UNIT` names its unit, and every argument word past those it reads is
zero. -/
def Statement (i : Instr) : Prop :=
  opRsv (encode i).op = 0x00#8 ∧ opUnit (encode i).op = unitNibble i.unit ∧
    (argCount i ≤ 0 → (encode i).a0 = 0#16) ∧ (argCount i ≤ 1 → (encode i).a1 = 0#16) ∧
    (argCount i ≤ 2 → (encode i).a2 = 0#16) ∧ (argCount i ≤ 3 → (encode i).a3 = 0#16)

theorem mul (x y : Word) : Statement (.mul x y) :=
  ⟨by simp only [encode]; decide, by simp only [encode, Instr.unit, unitNibble]; decide, by simp [argCount, encode]⟩
theorem div (x y : Word) : Statement (.div x y) :=
  ⟨by simp only [encode]; decide, by simp only [encode, Instr.unit, unitNibble]; decide, by simp [argCount, encode]⟩
theorem sqrt (x : Word) : Statement (.sqrt x) :=
  ⟨by simp only [encode]; decide, by simp only [encode, Instr.unit, unitNibble]; decide, by simp [argCount, encode]⟩
theorem abs (x : Word) : Statement (.abs x) :=
  ⟨by simp only [encode]; decide, by simp only [encode, Instr.unit, unitNibble]; decide, by simp [argCount, encode]⟩
theorem max (a b : Word) : Statement (.max a b) :=
  ⟨by simp only [encode]; decide, by simp only [encode, Instr.unit, unitNibble]; decide, by simp [argCount, encode]⟩
theorem min (a b : Word) : Statement (.min a b) :=
  ⟨by simp only [encode]; decide, by simp only [encode, Instr.unit, unitNibble]; decide, by simp [argCount, encode]⟩
theorem hinit (heapBase heapSize : Word) : Statement (.hinit heapBase heapSize) :=
  ⟨by simp only [encode]; decide, by simp only [encode, Instr.unit, unitNibble]; decide, by simp [argCount, encode]⟩
theorem alloc (size : Word) : Statement (.alloc size) :=
  ⟨by simp only [encode]; decide, by simp only [encode, Instr.unit, unitNibble]; decide, by simp [argCount, encode]⟩
theorem free (address : Word) : Statement (.free address) :=
  ⟨by simp only [encode]; decide, by simp only [encode, Instr.unit, unitNibble]; decide, by simp [argCount, encode]⟩
theorem setcolor (color : Word) : Statement (.setcolor color) :=
  ⟨by simp only [encode]; decide, by simp only [encode, Instr.unit, unitNibble]; decide, by simp [argCount, encode]⟩
theorem clear : Statement (.clear) :=
  ⟨by simp only [encode]; decide, by simp only [encode, Instr.unit, unitNibble]; decide, by simp [argCount, encode]⟩
theorem pixel (x y : Word) : Statement (.pixel x y) :=
  ⟨by simp only [encode]; decide, by simp only [encode, Instr.unit, unitNibble]; decide, by simp [argCount, encode]⟩
theorem line (x1 y1 x2 y2 : Word) : Statement (.line x1 y1 x2 y2) :=
  ⟨by simp only [encode]; decide, by simp only [encode, Instr.unit, unitNibble]; decide, by simp [argCount, encode]⟩
theorem rect (x1 y1 x2 y2 : Word) : Statement (.rect x1 y1 x2 y2) :=
  ⟨by simp only [encode]; decide, by simp only [encode, Instr.unit, unitNibble]; decide, by simp [argCount, encode]⟩
theorem circle (x y r : Word) : Statement (.circle x y r) :=
  ⟨by simp only [encode]; decide, by simp only [encode, Instr.unit, unitNibble]; decide, by simp [argCount, encode]⟩

end Sys2Proof.Laws.EncodedOp
end

