-- ==== Sys2Proof/Laws/Raster.lean ====
section
/-! SUPPORT. Plotting: where a pixel lies (20_memory.md R66), and what `plot` and `plotAll` do to every pixel and to every word
outside the frame buffer (42_rasterizer.md R164, R165). -/

namespace Sys2Proof.Machine

/-- The word of a pixel (R164), without `mul16`. -/
theorem pixelAddr_eq (cfg : Config) {x y : Int} (h : onScreen x y) :
    pixelAddr cfg x y = cfg.screenBase.val + 32 * y + x / 16 := by
  rw [pixelAddr, uval_mul16, uval_wrap_of_range (by omega) (by omega), uval_wrap_of_range (by omega) (by omega)]
  omega

theorem pixelAddr_inFrame (s : State) {x y : Int} (h : onScreen x y) : s.inFrame (pixelAddr s.cfg x y) := by
  rw [pixelAddr_eq _ h]
  unfold State.inFrame
  omega

theorem inMemory_of_inFrame {s : State} {a : Int} (h : s.inFrame a) : inMemory a := by
  have := s.cfg.screenBase.isLt
  obtain ⟨h1, h2⟩ := h
  exact ⟨by omega, by omega⟩

theorem pixelBit_lt (x : Int) : pixelBit x < 16 := by unfold pixelBit; omega

/-- Two pixels of the screen that share their word and their bit are one pixel. -/
theorem pixel_inj (cfg : Config) {x y x' y' : Int} (h : onScreen x y) (h' : onScreen x' y')
    (ha : pixelAddr cfg x y = pixelAddr cfg x' y') (hb : pixelBit x = pixelBit x') : x = x' ∧ y = y' := by
  rw [pixelAddr_eq _ h, pixelAddr_eq _ h'] at ha
  unfold pixelBit at hb
  omega

/-- A plot leaves every word outside the frame buffer. -/
theorem State.memRead_plot_of_not_inFrame (s : State) {p : Point} (hp : onScreen p.1 p.2) {a : Int} (ha : inMemory a)
    (hn : ¬ s.inFrame a) : (s.plot p).memRead a = s.memRead a := by
  have hf := pixelAddr_inFrame s hp
  rw [State.plot, State.memRead_memWrite_of_range _ (inMemory_of_inFrame hf) ha, if_neg (by rintro rfl; exact hn hf)]

/-- A plot gives its pixel the current colour and leaves every other pixel (R165). -/
theorem State.pixelOn_plot (s : State) {p : Point} (hp : onScreen p.1 p.2) {x y : Int} (h : onScreen x y) :
    (s.plot p).pixelOn x y = if (x, y) = p then s.color else s.pixelOn x y := by
  unfold State.pixelOn
  rw [show (s.plot p).cfg = s.cfg from rfl, State.plot,
    State.memRead_memWrite_of_range _ (inMemory_of_inFrame (pixelAddr_inFrame s hp))
      (inMemory_of_inFrame (pixelAddr_inFrame s h))]
  by_cases e : pixelAddr s.cfg p.1 p.2 = pixelAddr s.cfg x y
  · rw [if_pos e, testBit_paintBit _ _ (pixelBit_lt _), ← e]
    by_cases hb : pixelBit x = pixelBit p.1
    · obtain ⟨e1, e2⟩ := pixel_inj s.cfg h hp e.symm hb
      rw [if_pos hb, if_pos (by rw [e1, e2])]
    · rw [if_neg hb, if_neg (by rintro rfl; exact hb rfl)]
  · rw [if_neg e, if_neg (by rintro rfl; exact e rfl)]

/-- Everything drawing a figure does to memory: the words outside the frame buffer stay, the pixels of the figure take the
current colour, and every other pixel stays. -/
theorem State.plotAll_spec (ps : List Point) (s : State) (hps : ∀ p ∈ ps, onScreen p.1 p.2) :
    (∀ a, inMemory a → ¬ s.inFrame a → (s.plotAll ps).memRead a = s.memRead a) ∧
    ∀ x y, onScreen x y → (s.plotAll ps).pixelOn x y = if (x, y) ∈ ps then s.color else s.pixelOn x y := by
  induction ps generalizing s with
  | nil => exact ⟨fun _ _ _ => rfl, fun _ _ _ => by simp [State.plotAll]⟩
  | cons p ps ih =>
    obtain ⟨h1, h2⟩ := ih (s.plot p) (fun q hq => hps q (List.mem_cons_of_mem _ hq))
    have hp := hps p (List.mem_cons_self ..)
    refine ⟨fun a ha hn => ?_, fun x y h => ?_⟩
    · rw [State.plotAll, h1 a ha hn, State.memRead_plot_of_not_inFrame s hp ha hn]
    · rw [State.plotAll, h2 x y h, State.pixelOn_plot s hp h, show (s.plot p).color = s.color from rfl]
      simp only [List.mem_cons]
      by_cases e1 : (x, y) = p <;> by_cases e2 : (x, y) ∈ ps <;> simp [e1, e2]

/-- Drawing keeps the canonical form of memory. -/
theorem State.plotAll_wf {s : State} (h : s.mem.wf) (ps : List Point) : (s.plotAll ps).mem.wf := by
  induction ps generalizing s with
  | nil => exact h
  | cons p ps ih => exact ih (State.memWrite_wf h _ _)

/-- The points of a straight run. -/
theorem mem_run (x y dx dy : Int) (n : Nat) (q : Point) :
    q ∈ run x y dx dy n ↔ ∃ k : Nat, k < n ∧ q = (x + dx * k, y + dy * k) := by
  induction n generalizing x y with
  | zero => simp [run]
  | succ n ih =>
    rw [run, List.mem_cons, ih]
    constructor
    · rintro (rfl | ⟨k, hk, rfl⟩)
      · exact ⟨0, by omega, by simp⟩
      · exact ⟨k + 1, by omega, by ext <;> push_cast <;> ring⟩
    · rintro ⟨k, hk, rfl⟩
      rcases k with _ | k
      · left; simp
      · right; exact ⟨k, by omega, by ext <;> push_cast <;> ring⟩

end Sys2Proof.Machine
end

