-- ==== Sys2Proof/Tests/Slice0.lean ====
section
/-! SUPPORT. Tests on words and results that spec/95_test_vectors.md gives (each names its section), and, for every statement
that has hypotheses, a state and operands that meet them. -/

namespace Sys2Proof.Tests

open Sys2Proof Sys2Proof.Machine

/-! ## Small states -/

/-- The state an answer goes on with. -/
def after : Result → State
  | .next t => t
  | .fault _ => State.reset
  | .refused _ => State.reset

/-- The arguments with no RASTER unit. -/
def noRaster : Config := { coalesce := true, hasRaster := false, screenBase := 0 }

/-- A machine with a heap laid at `base`. -/
def heap (base size head : Word) (live : LiveMap) (mem : Memory) : State :=
  { State.reset with hinited := true, hbase := base, hsize := size, head := head, live := live, mem := mem }

/-- S4 after its first line, `HINIT 100, 64`. -/
def fresh : State := heap 100#16 64#16 100#16 [] [(100, 0xFFFF#16), (101, 0x003E#16)]

/-- S4 after its third line: both blocks allocated. -/
def full : State :=
  heap 100#16 64#16 100#16 [132, 154]
    [(100, 0xFFFF#16), (101, 0x001C#16), (130, 0xFFFF#16), (131, 0x0014#16), (152, 0xFFFF#16), (153, 0x000A#16)]

/-- S7's base state: S4 after `FREE 154`. -/
def freed : State :=
  heap 100#16 64#16 152#16 [132]
    [(100, 0xFFFF#16), (101, 0x001C#16), (130, 0xFFFF#16), (131, 0x0014#16), (152, 0x0064#16), (153, 0x000A#16)]

/-- P4 after its sixth line: the free list is `(134, 8) -> (154, 8) -> (100, 32)`, and 146 is live. -/
def middle : State :=
  heap 100#16 64#16 134#16 [146]
    [(100, 0xFFFF#16), (101, 0x0020#16), (134, 0x009A#16), (135, 0x0008#16), (144, 0xFFFF#16), (145, 0x0008#16),
     (154, 0x0064#16), (155, 0x0008#16)]

/-- S6's smallest heap, `HINIT 100, 4`: one node of length 2, and `MAXNODES` is 2. -/
def small : State := heap 100#16 4#16 100#16 [] [(100, 0xFFFF#16), (101, 0x0002#16)]

/-- A state of a screen whose listed words are given. -/
def screen (color : Bool) (mem : Memory) : State := { State.reset with color := color, mem := mem }

/-! ## Decoding: one word of every command, bit by bit (30_encoding.md R70 to R72) -/

theorem test_decode_mul :
    decode .reference ⟨0b0000_0000_0001_0000#16, 7#16, 0xFFFD#16, 0#16, 0#16⟩ = .ok (.mul 7#16 0xFFFD#16) := rfl
theorem test_decode_div :
    decode .reference ⟨0b0000_0000_0001_0001#16, 7#16, 2#16, 0#16, 0#16⟩ = .ok (.div 7#16 2#16) := rfl
theorem test_decode_sqrt :
    decode .reference ⟨0b0000_0000_0001_0010#16, 30#16, 0#16, 0#16, 0#16⟩ = .ok (.sqrt 30#16) := rfl
theorem test_decode_abs :
    decode .reference ⟨0b0000_0000_0001_0011#16, 0xFFFB#16, 0#16, 0#16, 0#16⟩ = .ok (.abs 0xFFFB#16) := rfl
theorem test_decode_max :
    decode .reference ⟨0b0000_0000_0001_0100#16, 0xFFFD#16, 2#16, 0#16, 0#16⟩ = .ok (.max 0xFFFD#16 2#16) := rfl
theorem test_decode_min :
    decode .reference ⟨0b0000_0000_0001_0101#16, 0xFFFD#16, 2#16, 0#16, 0#16⟩ = .ok (.min 0xFFFD#16 2#16) := rfl
theorem test_decode_hinit :
    decode .reference ⟨0b0000_0000_0010_0000#16, 100#16, 64#16, 0#16, 0#16⟩ = .ok (.hinit 100#16 64#16) := rfl
theorem test_decode_alloc :
    decode .reference ⟨0b0000_0000_0010_0001#16, 10#16, 0#16, 0#16, 0#16⟩ = .ok (.alloc 10#16) := rfl
theorem test_decode_free :
    decode .reference ⟨0b0000_0000_0010_0010#16, 154#16, 0#16, 0#16, 0#16⟩ = .ok (.free 154#16) := rfl
theorem test_decode_setcolor :
    decode .reference ⟨0b0000_0000_0011_0000#16, 0xFFFF#16, 0#16, 0#16, 0#16⟩ = .ok (.setcolor 0xFFFF#16) := rfl
theorem test_decode_clear :
    decode .reference ⟨0b0000_0000_0011_0001#16, 0#16, 0#16, 0#16, 0#16⟩ = .ok .clear := rfl
theorem test_decode_pixel :
    decode .reference ⟨0b0000_0000_0011_0010#16, 21#16, 1#16, 0#16, 0#16⟩ = .ok (.pixel 21#16 1#16) := rfl
theorem test_decode_line :
    decode .reference ⟨0b0000_0000_0011_0011#16, 0#16, 2#16, 3#16, 0#16⟩ = .ok (.line 0#16 2#16 3#16 0#16) := rfl
theorem test_decode_rect :
    decode .reference ⟨0b0000_0000_0011_0100#16, 14#16, 3#16, 17#16, 4#16⟩ = .ok (.rect 14#16 3#16 17#16 4#16) := rfl
theorem test_decode_circle :
    decode .reference ⟨0b0000_0000_0011_0101#16, 10#16, 11#16, 3#16, 0#16⟩ = .ok (.circle 10#16 11#16 3#16) := rfl

/-- S9: the words outside the opcode map, each refused under the name of its class. -/
theorem test_decode_illegal :
    [0x0000#16, 0x0016#16, 0x001F#16, 0x0023#16, 0x002F#16, 0x0036#16, 0x0040#16, 0x0110#16, 0x8010#16, 0xFFFF#16].map
        (fun op => decode .reference ⟨op, 1#16, 2#16, 3#16, 4#16⟩) =
      [.error .reservedUnit, .error .reservedFunction, .error .reservedFunction, .error .reservedFunction,
       .error .reservedFunction, .error .reservedFunction, .error .reservedUnit, .error .reservedBits,
       .error .reservedBits, .error .reservedBits] := rfl

/-- S9: the RASTER words on a machine without the unit. -/
theorem test_decode_raster_absent :
    [0x0030#16, 0x0031#16, 0x0032#16, 0x0033#16, 0x0034#16, 0x0035#16].map
        (fun op => decode noRaster ⟨op, 1#16, 2#16, 3#16, 4#16⟩) =
      List.replicate 6 (.error .rasterAbsent) := rfl

/-- S9: registers the command does not read. -/
theorem test_decode_unread :
    decode .reference ⟨0x0010#16, 5#16, 3#16, 0x1234#16, 0xFFFF#16⟩ = .ok (.mul 5#16 3#16) := rfl

/-- The table's own numbering: `OP` alone, every argument zero. -/
theorem test_table_word :
    decodeTableWord 16 0x0033 = some (.line 0#16 0#16 0#16 0#16) ∧ decodeTableWord 16 0x0000 = none := ⟨rfl, rfl⟩

/-! ## Well-formedness: the one check, and terms it refuses -/

theorem test_wellFormed_refuses_raster_without_unit :
    [Instr.setcolor 1#16, .clear, .pixel 0#16 0#16, .line 0#16 0#16 1#16 1#16, .rect 0#16 0#16 1#16 1#16,
      .circle 10#16 10#16 3#16].map (Instr.wellFormed noRaster) = List.replicate 6 false := rfl

theorem test_wellFormed_accepts :
    (Instr.clear).wellFormed .reference = true ∧ (Instr.mul 1#16 2#16).wellFormed noRaster = true ∧
      (Instr.free 1#16).wellFormed noRaster = true := by decide

/-! ## ARITH (S2) -/

set_option maxRecDepth 8000 in
theorem test_mul_signed : (after (exec (.mul 7#16 0xFFFD#16) State.reset)).r0 = 0xFFEB#16 := by decide
set_option maxRecDepth 8000 in
theorem test_mul_wraps : (after (exec (.mul 0x8000#16 0xFFFF#16) State.reset)).r0 = 0x8000#16 := by decide
theorem test_div_truncates : (after (exec (.div 0xFFF9#16 2#16) State.reset)).r0 = 0xFFFD#16 := by decide
set_option maxRecDepth 8000 in
theorem test_div_extreme : (after (exec (.div 0x8000#16 3#16) State.reset)).r0 = 0xD556#16 := by decide
set_option maxRecDepth 8000 in
theorem test_sqrt_guard : (after (exec (.sqrt 0x7FFF#16) State.reset)).r0 = 0x00B5#16 := by decide
theorem test_sqrt_negative : after (exec (.sqrt 0xFFFF#16) State.reset) = { State.reset with st := 4#16 } := by decide
theorem test_abs_negative : (after (exec (.abs 0xFFFB#16) State.reset)).r0 = 0x0005#16 := by decide
theorem test_abs_lowest : (after (exec (.abs 0x8000#16) State.reset)).r0 = 0x8000#16 := by decide
theorem test_max_signed : (after (exec (.max 0xFFFF#16 0#16) State.reset)).r0 = 0x0000#16 := by decide
theorem test_max_far_apart : (after (exec (.max 0x7FFF#16 0x8000#16) State.reset)).r0 = 0x7FFF#16 := by decide
theorem test_min_signed : (after (exec (.min 0xFFFF#16 0#16) State.reset)).r0 = 0xFFFF#16 := by decide
theorem test_min_far_apart : (after (exec (.min 0x7FFF#16 0x8000#16) State.reset)).r0 = 0x8000#16 := by decide

/-! ## HEAP (S3 to S7, P4) -/

theorem test_hinit : after (exec (.hinit 100#16 64#16) State.reset) = fresh := by decide
/-- S3: one word too many, then the largest size that fits below the frame buffer; both end in the stated status. -/
theorem test_hinit_overlap :
    (after (exec (.hinit 16000#16 385#16) State.reset)).st = 9#16 ∧
      (after (exec (.hinit 16000#16 384#16) State.reset)).st = 0#16 := by decide
theorem test_alloc_carves_the_tail :
    after (exec (.alloc 10#16) fresh) =
      { heap 100#16 64#16 100#16 [154]
          [(100, 0xFFFF#16), (101, 0x0032#16), (152, 0xFFFF#16), (153, 0x000A#16)] with r0 := 154#16 } := by decide
/-- S4's last line: the reused block, carved from the node at the head of the list. -/
theorem test_alloc_reuses :
    (after (exec (.alloc 5#16) freed)).r0 = 159#16 ∧ (after (exec (.alloc 5#16) freed)).live = [132, 159] := by decide
theorem test_free_links : after (exec (.free 154#16) full) = freed := by decide
/-- P4, line 7, `COALESCE = true`. -/
theorem test_free_merges :
    after (exec (.free 146#16) middle) =
      heap 100#16 64#16 144#16 []
        [(100, 0xFFFF#16), (101, 0x0020#16), (134, 0x0064#16), (135, 0x0008#16), (144, 0x0086#16), (145, 0x0012#16),
         (154, 0x0064#16), (155, 0x0008#16)] := by decide

/-! ## RASTER (S8) -/

theorem test_setcolor : (after (exec (.setcolor 0#16) State.reset)).color = false := by decide
theorem test_setcolor_true : (after (exec (.setcolor 0xFFFF#16) (screen false []))).color = true := by decide
/-- What a read finds after CLEAR on a screen at 16384 (the helper of the two tests below). -/
theorem clear_reads {s t : State} {v : Word} {a : Int} (h : exec .clear s = .next t)
    (hb : (s.cfg.screenBase.val : Int) = 16384) (ha : inMemory a) (hv : v = (if s.color then 0x0000#16 else 0xFFFF#16)) :
    t.memRead a = if 16384 ≤ a ∧ a < 24576 then v else s.memRead a := by
  have h' := complete_eq_next.1 h
  rw [← hv, hb] at h'
  generalize hn : (8192 : Nat) = n at h'
  have hm : t.mem = (State.memFill 16384 v n s).mem := by rw [h']
  rw [State.memRead_congr hm, State.memRead_memFill s v (by decide) (by omega) ha]
  have : (16384 : Int) + (n : Int) = 24576 := by omega
  rw [this]

/-- S8.1: the background is the complement of the colour, up to the edges of the frame buffer. -/
theorem test_clear : ∀ t, exec .clear (screen false []) = .next t →
    t.memRead 16384 = 0xFFFF#16 ∧ t.memRead 24575 = 0xFFFF#16 :=
  fun _ h => ⟨clear_reads h rfl (by decide) rfl, clear_reads h rfl (by decide) rfl⟩
/-- S8.1: a word past the frame buffer is untouched. -/
theorem test_clear_outside : ∀ t, exec .clear (screen true [(24576, 6#16)]) = .next t → t.memRead 24576 = 6#16 :=
  fun _ h => (clear_reads h rfl (by decide) rfl).trans (by decide)

theorem test_pixel_sets :
    (after (exec (.pixel 21#16 1#16) (screen true [(16417, 0#16)]))).mem = [(16417, 0x0020#16)] := by decide
theorem test_pixel_clears :
    (after (exec (.pixel 21#16 1#16) (screen false [(16417, 0xFFFF#16)]))).mem = [(16417, 0xFFDF#16)] := by decide
theorem test_line_slanted :
    (after (exec (.line 3#16 2#16 0#16 0#16) (screen true [(16384, 0#16), (16416, 0#16), (16448, 0#16)]))).mem =
      [(16384, 0x0003#16), (16416, 0x000E#16), (16448, 0x0008#16)] := by decide
theorem test_line_straight :
    (after (exec (.line 14#16 0#16 17#16 0#16) (screen true [(16384, 0#16), (16385, 0#16)]))).mem =
      [(16384, 0xC000#16), (16385, 0x0003#16)] := by decide
theorem test_rect :
    (after (exec (.rect 14#16 3#16 17#16 4#16)
      (screen true [(16480, 0#16), (16481, 0#16), (16512, 0#16), (16513, 0#16)]))).mem =
      [(16480, 0xC000#16), (16481, 0x0003#16), (16512, 0xC000#16), (16513, 0x0003#16)] := by decide
theorem test_rect_any_corner :
    (after (exec (.rect 1#16 1#16 0#16 0#16) (screen true [(16384, 0#16), (16416, 0#16)]))).mem =
      [(16384, 0x0003#16), (16416, 0x0003#16)] := by decide
set_option maxRecDepth 8000 in
theorem test_circle :
    (after (exec (.circle 10#16 10#16 1#16) (screen true [(16672, 0#16), (16704, 0#16), (16736, 0#16)]))).mem =
      [(16672, 0x0400#16), (16704, 0x0E00#16), (16736, 0x0400#16)] := by decide
set_option maxRecDepth 8000 in
/-- S8.4: the half-widths of the disc of radius 3. -/
theorem test_circle_half_widths :
    [-3, -2, -1, 0, 1, 2, 3].map (halfWidth 3) = [0, 2, 2, 3, 2, 2, 0] := by decide

/-! ## The step -/

set_option maxRecDepth 8000 in
/-- P1's fourth line, issued by the host: an error keeps `R0`. -/
theorem test_step_issue :
    after (step { State.reset with r0 := 0x003B#16, host := [.issue ⟨0x0011#16, 0x0064#16, 0#16, 0#16, 0#16⟩] }) =
      { State.reset with r0 := 0x003B#16, op := 0x0011#16, a0 := 0x0064#16, st := 3#16 } := by decide

set_option maxRecDepth 8000 in
/-- A table word placed in the reset state runs at the very next step: `SQRT 0` ends in `OK` with 0. -/
theorem test_step_withFetchWord :
    after (step (State.reset.withFetchWord 16 0x0012)) = { State.reset with op := 0x0012#16 } := by decide

/-- S11: a reset forgets the heap and keeps memory. -/
theorem test_step_reset :
    (after (step { freed with host := [.reset] })).mem = freed.mem ∧
      (after (step { freed with host := [.reset] })).live = [] := by decide

/-! ## Witnesses: for each statement that has hypotheses, a state and operands that meet all of them -/

/-- A property of the members of a list, one by one. -/
theorem each_cons {p : Word → Prop} {x : Word} {xs : List Word} (h : p x) (hs : ∀ y ∈ xs, p y) : ∀ y ∈ x :: xs, p y :=
  List.forall_mem_cons.2 ⟨h, hs⟩

theorem each_nil {p : Word → Prop} : ∀ y ∈ ([] : List Word), p y := fun _ h => nomatch h

/-- Every command answers a next state. -/
theorem exec_after (i : Instr) (s : State) : exec i s = .next (after (exec i s)) := by
  rcases exec_cases i s with ⟨_, _, h⟩ | ⟨_, _, h, _⟩ | ⟨_, _, _, h, _⟩ <;> rw [h] <;> rfl

theorem fresh_inv : fresh.Inv :=
  ⟨by decide, by decide, ⟨.ok, by decide⟩, by decide, by decide, by decide, by decide⟩
theorem full_inv : full.Inv :=
  ⟨by decide, by decide, ⟨.ok, by decide⟩, by decide, by decide, by decide, by decide⟩
theorem freed_inv : freed.Inv :=
  ⟨by decide, by decide, ⟨.ok, by decide⟩, by decide, by decide, by decide, by decide⟩
theorem middle_inv : middle.Inv :=
  ⟨by decide, by decide, ⟨.ok, by decide⟩, by decide, by decide, by decide, by decide⟩
theorem reset_inv : State.reset.Inv :=
  ⟨by decide, by decide, ⟨.ok, by decide⟩, by decide, by decide, by decide, by decide⟩

theorem witness_ListedCommandsHaveTheirFiveWords : Config.reference.hasRaster = true := rfl

theorem witness_DecodeInvertsEncode :
    (Instr.circle 10#16 10#16 3#16).wellFormed .reference = true ∧ (Instr.free 154#16).wellFormed noRaster = true := by
  decide

theorem witness_EncodeInvertsDecode :
    decode .reference ⟨0x0035#16, 10#16, 10#16, 3#16, 0xFFFF#16⟩ = .ok (.circle 10#16 10#16 3#16) := rfl

theorem witness_UnreadArgumentsAreIgnored :
    let c : Command := ⟨0x0012#16, 30#16, 0#16, 0#16, 0#16⟩
    let d : Command := ⟨0x0012#16, 30#16, 1#16, 2#16, 3#16⟩
    let i := Instr.sqrt 30#16
    decode State.reset.cfg c = .ok i ∧ d.op = c.op ∧ (0 < argCount i → d.a0 = c.a0) ∧ (1 < argCount i → d.a1 = c.a1) ∧
      (2 < argCount i → d.a2 = c.a2) ∧ (3 < argCount i → d.a3 = c.a3) :=
  ⟨rfl, by decide⟩

/-- Both clauses, at the two ends of a legal run of words. -/
theorem witness_IllegalWordsRaiseIllegalCommand :
    (illegalOp .reference 0x0016#16 ∧ ¬ illegalOp .reference 0x0015#16) ∧
    (illegalOp .reference 0x0036#16 ∧ ¬ illegalOp .reference 0x0035#16) ∧
    (illegalOp noRaster 0x0030#16 ∧ ¬ illegalOp noRaster 0x0022#16) ∧
    (illegalOp .reference 0x0110#16 ∧ ¬ illegalOp .reference 0x0010#16) := by
  simp [illegalOp, Config.reference, noRaster]

theorem witness_StepRunsTheIssuedCommand :
    let c : Command := ⟨0x0010#16, 7#16, 0xFFFD#16, 0#16, 0#16⟩
    let s : State := { State.reset with host := [.issue c] }
    s.host = .issue c :: [] ∧ decode s.cfg c = .ok (.mul 7#16 0xFFFD#16) := ⟨rfl, rfl⟩

theorem witness_PlacedTableWordRunsNext :
    State.reset.cfg.hasRaster = true ∧ 0x0031 < 65536 ∧ decodeTableWord 16 0x0031 = some .clear := ⟨rfl, by decide, rfl⟩

/-- Every clause: the host reads, writes, and has nothing to do. -/
theorem witness_HostActsBetweenCommands :
    State.reset.host = [] ∧ { State.reset with host := [.readSt] }.host = .readSt :: [] ∧
      { State.reset with host := [.readR0] }.host = .readR0 :: [] ∧
      { State.reset with host := [.peek 0xFFFF#16] }.host = .peek 0xFFFF#16 :: [] ∧
      { State.reset with host := [.poke 0xFFFF#16 1#16] }.host = .poke 0xFFFF#16 1#16 :: [] ∧
      inMemory 0 ∧ (0 : Int) ≠ uval 0xFFFF#16 := by decide

/-- A reset of S7's base, and an HINIT that succeeds after it. -/
theorem witness_HostResetRestoresTheBlock :
    { freed with host := [.reset] }.host = .reset :: [] ∧
      (after (exec (.hinit 100#16 64#16) (after (step { freed with host := [.reset] })))).st = 0#16 := by decide

theorem witness_PowerOnState : (15 < 16) ∧ inMemory 0 ∧ inMemory 65535 := by decide

/-- Both clauses; of the second, the word `0x0000`. -/
theorem witness_ErrorsChangeOnlyTheStatus :
    (exec (.free 132#16) State.reset = .next (after (exec (.free 132#16) State.reset)) ∧
      (after (exec (.free 132#16) State.reset)).st ≠ 0#16) ∧
    (let s : State := { State.reset with host := [.issue ⟨0#16, 1#16, 2#16, 3#16, 4#16⟩] }
     s.host = .issue ⟨0#16, 1#16, 2#16, 3#16, 4#16⟩ :: [] ∧ step s = .next (after (step s)) ∧ (after (step s)).st ≠ 0#16) :=
  ⟨⟨exec_after _ _, by decide⟩, rfl, rfl, by decide⟩

/-- Both ways not to write `R0`. -/
theorem witness_ResultOnlyWithOk :
    exec (.setcolor 1#16) State.reset = .next (after (exec (.setcolor 1#16) State.reset)) ∧
      hasResult (.setcolor 1#16) = false ∧
      exec (.alloc 1#16) State.reset = .next (after (exec (.alloc 1#16) State.reset)) ∧
      (after (exec (.alloc 1#16) State.reset)).st ≠ 0#16 := ⟨exec_after _ _, rfl, exec_after _ _, by decide⟩

theorem witness_CommandsLeaveThePort :
    exec (.abs 5#16) State.reset = .next (after (exec (.abs 5#16) State.reset)) := exec_after _ _

/-- Two machines that differ in a register the host cannot see. -/
theorem witness_HostSeesOnlyStatusResultAndMemory :
    let s : State := { freed with host := [.readSt] }
    let s' : State := { freed with host := [.readSt], head := 100#16 }
    s.st = s'.st ∧ s.r0 = s'.r0 ∧ (∀ a, inMemory a → s.memRead a = s'.memRead a) ∧ s.host = s'.host ∧ s.seen = s'.seen ∧
      (∀ c rest, s.host ≠ .issue c :: rest) ∧ step s = .next (after (step s)) ∧ step s' = .next (after (step s')) :=
  ⟨rfl, rfl, fun _ _ => rfl, rfl, rfl, by simp, rfl, rfl⟩

theorem witness_UdivIsTheFloorQuotient : 1 ≤ uval 0xFFFF#16 ∧ 1 ≤ uval 1#16 ∧ 16 ≤ 16 ∧ 15 < 16 := by decide

/-- A zero divisor, the pair whose quotient does not fit, and one whose signs differ. -/
theorem witness_DivReconstructsTheDividend :
    (sval 0#16 = 0 ∧ exec (.div 5#16 0#16) State.reset = .next (after (exec (.div 5#16 0#16) State.reset))) ∧
    (sval 0xFFFF#16 ≠ 0 ∧ sval 0x8000#16 = -32768 ∧ sval 0xFFFF#16 = -1 ∧
      exec (.div 0x8000#16 0xFFFF#16) State.reset = .next (after (exec (.div 0x8000#16 0xFFFF#16) State.reset))) ∧
    (sval 2#16 ≠ 0 ∧ ¬(sval 0x8000#16 < 0 ↔ sval 2#16 < 0) ∧ ¬(sval 0x8000#16 = -32768 ∧ sval 2#16 = -1) ∧
      exec (.div 0x8000#16 2#16) State.reset = .next (after (exec (.div 0x8000#16 2#16) State.reset))) :=
  ⟨⟨by decide, exec_after _ _⟩, ⟨by decide, by decide, by decide, exec_after _ _⟩, by decide, by decide, by decide,
    exec_after _ _⟩

/-- The two clauses at the operands where they meet. -/
theorem witness_SqrtIsTheFloorRoot : sval 0xFFFF#16 < 0 ∧ 0 ≤ sval 0x0000#16 ∧ 0 ≤ sval 0x7FFF#16 := by decide

theorem witness_SqrtGuardDetectsOverflow :
    (1 ≤ uval 1#16 ∧ uval 1#16 ≤ 255) ∧ (1 ≤ uval 255#16 ∧ uval 255#16 ≤ 255) := by decide

/-- A command that changes the colour. -/
theorem witness_SetcolorSelectsTheColour :
    exec (.setcolor 0#16) State.reset = .next (after (exec (.setcolor 0#16) State.reset)) ∧
      (after (exec (.setcolor 0#16) State.reset)).color ≠ State.reset.color := ⟨exec_after _ _, by decide⟩

theorem witness_AbsGivesTheMagnitude : sval 0x8001#16 ≠ -32768 ∧ sval 0x8000#16 = -32768 := by decide

/-- The two machines differ in `R0`, `ST` and the heap. -/
theorem witness_ArithCommandsArePure :
    (Instr.mul 2#16 3#16).unit = .arith ∧
      exec (.mul 2#16 3#16) State.reset = .next (after (exec (.mul 2#16 3#16) State.reset)) ∧
      exec (.mul 2#16 3#16) freed = .next (after (exec (.mul 2#16 3#16) freed)) ∧ State.reset.r0 = freed.r0 :=
  ⟨rfl, exec_after _ _, exec_after _ _, rfl⟩

/-- Each clause: a heap already laid; each reason to refuse a range, at its edge; the largest heap below the frame buffer, and
one that ends where memory ends. -/
theorem witness_HinitLaysOneFreeNode :
    fresh.hinited = true ∧ State.reset.hinited = false ∧
    (sval 1#16 < 2 ∧ 65536 < uval 0xFFFF#16 + sval 2#16 ∧
      (State.reset.cfg.hasRaster = true ∧ uval 16000#16 < (State.reset.cfg.screenBase.val : Int) + 8192 ∧
        (State.reset.cfg.screenBase.val : Int) < uval 16000#16 + sval 385#16)) ∧
    (2 ≤ sval 384#16 ∧ uval 16000#16 + sval 384#16 ≤ 65536 ∧
      uval 16000#16 + sval 384#16 ≤ (State.reset.cfg.screenBase.val : Int)) ∧
    (2 ≤ sval 2#16 ∧ uval 0xFFFE#16 + sval 2#16 ≤ 65536 ∧
      (State.reset.cfg.screenBase.val : Int) + 8192 ≤ uval 0xFFFE#16) := by decide

/-- S4's last line, whose first node fits; and a request that passes node 152 by. -/
theorem witness_AllocTakesTheFirstFit :
    (freed.hinited = true ∧ 0 < sval 8#16 ∧ freed.walksTo freed.head [] 152#16 ∧ 0 < freed.maxNodes ∧
      freed.passable 152#16 ∧ validLen freed 152#16 (freed.memRead (uval 152#16 + 1)) ∧
      sval 8#16 + 2 ≤ sval (freed.memRead (uval 152#16 + 1))) ∧
    (0 < sval 9#16 ∧ freed.walksTo freed.head [152#16] 100#16 ∧ 1 < freed.maxNodes ∧
      (∀ x ∈ [152#16], freed.tooSmall (sval 9#16 + 2) x) ∧ freed.passable 100#16 ∧
      validLen freed 100#16 (freed.memRead (uval 100#16 + 1)) ∧
      sval 9#16 + 2 ≤ sval (freed.memRead (uval 100#16 + 1))) :=
  ⟨⟨by decide, by decide, by simp only [State.walksTo]; decide, by decide, by decide, by decide, by decide⟩,
    by decide, by simp only [State.walksTo]; decide, by decide, each_cons (by decide) each_nil, by decide, by decide, by decide⟩

theorem witness_AllocFrame :
    freed.Inv ∧ exec (.alloc 5#16) freed = .next (after (exec (.alloc 5#16) freed)) ∧
      (after (exec (.alloc 5#16) freed)).st = 0#16 := ⟨freed_inv, exec_after _ _, by decide⟩

/-- Each clause, at the size where the second one ends. -/
theorem witness_AllocRefusesBadRequests : State.reset.hinited = false ∧ fresh.hinited = true ∧ sval 0#16 ≤ 0 := by decide

/-- S6: the request of 13 on the node of length 14, here with 62: 61 is refused, 60 would fit. -/
theorem witness_AllocReportsOutOfMemory :
    fresh.hinited = true ∧ 0 < sval 61#16 ∧ fresh.walksTo fresh.head [100#16] nilWord ∧ 1 ≤ fresh.maxNodes ∧
      (∀ x ∈ [100#16], fresh.tooSmall (sval 61#16 + 2) x) ∧ ¬ fresh.tooSmall (sval 60#16 + 2) 100#16 :=
  ⟨by decide, by decide, by simp only [State.walksTo]; decide, by decide, each_cons (by decide) each_nil, by decide⟩

/-- Each of the three reasons: S7's bad `next`, a list too long (a node that is its own next), and S7's bad length. -/
theorem witness_AllocReportsACorruptList :
    (let s := freed.memWrite 152 50#16
     s.hinited = true ∧ 0 < sval 20#16 ∧ s.walksTo s.head [152#16] 50#16 ∧ 1 ≤ s.maxNodes ∧
      (∀ x ∈ [152#16], s.tooSmall (sval 20#16 + 2) x) ∧ 50#16 ≠ nilWord ∧ ¬ validNode s 50#16) ∧
    (let s := small.memWrite 100 100#16
     s.hinited = true ∧ 0 < sval 1#16 ∧ s.walksTo s.head [100#16, 100#16] 100#16 ∧
      [100#16, 100#16].length = s.maxNodes ∧ (∀ x ∈ [100#16, 100#16], s.tooSmall (sval 1#16 + 2) x) ∧
      100#16 ≠ nilWord) ∧
    (let s := freed.memWrite 153 11#16
     s.hinited = true ∧ 0 < sval 5#16 ∧ s.walksTo s.head [] 152#16 ∧ 0 ≤ s.maxNodes ∧ 152#16 ≠ nilWord ∧
      ¬ validLen s 152#16 (s.memRead (uval 152#16 + 1))) :=
  ⟨⟨by decide, by decide, by simp only [State.walksTo]; decide, by decide, each_cons (by decide) each_nil, by decide, by decide⟩,
    ⟨by decide, by decide, by simp only [State.walksTo]; decide, by decide, each_cons (by decide) (each_cons (by decide) each_nil), by decide⟩,
    by decide, by decide, by simp only [State.walksTo]; decide, by decide, by decide, by decide⟩

/-- S6: the capacity of a heap of 16 words is 12; both clauses at that edge. -/
theorem witness_FreshHeapCapacity :
    exec (.hinit 100#16 16#16) State.reset = .next (after (exec (.hinit 100#16 16#16) State.reset)) ∧
      (after (exec (.hinit 100#16 16#16) State.reset)).st = 0#16 ∧
      (0 < sval 12#16 ∧ sval 12#16 ≤ sval 16#16 - 4) ∧ (0 < sval 13#16 ∧ sval 16#16 - 4 < sval 13#16) :=
  ⟨exec_after _ _, by decide, by decide, by decide⟩

/-- The exact fit of the fresh heap's node, and one order that is not the rule's own. -/
theorem witness_AllocWritesInAnyOrder :
    uval 100#16 + 2 + sval 62#16 ≤ 65536 ∧ 0 < sval 60#16 ∧ sval 60#16 + 2 ≤ sval 62#16 ∧
      (fresh.hinited = true ∧ allocWalk fresh (sval 60#16 + 2) fresh.maxNodes fresh.head = .ok (100#16, 62#16)) ∧
      [((102 : Int), 0xFFFF#16), (103, 60#16), (101, 0#16)].Perm
        [(uval 100#16 + 1, wrap (sval 62#16 - (sval 60#16 + 2))), (carveAddr 100#16 62#16 (sval 60#16), 0xFFFF#16),
          (carveAddr 100#16 62#16 (sval 60#16) + 1, 60#16)] := by decide

/-- Each of the three reasons for no merge: no `COALESCE`, the block ends the heap, no node of the list starts after it. -/
theorem witness_FreeLinksAtTheHead :
    (let s := { middle with cfg := { middle.cfg with coalesce := false } }
     s.hinited = true ∧ s.isLive (uval 146#16) = true ∧ 0 < sval (s.memRead (uval 146#16 - 1)) ∧
      uval 146#16 + sval (s.memRead (uval 146#16 - 1)) ≤ s.hend ∧ s.cfg.coalesce = false) ∧
    (full.hinited = true ∧ full.isLive (uval 154#16) = true ∧ 0 < sval (full.memRead (uval 154#16 - 1)) ∧
      uval 154#16 + sval (full.memRead (uval 154#16 - 1)) = full.hend) ∧
    (full.isLive (uval 132#16) = true ∧ 0 < sval (full.memRead (uval 132#16 - 1)) ∧
      uval 132#16 + sval (full.memRead (uval 132#16 - 1)) ≤ full.hend ∧ full.walksTo full.head [100#16] nilWord ∧
      [100#16].length ≤ full.maxNodes ∧
      ∀ x ∈ [100#16], full.passable x ∧ uval x ≠ uval 132#16 + sval (full.memRead (uval 132#16 - 1))) :=
  ⟨by decide, by decide, by decide, by decide, by decide, by simp only [State.walksTo]; decide, by decide,
    each_cons (by decide) each_nil⟩

/-- Both ways to unlink: P4's line 7, whose neighbour is behind node 134; and `FREE 132` in S7's base, whose neighbour is at
the head of the list. -/
theorem witness_FreeMergesTheFollowingBlock :
    (middle.hinited = true ∧ middle.isLive (uval 146#16) = true ∧ 8#16 = middle.memRead (uval 146#16 - 1) ∧
      0 < sval 8#16 ∧ middle.cfg.coalesce = true ∧ uval 154#16 = uval 146#16 + sval 8#16 ∧ uval 154#16 < middle.hend ∧
      middle.walksTo middle.head [134#16] 154#16 ∧ [134#16].length < middle.maxNodes ∧
      (∀ x ∈ [134#16], middle.passable x ∧ x ≠ 154#16) ∧ middle.passable 154#16 ∧
      8#16 = middle.memRead (uval 154#16 + 1) ∧ validLen middle 154#16 8#16 ∧ 100#16 = middle.memRead (uval 154#16)) ∧
    (freed.hinited = true ∧ freed.isLive (uval 132#16) = true ∧ 20#16 = freed.memRead (uval 132#16 - 1) ∧
      0 < sval 20#16 ∧ freed.cfg.coalesce = true ∧ uval 152#16 = uval 132#16 + sval 20#16 ∧ uval 152#16 < freed.hend ∧
      freed.walksTo freed.head [] 152#16 ∧ 0 < freed.maxNodes ∧ freed.passable 152#16 ∧
      10#16 = freed.memRead (uval 152#16 + 1) ∧ validLen freed 152#16 10#16 ∧ 100#16 = freed.memRead (uval 152#16)) :=
  ⟨⟨by decide, by decide, by decide, by decide, by decide, by decide, by decide,
      by simp only [State.walksTo]; decide, by decide, each_cons (by decide) each_nil, by decide, by decide, by decide, by decide⟩,
    by decide, by decide, by decide, by decide, by decide, by decide, by decide,
    by simp only [State.walksTo]; decide, by decide, by decide, by decide, by decide, by decide⟩

/-- Each clause; of the third, S7's two bad size words, one past the last good one. -/
theorem witness_FreeErrorsBeforeTheWalk :
    State.reset.hinited = false ∧ (freed.hinited = true ∧ freed.isLive (uval 131#16) = false) ∧
      (let s := freed.memWrite 131 0#16
       s.hinited = true ∧ s.isLive (uval 132#16) = true ∧ sval (s.memRead (uval 132#16 - 1)) ≤ 0) ∧
      (let s := freed.memWrite 131 33#16
       s.hinited = true ∧ s.isLive (uval 132#16) = true ∧
        s.hend < uval 132#16 + sval (s.memRead (uval 132#16 - 1))) := by decide

/-- Each of the three reasons: a bad `next` met in the search, a list too long, a neighbour with a bad length. -/
theorem witness_FreeReportsACorruptList :
    (let s := middle.memWrite 134 7#16
     s.hinited = true ∧ s.isLive (uval 146#16) = true ∧ 0 < sval (s.memRead (uval 146#16 - 1)) ∧
      (154 : Int) = uval 146#16 + sval (s.memRead (uval 146#16 - 1)) ∧ 154 < s.hend ∧ s.cfg.coalesce = true ∧
      s.walksTo s.head [134#16] 7#16 ∧ 1 ≤ s.maxNodes ∧ (∀ x ∈ [134#16], s.passable x ∧ uval x ≠ 154) ∧
      7#16 ≠ nilWord ∧ ¬ validNode s 7#16) ∧
    (let s := heap 100#16 8#16 100#16 [104] [(100, 100#16), (103, 1#16)]
     s.hinited = true ∧ s.isLive (uval 104#16) = true ∧ 0 < sval (s.memRead (uval 104#16 - 1)) ∧
      (105 : Int) = uval 104#16 + sval (s.memRead (uval 104#16 - 1)) ∧ 105 < s.hend ∧ s.cfg.coalesce = true ∧
      s.walksTo s.head [100#16, 100#16, 100#16, 100#16] 100#16 ∧
      [100#16, 100#16, 100#16, 100#16].length = s.maxNodes ∧
      (∀ x ∈ [100#16, 100#16, 100#16, 100#16], s.passable x ∧ uval x ≠ 105) ∧ 100#16 ≠ nilWord) ∧
    (let s := middle.memWrite 155 9#16
     s.hinited = true ∧ s.isLive (uval 146#16) = true ∧ 0 < sval (s.memRead (uval 146#16 - 1)) ∧
      (154 : Int) = uval 146#16 + sval (s.memRead (uval 146#16 - 1)) ∧ 154 < s.hend ∧ s.cfg.coalesce = true ∧
      s.walksTo s.head [134#16] 154#16 ∧ 1 ≤ s.maxNodes ∧ (∀ x ∈ [134#16], s.passable x ∧ uval x ≠ 154) ∧
      154#16 ≠ nilWord ∧ uval 154#16 = 154 ∧ ¬ validLen s 154#16 (s.memRead (154 + 1))) :=
  ⟨⟨by decide, by decide, by decide, by decide, by decide, by decide, by simp only [State.walksTo]; decide, by decide, each_cons (by decide) each_nil, by decide, by decide⟩,
    ⟨by decide, by decide, by decide, by decide, by decide, by decide, by simp only [State.walksTo]; decide, by decide,
      each_cons (by decide) (each_cons (by decide) (each_cons (by decide) (each_cons (by decide) each_nil))), by decide⟩,
    by decide, by decide, by decide, by decide, by decide, by decide, by simp only [State.walksTo]; decide, by decide, each_cons (by decide) each_nil, by decide, by decide, by decide⟩

/-- The two ways the third word goes: P4's line 7, where the neighbour is behind node 134; and `FREE 132` in S7's base, where
it is at the head of the list. -/
theorem witness_FreeFrame :
    (middle.Inv ∧ exec (.free 146#16) middle = .next (after (exec (.free 146#16) middle)) ∧
      (after (exec (.free 146#16) middle)).st = 0#16 ∧
      freeNeighbour middle 154 = .ok (some { prev := some 134#16, len := 8#16, next := 100#16 }) ∧ middle.inHeap 134) ∧
    (freed.Inv ∧ exec (.free 132#16) freed = .next (after (exec (.free 132#16) freed)) ∧
      (after (exec (.free 132#16) freed)).st = 0#16 ∧
      freeNeighbour freed 152 = .ok (some { prev := none, len := 10#16, next := 100#16 })) :=
  ⟨⟨middle_inv, exec_after _ _, by decide, by decide, by decide⟩, freed_inv, exec_after _ _, by decide, by decide⟩

/-- P4's lines 7 and 8: the request of 16 fits the merged block of 18 exactly. -/
theorem witness_FreedBlockIsReusedFirst :
    middle.Inv ∧ exec (.free 146#16) middle = .next (after (exec (.free 146#16) middle)) ∧
      (after (exec (.free 146#16) middle)).st = 0#16 ∧ 0 < sval 16#16 ∧
      sval 16#16 + 2 ≤ sval ((after (exec (.free 146#16) middle)).memRead (uval 146#16 - 1)) :=
  ⟨middle_inv, exec_after _ _, by decide, by decide, by decide⟩

/-- Two machines that differ in a word outside the heap. -/
theorem witness_HeapCommandsIgnoreOtherMemory :
    let s' := { freed with mem := (freed.memWrite 0 5#16).mem }
    (Instr.alloc 5#16).unit = .heap ∧ freed.Inv ∧ freed.hinited = true ∧ s' = { freed with mem := s'.mem } ∧
      (∀ a, freed.inHeap a → freed.memRead a = s'.memRead a) ∧
      exec (.alloc 5#16) freed = .next (after (exec (.alloc 5#16) freed)) ∧
      exec (.alloc 5#16) s' = .next (after (exec (.alloc 5#16) s')) := by
  refine ⟨rfl, freed_inv, rfl, rfl, fun a h => ?_, exec_after _ _, exec_after _ _⟩
  have h1 : (100 : Int) ≤ a := h.1
  have h2 : a < 164 := h.2
  exact ((State.memRead_memWrite_of_range freed (a := 0) (b := a) (by decide) ⟨by omega, by omega⟩ 5#16).trans
    (if_neg (by omega))).symm

theorem witness_HinitMakesTheHeapWellFormed :
    State.reset.Inv ∧ State.reset.hinited = false ∧
      exec (.hinit 100#16 64#16) State.reset = .next (after (exec (.hinit 100#16 64#16) State.reset)) ∧
      (after (exec (.hinit 100#16 64#16) State.reset)).st = 0#16 := ⟨reset_inv, rfl, exec_after _ _, by decide⟩

/-- The blocks of S4 after its fourth line: `(100, 28, F)`, `(130, 20, A)`, `(152, 10, F)`. -/
theorem freed_laidOut :
    freed.HeapLaidOut [⟨100, 28, true⟩, ⟨130, 20, false⟩, ⟨152, 10, true⟩] [152, 100] where
  inited := rfl
  tiling := ⟨rfl, by decide, rfl, by decide, rfl, by decide, rfl⟩
  lengths := by decide
  walk := by simp only [State.freeListFrom]; decide
  noCycle := by decide
  free := by intro a; simp; omega
  allocated := by
    intro a ha
    rw [State.isLive_iff]
    have := toNat_wrap_of_range ha
    simp [freed, heap]
    omega
  sizes := by decide

theorem witness_AllocKeepsTheHeapWellFormed :
    freed.Inv ∧ freed.heapWellFormed ∧ exec (.alloc 5#16) freed = .next (after (exec (.alloc 5#16) freed)) :=
  ⟨freed_inv, ⟨_, _, freed_laidOut⟩, exec_after _ _⟩

theorem witness_FreeKeepsTheHeapWellFormed :
    freed.Inv ∧ freed.heapWellFormed ∧ exec (.free 132#16) freed = .next (after (exec (.free 132#16) freed)) :=
  ⟨freed_inv, ⟨_, _, freed_laidOut⟩, exec_after _ _⟩

/-- A host write to the first payload word of the live block. -/
theorem witness_PayloadWritesKeepTheHeapWellFormed :
    freed.Inv ∧ freed.HeapLaidOut [⟨100, 28, true⟩, ⟨130, 20, false⟩, ⟨152, 10, true⟩] [152, 100] ∧
      (∀ k ∈ [(⟨100, 28, true⟩ : Block), ⟨130, 20, false⟩, ⟨152, 10, true⟩],
        uval 132#16 ≠ k.header ∧ uval 132#16 ≠ k.header + 1) ∧
      { freed with host := [.poke 132#16 0x1234#16] }.host = .poke 132#16 0x1234#16 :: [] :=
  ⟨freed_inv, freed_laidOut, by decide, rfl⟩

theorem witness_WellFormedHeapIsNeverCorrupt :
    freed.Inv ∧ freed.heapWellFormed ∧ exec (.alloc 40#16) freed = .next (after (exec (.alloc 40#16) freed)) :=
  ⟨freed_inv, ⟨_, _, freed_laidOut⟩, exec_after _ _⟩

/-- Both clauses, at the corners of the screen. -/
theorem witness_PixelPaintsOnePixel :
    ¬ onScreen (sval 512#16) (sval 0#16) ∧ ¬ onScreen (sval 0#16) (sval 256#16) ∧
      ¬ onScreen (sval 0xFFFF#16) (sval 0#16) ∧ onScreen (sval 511#16) (sval 255#16) ∧
      onScreen (sval 0#16) (sval 0#16) := by decide

theorem witness_LinePaintsItsWalk :
    (onScreen (sval 0#16) (sval 0#16) ∧ ¬ onScreen (sval 512#16) (sval 0#16)) ∧
      (onScreen (sval 0#16) (sval 255#16) ∧ onScreen (sval 511#16) (sval 0#16)) := by decide

theorem witness_StraightLinesAreRuns : ((3 : Int) = 3 ∨ (0 : Int) = 5) ∧ ((0 : Int) = 5 ∨ (7 : Int) = 7) := by decide

theorem witness_SlantedLinesAreStaircases :
    (0 : Int) ≠ 3 ∧ (0 : Int) ≠ 2 ∧ onScreen 0 0 ∧ onScreen 3 2 ∧ 4 < ((3 : Int) - 0).natAbs + ((2 : Int) - 0).natAbs := by decide

theorem witness_RectFillsTheRectangle :
    (onScreen (sval 0#16) (sval 0#16) ∧ ¬ onScreen (sval 512#16) (sval 1#16)) ∧
      (onScreen (sval 511#16) (sval 0#16) ∧ onScreen (sval 0#16) (sval 255#16)) := by decide

/-- S8.4's largest circle, whose bounding square touches the edge of the screen. -/
theorem witness_CircleFillsTheDisc :
    0 ≤ sval 127#16 ∧ onScreen (sval 384#16 - sval 127#16) (sval 128#16 - sval 127#16) ∧
      onScreen (sval 384#16 + sval 127#16) (sval 128#16 + sval 127#16) := by decide

/-- Each of the three reasons. -/
theorem witness_CircleErrors :
    sval 0xFFFF#16 < 0 ∧ ¬ onScreen (sval 2#16 - sval 3#16) (sval 10#16 - sval 3#16) ∧
      ¬ onScreen (sval 385#16 + sval 127#16) (sval 128#16 + sval 127#16) := by decide

/-- Two machines that differ in a word outside the frame buffer. -/
theorem witness_RasterCommandsIgnoreOtherMemory :
    let s' := { freed with mem := (freed.memWrite 100 5#16).mem }
    (Instr.pixel 0#16 0#16).unit = .raster ∧ s' = { freed with mem := s'.mem } ∧
      (∀ a, freed.inFrame a → freed.memRead a = s'.memRead a) ∧
      exec (.pixel 0#16 0#16) freed = .next (after (exec (.pixel 0#16 0#16) freed)) ∧
      exec (.pixel 0#16 0#16) s' = .next (after (exec (.pixel 0#16 0#16) s')) := by
  refine ⟨rfl, rfl, fun a h => ?_, exec_after _ _, exec_after _ _⟩
  have h1 : (16384 : Int) ≤ a := h.1
  have h2 : a < 16384 + 8192 := h.2
  exact ((State.memRead_memWrite_of_range freed (a := 100) (b := a) (by decide) ⟨by omega, by omega⟩ 5#16).trans
    (if_neg (by omega))).symm

/-- One command of each unit, and a word outside its region. -/
theorem witness_CommandsWriteOnlyTheirRegion :
    (State.reset.Inv ∧ exec (.mul 2#16 3#16) State.reset = .next (after (exec (.mul 2#16 3#16) State.reset)) ∧
      inMemory 65535) ∧
    (freed.Inv ∧ exec (.alloc 5#16) freed = .next (after (exec (.alloc 5#16) freed)) ∧ inMemory 164 ∧
      ¬ (after (exec (.alloc 5#16) freed)).inHeap 164) ∧
    (exec (.pixel 0#16 0#16) freed = .next (after (exec (.pixel 0#16 0#16) freed)) ∧ inMemory 24576 ∧
      ¬ freed.inFrame 24576) :=
  ⟨⟨reset_inv, exec_after _ _, by decide⟩, ⟨freed_inv, exec_after _ _, by decide, by decide⟩, exec_after _ _, by decide,
    by decide⟩

/-- The step issues a command that writes memory, from a state with a heap and a live block. -/
theorem witness_EveryStepKeepsTheInvariant :
    { freed with host := [.issue ⟨0x0021#16, 5#16, 0#16, 0#16, 0#16⟩] }.Inv ∧
      step { freed with host := [.issue ⟨0x0021#16, 5#16, 0#16, 0#16, 0#16⟩] } =
        exec (.alloc 5#16) { freed with op := 0x0021#16, a0 := 5#16 } :=
  ⟨⟨by decide, by decide, ⟨.ok, by decide⟩, by decide, by decide, by decide, by decide⟩, rfl⟩

end Sys2Proof.Tests
end

section
/-! PROOFS. The statements of 10_state.md: the step by the host's next action, the state at power-on, what no command writes,
and the machine's invariant. -/

namespace Sys2Proof.Machine

/-! ## The step, by the host's next action (70_reset_and_hazards.md R236) -/

section StepEquations

variable {s : State} {rest : List HostAction}

theorem step_of_nil (h : s.host = []) : step s = .next s := by unfold step; rw [h]

theorem step_of_issue {c : Command} (h : s.host = .issue c :: rest) : step s = runPort ((s.hostDone rest).present c) := by
  unfold step; rw [h]

theorem step_of_readSt (h : s.host = .readSt :: rest) : step s = .next ((s.hostDone rest).hostSees s.st) := by
  unfold step; rw [h]

theorem step_of_readR0 (h : s.host = .readR0 :: rest) : step s = .next ((s.hostDone rest).hostSees s.r0) := by
  unfold step; rw [h]

theorem step_of_peek {a : Word} (h : s.host = .peek a :: rest) :
    step s = .next ((s.hostDone rest).hostSees (s.memRead (uval a))) := by unfold step; rw [h]

theorem step_of_poke {a v : Word} (h : s.host = .poke a v :: rest) :
    step s = .next ((s.hostDone rest).memWrite (uval a) v) := by unfold step; rw [h]

theorem step_of_reset (h : s.host = .reset :: rest) : step s = .next (s.hostDone rest).applyReset := by
  unfold step; rw [h]

end StepEquations

theorem runPort_of_decode {s : State} {i : Instr} (h : decode s.cfg s.port = .ok i) : runPort s = exec i s := by
  unfold runPort; rw [h]

/-- The block answers the words at its port with a command's meaning or with `IllegalCommand` (30_encoding.md R75). -/
theorem runPort_cases (s : State) : (∃ i, runPort s = exec i s) ∨ runPort s = raise .illegalCommand s := by
  unfold runPort
  cases decode s.cfg s.port with
  | ok i => exact .inl ⟨i, rfl⟩
  | error e => exact .inr rfl

/-- Settles O6: the port, read back, is the issued command, so the step runs what it decodes to. -/
theorem stepRunsTheIssuedCommand : Obligations.StepRunsTheIssuedCommand := by
  intro s c rest i hhost hdec
  rw [step_of_issue hhost]
  exact runPort_of_decode hdec

/-! ## A placed table word (30_encoding.md R72) -/

/-- Decoding asks the machine's arguments for nothing but the presence of the RASTER unit (30_encoding.md R76). -/
theorem decode_congr {cfg cfg' : Config} (h : cfg.hasRaster = cfg'.hasRaster) (c : Command) :
    decode cfg c = decode cfg' c := by
  simp only [decode, rasterRow, h]

theorem decodeTableWord_eq_some {nbits w : Nat} {i : Instr} :
    decodeTableWord nbits w = some i ↔ decode .reference (.ofNat (w % 2 ^ nbits)) = .ok i := by
  unfold decodeTableWord
  cases decode .reference (.ofNat (w % 2 ^ nbits)) <;> simp

/-- The number of a table word is `OP` with four zero arguments. -/
theorem commandOfNat_tableWord (w : Nat) :
    Command.ofNat (w % 2 ^ 16) = ⟨BitVec.ofNat 16 w, 0#16, 0#16, 0#16, 0#16⟩ := by
  have hop : BitVec.ofNat 16 (w % 2 ^ 16) = BitVec.ofNat 16 w := BitVec.eq_of_toNat_eq (by simp)
  have hargs : ∀ k, 16 ≤ k → w % 2 ^ 16 / 2 ^ k = 0 := fun k hk =>
    Nat.div_eq_of_lt ((Nat.mod_lt w (by decide)).trans_le (Nat.pow_le_pow_right (n := 2) (by decide) hk))
  rw [Command.ofNat, hop, hargs 16 (by decide), hargs 32 (by decide), hargs 48 (by decide), hargs 64 (by decide)]

/-- Settles O7: the placed word is the host's next action, so O6 applies to it. -/
theorem placedTableWordRunsNext : Obligations.PlacedTableWordRunsNext := by
  intro s w i hraster _ hdec
  have hplaced : (s.withFetchWord 16 w).host = .issue (.ofNat (w % 2 ^ 16)) :: s.host := rfl
  have hcfg : s.cfg.hasRaster = Config.reference.hasRaster := hraster
  rw [decodeTableWord_eq_some, ← decode_congr hcfg] at hdec
  rw [stepRunsTheIssuedCommand _ _ _ _ hplaced hdec, commandOfNat_tableWord]
  rfl

/-! ## Power-on (10_state.md R35) -/

theorem pow2_eq_wrap (j : Nat) : pow2 j = wrap (2 ^ j) := by
  have hcast : ((2 ^ j : Nat) : Int) = 2 ^ j := by push_cast; rfl
  rw [pow2, wrap, ← hcast, BitVec.ofInt_natCast]

theorem isLive_reset (a : Int) : State.reset.isLive a = false := by
  simp [State.isLive, State.reset]

theorem memRead_reset {a : Int} (ha : inMemory a) : State.reset.memRead a = Config.unwrittenWord a.toNat := by
  have haddr : (wrap a).toNat = a.toNat := by have := toNat_wrap_of_range ha; omega
  rw [← haddr]; rfl

/-- Settles O10: the registers are the table's; memory holds no written word. -/
theorem powerOnState : Obligations.PowerOnState :=
  ⟨rfl, rfl, rfl, rfl, rfl, rfl, rfl, rfl, rfl, rfl, rfl, rfl, fun j _ => pow2_eq_wrap j, isLive_reset,
    fun _ ha => memRead_reset ha⟩

/-! ## What no command writes (10_state.md R21, R22) -/

/-- Settles O14: an error writes `ST` alone, and the `OK` that writes `R0` is a command's with a result. -/
theorem resultOnlyWithOk : Obligations.ResultOnlyWithOk := by
  intro i s t ht hno
  rcases exec_cases i s with ⟨e, -, h⟩ | ⟨-, u, h, hu⟩ | ⟨hres, v, u, h, -⟩ <;> rw [h] at ht
  case inl => rw [raise_eq_next.1 ht]
  case inr.inl => rw [complete_eq_next.1 ht, hu]
  case inr.inr =>
    have hok : t.st = 0x0000#16 := by rw [completeWith_eq_next.1 ht]
    rcases hno with hno | hno
    · rw [hres] at hno; cases hno
    · exact absurd hok hno

/-- Settles O15: none of the three ends of a command touches these fields. -/
theorem commandsLeaveThePort : Obligations.CommandsLeaveThePort := by
  intro i s t ht
  rcases exec_cases i s with ⟨e, -, h⟩ | ⟨-, u, h, hu⟩ | ⟨-, v, u, h, hu⟩ <;> rw [h] at ht
  case inl => rw [raise_eq_next.1 ht]; exact ⟨rfl, rfl, rfl, rfl, rfl, rfl, rfl, rfl⟩
  case inr.inl => rw [complete_eq_next.1 ht, hu]; exact ⟨rfl, rfl, rfl, rfl, rfl, rfl, rfl, rfl⟩
  case inr.inr => rw [completeWith_eq_next.1 ht, hu]; exact ⟨rfl, rfl, rfl, rfl, rfl, rfl, rfl, rfl⟩

/-! ## What the host can see (10_state.md R36) -/

theorem inMemory_uval (w : Word) : inMemory (uval w) := ⟨uval_nonneg w, uval_lt w⟩

/-- Settles O16: each action of the host adds at most the one word it read, and the two machines agree on that word. -/
theorem hostSeesOnlyStatusResultAndMemory : Obligations.HostSeesOnlyStatusResultAndMemory := by
  intro s s' t t' hst hr0 hmem hhost hseen hno ht ht'
  have hcompare {u u' : State} (hu : step s = .next u) (hu' : step s' = .next u') (h : u.seen = u'.seen) :
      t.seen = t'.seen := by
    rw [← Host.Outcome.next.inj (hu.symm.trans ht), ← Host.Outcome.next.inj (hu'.symm.trans ht'), h]
  rcases hh : s.host with _ | ⟨c | _ | _ | a | ⟨a, v⟩ | _, rest⟩ <;> have hh' := hhost.symm.trans hh
  case nil => exact hcompare (step_of_nil hh) (step_of_nil hh') hseen
  case cons.issue => exact absurd hh (hno c rest)
  case cons.readSt => exact hcompare (step_of_readSt hh) (step_of_readSt hh') (congrArg₂ List.cons hst hseen)
  case cons.readR0 => exact hcompare (step_of_readR0 hh) (step_of_readR0 hh') (congrArg₂ List.cons hr0 hseen)
  case cons.peek =>
    exact hcompare (step_of_peek hh) (step_of_peek hh') (congrArg₂ List.cons (hmem _ (inMemory_uval a)) hseen)
  case cons.poke => exact hcompare (step_of_poke hh) (step_of_poke hh') hseen
  case cons.reset => exact hcompare (step_of_reset hh) (step_of_reset hh') hseen

/-! ## The machine's invariant -/

section Invariant

variable {s t : State}

/-- The invariant is kept by whatever leaves the heap registers, `LIVE` and the arguments alone, memory in its canonical form,
and one of the twelve codes in `ST`. -/
theorem State.Inv.of_same_heap (h : s.Inv)
    (ht : t = { s with
      op := t.op, a0 := t.a0, a1 := t.a1, a2 := t.a2, a3 := t.a3, r0 := t.r0, st := t.st, color := t.color, mem := t.mem,
      host := t.host, seen := t.seen })
    (hmem : t.mem.wf) (hst : ∃ c : Status, t.st = c.code) : t.Inv := by
  rw [ht]
  exact { h with memWf := hmem, statusLegal := hst }

/-- Before HINIT, with nothing allocated and an empty free list, the heap clauses hold of themselves (10_state.md R28, R31). -/
theorem State.Inv.of_not_hinited (hmem : s.mem.wf) (hst : ∃ c : Status, s.st = c.code) (hinited : s.hinited = false)
    (hlive : s.live = []) (hhead : s.head = nilWord) : s.Inv where
  memWf := hmem
  liveWf := by rw [hlive]; decide
  statusLegal := hst
  beforeInit _ := ⟨hlive, hhead⟩
  heapPlaced h := absurd h (by simp [hinited])
  headLegal h := absurd h (by simp [hinited])
  liveInHeap a ha := by simp [hlive] at ha

/-! How a command ends keeps the invariant. -/

theorem State.Inv.of_raise {e : Status} (h : s.Inv) (ht : raise e s = .next t) : t.Inv := by
  rw [raise_eq_next.1 ht]; exact h.of_same_heap rfl h.memWf ⟨e, rfl⟩

theorem State.Inv.of_complete (h : s.Inv) (ht : complete s = .next t) : t.Inv := by
  rw [complete_eq_next.1 ht]; exact h.of_same_heap rfl h.memWf ⟨.ok, rfl⟩

theorem State.Inv.of_completeWith {v : Word} (h : s.Inv) (ht : completeWith v s = .next t) : t.Inv := by
  rw [completeWith_eq_next.1 ht]; exact h.of_same_heap rfl h.memWf ⟨.ok, rfl⟩

/-! What the host does keeps the invariant. -/

theorem State.Inv.hostDone (h : s.Inv) (rest : List HostAction) : (s.hostDone rest).Inv :=
  h.of_same_heap rfl h.memWf h.statusLegal

theorem State.Inv.present (h : s.Inv) (c : Command) : (s.present c).Inv :=
  h.of_same_heap rfl h.memWf h.statusLegal

theorem State.Inv.hostSees (h : s.Inv) (w : Word) : (s.hostSees w).Inv :=
  h.of_same_heap rfl h.memWf h.statusLegal

theorem State.Inv.applyReset (h : s.Inv) : s.applyReset.Inv :=
  .of_not_hinited h.memWf ⟨.ok, rfl⟩ rfl rfl rfl

/-! The writes of the host and of the units keep the invariant. -/

theorem State.Inv.memWrite (h : s.Inv) (a : Int) (v : Word) : (s.memWrite a v).Inv :=
  h.of_same_heap rfl (State.memWrite_wf h.memWf a v) h.statusLegal

theorem State.Inv.memFill (h : s.Inv) (base : Int) (v : Word) (n : Nat) : (State.memFill base v n s).Inv := by
  induction n generalizing s with
  | zero => exact h
  | succ n ih => exact ih (h.memWrite _ _)

theorem State.Inv.plotAll (h : s.Inv) (ps : List Point) : (s.plotAll ps).Inv := by
  induction ps generalizing s with
  | nil => exact h
  | cons p ps ih => exact ih (h.memWrite _ _)

/-- HINIT places the heap where its checks allow, with `HEAD` at the first header; nothing was allocated before (R131). -/
theorem State.Inv.layHeap {b n : Word} (h : s.Inv) (hinited : s.hinited = false)
    (hrange : heapRangeOk s.cfg (uval b) (sval n)) : (s.layHeap b n).Inv where
  memWf := ((h.memWrite _ _).memWrite _ _).memWf
  liveWf := h.liveWf
  statusLegal := h.statusLegal
  beforeInit hn := by cases hn
  heapPlaced _ := by simpa using hrange
  headLegal _ := by
    have hsize := hrange.1
    right
    simp only [validNode, State.hend, State.layHeap_head, State.layHeap_hbase, State.layHeap_hsize, wrap_uval, wrap_sval]
    omega
  liveInHeap a ha := by
    have hlive : s.live = [] := (h.beforeInit hinited).1
    rw [State.layHeap_live, hlive] at ha
    cases ha

/-- After HINIT, writes to memory, `LIVE` and `HEAD` keep the invariant when what they leave there is canonical and in the
heap; ALLOC and FREE write nothing else of what the invariant speaks of (41_heap_allocator.md R137, R141). -/
theorem State.Inv.heapWrites {m : Memory} {l : LiveMap} {hd : Word} (h : s.Inv) (hinited : s.hinited = true) (hm : m.wf)
    (hl : l.wf) (hhead : hd = nilWord ∨ validNode s hd)
    (hlive : ∀ a ∈ l, uval s.hbase + 4 ≤ (a : Int) ∧ (a : Int) < s.hend) :
    { s with mem := m, live := l, head := hd }.Inv where
  memWf := hm
  liveWf := hl
  statusLegal := h.statusLegal
  beforeInit hn := absurd hinited (by simpa using hn)
  heapPlaced := h.heapPlaced
  headLegal _ := hhead
  liveInHeap := hlive

theorem State.Inv.hend_le (h : s.Inv) (hinited : s.hinited = true) : s.hend ≤ 65536 :=
  (h.heapPlaced hinited).2.1

theorem State.carve_eq (s : State) (n L : Word) (size : Int) :
    s.carve n L size =
      { s with
        mem := (s.carve n L size).mem
        live := LiveMap.insert s.live (wrap (carveAddr n L size + 2)).toNat
        head := s.head } := rfl

theorem State.carve_wf (h : s.mem.wf) (n L : Word) (size : Int) : (s.carve n L size).mem.wf := by
  rw [State.carve_mem]
  exact State.memWrite_wf (State.memWrite_wf (State.memWrite_wf h _ _) _ _) _ _

theorem State.linkAtHead_wf (h : s.mem.wf) (a len : Int) : (s.linkAtHead a len).mem.wf := by
  rw [State.linkAtHead_mem]
  exact State.memWrite_wf (State.memWrite_wf h _ _) _ _

theorem State.unlink_wf (h : s.mem.wf) (nb : Neighbour) : (s.unlink nb).mem.wf := by
  obtain ⟨_ | p, len, next⟩ := nb
  · exact h
  · exact State.memWrite_wf h _ _

theorem State.release_wf (h : s.mem.wf) (a : Int) (S : Word) (nb : Option Neighbour) : (s.release a S nb).mem.wf := by
  cases nb with
  | none => exact State.linkAtHead_wf h _ _
  | some nb => exact State.linkAtHead_wf (State.unlink_wf h nb) _ _

/-- ALLOC's block lies past the header of its node, and inside the heap (41_heap_allocator.md R137). -/
theorem State.Inv.carve {n L : Word} {size : Int} (h : s.Inv) (hinited : s.hinited = true) (hsize : 0 < size)
    (hnode : validNode s n) (hlen : validLen s n L) (hfit : size + 2 ≤ sval L) : (s.carve n L size).Inv := by
  have hblock : uval s.hbase + 4 ≤ carveAddr n L size + 2 ∧ carveAddr n L size + 2 < s.hend := by
    unfold carveAddr; omega
  have hmem : inMemory (carveAddr n L size + 2) := by
    have := uval_nonneg s.hbase; have := h.hend_le hinited; omega
  rw [State.carve_eq]
  refine h.heapWrites hinited (State.carve_wf h.memWf _ _ _) (LiveMap.insert_wf h.liveWf (BitVec.isLt _))
    (h.headLegal hinited) fun a ha => ?_
  rcases LiveMap.mem_insert.1 ha with rfl | ha
  · rw [toNat_wrap_of_range hmem]; exact hblock
  · exact h.liveInHeap a ha

/-- FREE takes a live address out of `LIVE` and puts its header, which the invariant places in the heap, at `HEAD` (R141). -/
theorem State.Inv.release {address S : Word} (h : s.Inv) (hinited : s.hinited = true)
    (hlive : s.isLive (uval address) = true) (nb : Option Neighbour) : (s.release (uval address - 2) S nb).Inv := by
  have hrange : uval s.hbase + 4 ≤ uval address ∧ uval address < s.hend := by
    have hmem := State.isLive_iff.1 hlive
    rw [wrap_uval] at hmem
    exact h.liveInHeap _ hmem
  have hheader : validNode s (wrap (uval address - 2)) := by
    have := uval_nonneg s.hbase; have := uval_lt address
    rw [validNode, uval_wrap_of_range (by omega) (by omega)]
    omega
  rw [State.release_eq]
  exact h.heapWrites hinited (State.release_wf h.memWf _ _ _) (LiveMap.remove_wf _ h.liveWf) (.inr hheader)
    fun a ha => h.liveInHeap a (LiveMap.mem_remove.1 ha).2

/-! Every command, and every step, keeps the invariant. -/

/-- A check with two branches, each followed under what the check found. -/
theorem of_ite_next {p q : Prop} [Decidable p] {a b : Result} (ha : p → a = .next t → q) (hb : ¬ p → b = .next t → q) :
    (if p then a else b) = .next t → q := by
  split
  · exact ha ‹_›
  · exact hb ‹_›

theorem State.Inv.execAlloc {size : Word} (h : s.Inv) (ht : execAlloc size s = .next t) : t.Inv := by
  rcases execAlloc_cases size s with ⟨e, -, he⟩ | ⟨ns, n, hinited, hsize, -, -, -, hnode, hlen, hfit, he⟩ <;> rw [he] at ht
  · exact h.of_raise ht
  · exact (h.carve hinited hsize hnode.2 hlen hfit).of_completeWith ht

theorem State.Inv.execFree {address : Word} (h : s.Inv) (ht : execFree address s = .next t) : t.Inv := by
  rcases execFree_cases address s with ⟨e, -, he⟩ | ⟨nb, hinited, hlive, -, -, -, he⟩ <;> rw [he] at ht
  · exact h.of_raise ht
  · exact (h.release hinited hlive nb).of_complete ht

/-- Every command keeps the invariant: an error by leaving the state, `OK` by its unit's writes. -/
theorem State.Inv.exec {i : Instr} (h : s.Inv) : exec i s = .next t → t.Inv := by
  cases i with
  | mul x y => exact h.of_completeWith
  | div x y => exact of_ite_next (fun _ => h.of_raise) (fun _ => h.of_completeWith)
  | sqrt x => exact of_ite_next (fun _ => h.of_raise) (fun _ => h.of_completeWith)
  | abs x => exact h.of_completeWith
  | max a b => exact h.of_completeWith
  | min a b => exact h.of_completeWith
  | hinit b n =>
    exact of_ite_next (fun _ => h.of_raise) fun hinited =>
      of_ite_next (fun hrange => (h.layHeap (Bool.eq_false_of_not_eq_true hinited) hrange).of_complete)
        (fun _ => h.of_raise)
  | alloc size => exact h.execAlloc
  | free address => exact h.execFree
  | setcolor c => exact State.Inv.of_complete (h.of_same_heap rfl h.memWf h.statusLegal)
  | clear => exact (h.memFill _ _ _).of_complete
  | pixel x y => exact of_ite_next (fun _ => h.of_raise) (fun _ => (h.memWrite _ _).of_complete)
  | line x1 y1 x2 y2 => exact of_ite_next (fun _ => h.of_raise) (fun _ => (h.plotAll _).of_complete)
  | rect x1 y1 x2 y2 => exact of_ite_next (fun _ => h.of_raise) (fun _ => (h.plotAll _).of_complete)
  | circle x y r =>
    exact of_ite_next (fun _ => h.of_raise) fun _ => of_ite_next (fun _ => h.of_raise) (fun _ => (h.plotAll _).of_complete)

theorem State.Inv.runPort (h : s.Inv) (ht : runPort s = .next t) : t.Inv := by
  rcases runPort_cases s with ⟨i, hi⟩ | hi <;> rw [hi] at ht
  · exact h.exec ht
  · exact h.of_raise ht

end Invariant

/-- Settles O59: at power-on nothing is initialised. -/
theorem powerOnMeetsTheInvariant : Obligations.PowerOnMeetsTheInvariant :=
  .of_not_hinited State.reset_mem_wf ⟨.ok, rfl⟩ rfl rfl rfl

/-- Settles O60: a command keeps the invariant by `State.Inv.exec`; of the host's own actions a read changes nothing the
invariant speaks of, a write keeps memory canonical, and a reset leaves an uninitialised block. -/
theorem everyStepKeepsTheInvariant : Obligations.EveryStepKeepsTheInvariant := by
  intro s t h ht
  have hnext {u : State} (hu : step s = .next u) (hinv : u.Inv) : t.Inv :=
    Host.Outcome.next.inj (hu.symm.trans ht) ▸ hinv
  rcases hh : s.host with _ | ⟨c | _ | _ | a | ⟨a, v⟩ | _, rest⟩
  case nil => exact hnext (step_of_nil hh) h
  case cons.issue => exact ((h.hostDone rest).present c).runPort ((step_of_issue hh).symm.trans ht)
  case cons.readSt => exact hnext (step_of_readSt hh) ((h.hostDone rest).hostSees _)
  case cons.readR0 => exact hnext (step_of_readR0 hh) ((h.hostDone rest).hostSees _)
  case cons.peek => exact hnext (step_of_peek hh) ((h.hostDone rest).hostSees _)
  case cons.poke => exact hnext (step_of_poke hh) ((h.hostDone rest).memWrite _ _)
  case cons.reset => exact hnext (step_of_reset hh) (h.hostDone rest).applyReset

end Sys2Proof.Machine
end

section
/-! PROOFS. Memory's regions (20_memory.md R68): an ARITH command writes no word, and a HEAP command writes only words of the
heap. -/

namespace Sys2Proof.Machine

/-! ## Writing inside a region (20_memory.md R68) -/

/-- `t` holds the words that `s` holds, but for those of a region. -/
def State.KeepsOutside (region : Int → Prop) (s t : State) : Prop :=
  ∀ a, inMemory a → ¬ region a → t.memRead a = s.memRead a

namespace State.KeepsOutside

variable {region : Int → Prop} {s t u : State}

theorem refl (region : Int → Prop) (s : State) : s.KeepsOutside region s := fun _ _ _ => rfl

theorem memWrite {b : Int} {v : Word} (h : s.KeepsOutside region u) (hmem : inMemory b) (hb : region b) :
    s.KeepsOutside region (u.memWrite b v) := by
  intro a ha hout
  rw [State.memRead_memWrite_of_range _ hmem ha, if_neg (by rintro rfl; exact hout hb), h a ha hout]

theorem of_raise {e : Status} (ht : raise e s = .next t) : s.KeepsOutside region t := by
  rw [raise_eq_next.1 ht]; exact refl region s

theorem of_complete (h : s.KeepsOutside region u) (ht : complete u = .next t) : s.KeepsOutside region t := by
  rw [complete_eq_next.1 ht]; exact h

theorem of_completeWith {v : Word} (h : s.KeepsOutside region u) (ht : completeWith v u = .next t) :
    s.KeepsOutside region t := by
  rw [completeWith_eq_next.1 ht]; exact h

end State.KeepsOutside

/-! ## The ARITH unit writes no word (40_arithmetic.md R100) -/

theorem exec_arith_keepsOutside {i : Instr} {s t : State} (hunit : i.unit = .arith) :
    exec i s = .next t → s.KeepsOutside (fun _ => False) t := by
  have hresult {v : Word} : completeWith v s = .next t → s.KeepsOutside (fun _ => False) t :=
    (State.KeepsOutside.refl _ s).of_completeWith
  cases i with
  | mul x y => exact hresult
  | div x y => exact of_ite_next (fun _ => .of_raise) (fun _ => hresult)
  | sqrt x => exact of_ite_next (fun _ => .of_raise) (fun _ => hresult)
  | abs x => exact hresult
  | max a b => exact hresult
  | min a b => exact hresult
  | _ => cases hunit

/-! ## The HEAP unit writes inside the heap (41_heap_allocator.md R130) -/

section HeapWrites

variable {s t : State}

theorem State.Inv.inMemory_of_inHeap {a : Int} (h : s.Inv) (hinited : s.hinited = true) (ha : s.inHeap a) : inMemory a := by
  have := uval_nonneg s.hbase; have := h.hend_le hinited
  unfold State.inHeap at ha
  omega

theorem State.inHeap_congr (hbase : t.hbase = s.hbase) (hsize : t.hsize = s.hsize) : t.inHeap = s.inHeap := by
  funext a; simp only [State.inHeap, State.hend, hbase, hsize]

/-- A live address lies in the heap with the whole header before it (41_heap_allocator.md R141). -/
theorem State.Inv.range_of_isLive {address : Word} (h : s.Inv) (hlive : s.isLive (uval address) = true) :
    uval s.hbase + 4 ≤ uval address ∧ uval address < s.hend := by
  have hmem := State.isLive_iff.1 hlive
  rw [wrap_uval] at hmem
  exact h.liveInHeap _ hmem

/-- The node before the neighbour that FREE absorbs has passed the walker's check (41_heap_allocator.md R133, R141). -/
theorem validNode_of_freeNeighbour_prev {f : Int} {nb : Neighbour} {p : Word} (h : freeNeighbour s f = .ok (some nb))
    (hp : nb.prev = some p) : validNode s p := by
  rcases freeNeighbour_cases s f with hc | ⟨hc, -⟩ | ⟨ns, n, hc, -, -, -, -, hpassed, -⟩ <;> rw [hc] at h <;> cases h
  exact (hpassed p (List.mem_of_getLast? hp)).1.2

/-- The two words of the header at `a` may be written when a header fits there. -/
theorem State.KeepsOutside.header {u : State} {a : Int} {v w : Word} (h : s.Inv) (hinited : s.hinited = true)
    (hu : s.KeepsOutside s.inHeap u) (ha : uval s.hbase ≤ a ∧ a + 2 ≤ s.hend) :
    s.KeepsOutside s.inHeap ((u.memWrite a v).memWrite (a + 1) w) := by
  have h0 : s.inHeap a := by unfold State.inHeap; omega
  have h1 : s.inHeap (a + 1) := by unfold State.inHeap; omega
  exact (hu.memWrite (h.inMemory_of_inHeap hinited h0) h0).memWrite (h.inMemory_of_inHeap hinited h1) h1

theorem State.carve_keepsOutside {n L : Word} {size : Int} (h : s.Inv) (hinited : s.hinited = true) (hsize : 0 < size)
    (hnode : validNode s n) (hlen : validLen s n L) (hfit : size + 2 ≤ sval L) :
    s.KeepsOutside s.inHeap (s.carve n L size) := by
  have hword : s.inHeap (uval n + 1) := by unfold State.inHeap; omega
  have hheader : uval s.hbase ≤ carveAddr n L size ∧ carveAddr n L size + 2 ≤ s.hend := by unfold carveAddr; omega
  exact .header h hinited ((State.KeepsOutside.refl _ s).memWrite (h.inMemory_of_inHeap hinited hword) hword) hheader

theorem State.unlink_keepsOutside {nb : Neighbour} (h : s.Inv) (hinited : s.hinited = true)
    (hprev : ∀ p, nb.prev = some p → validNode s p) : s.KeepsOutside s.inHeap (s.unlink nb) := by
  obtain ⟨_ | p, len, next⟩ := nb
  · exact .refl _ s
  · have hp : s.inHeap (uval p) := by have := hprev p rfl; unfold State.inHeap; omega
    exact (State.KeepsOutside.refl _ s).memWrite (h.inMemory_of_inHeap hinited hp) hp

theorem State.release_keepsOutside {address S : Word} {nb : Option Neighbour} (h : s.Inv) (hinited : s.hinited = true)
    (hlive : s.isLive (uval address) = true) (hprev : ∀ k p, nb = some k → k.prev = some p → validNode s p) :
    s.KeepsOutside s.inHeap (s.release (uval address - 2) S nb) := by
  have hheader : uval s.hbase ≤ uval address - 2 ∧ uval address - 2 + 2 ≤ s.hend := by
    have := h.range_of_isLive hlive; omega
  cases nb with
  | none => exact .header h hinited (.refl _ s) hheader
  | some k => exact .header h hinited (s.unlink_keepsOutside h hinited fun p => hprev k p rfl) hheader

theorem State.layHeap_keepsOutside {b n : Word} (hrange : heapRangeOk s.cfg (uval b) (sval n)) :
    s.KeepsOutside (s.layHeap b n).inHeap (s.layHeap b n) := by
  have := uval_nonneg b
  have hheap {a : Int} : (s.layHeap b n).inHeap a ↔ uval b ≤ a ∧ a < uval b + sval n := by
    simp [State.inHeap, State.hend]
  exact ((State.KeepsOutside.refl _ s).memWrite (by omega) (hheap.2 (by omega))).memWrite (by omega) (hheap.2 (by omega))

theorem execHinit_keepsOutside {b n : Word} : execHinit b n s = .next t → s.KeepsOutside t.inHeap t :=
  of_ite_next (fun _ => .of_raise) fun _ => of_ite_next
    (fun hrange ht => by rw [complete_eq_next.1 ht]; exact s.layHeap_keepsOutside hrange)
    (fun _ => .of_raise)

theorem execAlloc_keepsOutside {size : Word} (h : s.Inv) (ht : execAlloc size s = .next t) : s.KeepsOutside t.inHeap t := by
  rcases execAlloc_cases size s with ⟨e, -, he⟩ | ⟨ns, n, hinited, hsize, -, -, -, hnode, hlen, hfit, he⟩ <;> rw [he] at ht
  · exact .of_raise ht
  · have hheap : t.inHeap = s.inHeap :=
      State.inHeap_congr (by simp [completeWith_eq_next.1 ht]) (by simp [completeWith_eq_next.1 ht])
    rw [hheap]
    exact (s.carve_keepsOutside h hinited hsize hnode.2 hlen hfit).of_completeWith ht

theorem execFree_keepsOutside {address : Word} (h : s.Inv) (ht : execFree address s = .next t) :
    s.KeepsOutside t.inHeap t := by
  rcases execFree_cases address s with ⟨e, -, he⟩ | ⟨nb, hinited, hlive, -, -, hnb, he⟩ <;> rw [he] at ht
  · exact .of_raise ht
  · have hheap : t.inHeap = s.inHeap :=
      State.inHeap_congr (by simp [complete_eq_next.1 ht]) (by simp [complete_eq_next.1 ht])
    rw [hheap]
    refine (s.release_keepsOutside h hinited hlive fun k p hk => ?_).of_complete ht
    rw [hk] at hnb
    exact validNode_of_freeNeighbour_prev hnb

/-- A HEAP command writes only words of the heap, HINIT of the heap it lays. -/
theorem exec_heap_keepsOutside {i : Instr} (hunit : i.unit = .heap) (h : s.Inv) :
    exec i s = .next t → s.KeepsOutside t.inHeap t := by
  cases i with
  | hinit b n => exact execHinit_keepsOutside
  | alloc size => exact execAlloc_keepsOutside h
  | free address => exact execFree_keepsOutside h
  | _ => cases hunit

end HeapWrites

end Sys2Proof.Machine
end

section
/-! PROOFS. The figures of the RASTER unit lie on the screen (42_rasterizer.md R166 to R170), so a RASTER command writes only
words of the frame buffer; with it, no command writes outside its region (20_memory.md R68). -/

namespace Sys2Proof.Machine

/-! ## LINE (42_rasterizer.md R166) -/

/-- The general walk stays within its two targets: while the accumulator is `a * ady - b * adx`, its sign admits an `a`-step only
below `adx` and, short of the end, a `b`-step only below `ady` (R167). -/
theorem lineWalk_le {adx ady left a b : Nat} {diff : Int} {q : Nat × Nat} (hady : 0 < ady) (ha : a ≤ adx) (hb : b ≤ ady)
    (hdiff : diff = a * ady - b * adx) (hq : q ∈ lineWalk adx ady left a b diff) : q.1 ≤ adx ∧ q.2 ≤ ady := by
  induction left generalizing a b diff with
  | zero =>
    rw [lineWalk, List.mem_singleton] at hq
    rw [hq]; exact ⟨ha, hb⟩
  | succ left ih =>
    rw [lineWalk, List.mem_cons] at hq
    rcases hq with rfl | hq
    · exact ⟨ha, hb⟩
    split_ifs at hq with hend hneg
    · cases hq
    · have hlt : a < adx := by
        by_contra hge
        have : b * adx ≤ a * ady := by rw [Nat.mul_comm]; exact Nat.mul_le_mul (not_lt.1 hge) hb
        zify at this; omega
      exact ih hlt hb (by push_cast; rw [hdiff]; ring) hq
    · have hlt : b < ady := by
        by_contra hge
        have hb' : b = ady := by omega
        have hlt : a < adx := by omega
        have : a * ady < b * adx := by rw [hb', Nat.mul_comm]; exact Nat.mul_lt_mul_of_pos_left hlt hady
        zify at this; omega
      exact ih ha hlt (by push_cast; rw [hdiff]; ring) hq

/-- Every point of a line is some offsets, each within its target, away from the first end point (R166, R167). -/
theorem offsets_of_mem_linePoints {x1 y1 x2 y2 : Int} {q : Point} (hq : q ∈ linePoints x1 y1 x2 y2) :
    ∃ a b : Nat, a ≤ (x2 - x1).natAbs ∧ b ≤ (y2 - y1).natAbs ∧
      q = (x1 + signOf (x2 - x1) * a, y1 + signOf (y2 - y1) * b) := by
  unfold linePoints at hq
  dsimp only at hq
  split_ifs at hq with hx hy
  · obtain ⟨k, hk, rfl⟩ := (mem_run ..).1 hq
    exact ⟨0, k, by omega, by omega, by simp⟩
  · obtain ⟨k, hk, rfl⟩ := (mem_run ..).1 hq
    exact ⟨k, 0, by omega, by omega, by simp⟩
  · obtain ⟨⟨a, b⟩, hab, rfl⟩ := List.mem_map.1 hq
    have hle := lineWalk_le (by omega) (Nat.zero_le _) (Nat.zero_le _) (by simp) hab
    exact ⟨a, b, hle.1, hle.2, rfl⟩

/-- Going from `u` towards `v` by at most their distance stays between them. -/
theorem between_of_signOf (u v : Int) {k : Nat} (hk : k ≤ (v - u).natAbs) :
    min u v ≤ u + signOf (v - u) * k ∧ u + signOf (v - u) * k ≤ max u v := by
  unfold signOf
  split_ifs <;> omega

theorem linePoints_onScreen {x1 y1 x2 y2 : Int} (h1 : onScreen x1 y1) (h2 : onScreen x2 y2) {q : Point}
    (hq : q ∈ linePoints x1 y1 x2 y2) : onScreen q.1 q.2 := by
  obtain ⟨a, b, ha, hb, rfl⟩ := offsets_of_mem_linePoints hq
  have := between_of_signOf x1 x2 ha
  have := between_of_signOf y1 y2 hb
  dsimp only [onScreen]
  omega

/-! ## RECT (42_rasterizer.md R169) -/

/-- The points of a row. -/
theorem mem_run_row {x y : Int} {w : Nat} {q : Point} : q ∈ run x y 1 0 w ↔ x ≤ q.1 ∧ q.1 < x + w ∧ q.2 = y := by
  rw [mem_run]
  constructor
  · rintro ⟨k, hk, rfl⟩
    dsimp only; omega
  · rintro ⟨h1, h2, h3⟩
    exact ⟨(q.1 - x).toNat, by omega, Prod.ext (by dsimp only; omega) (by dsimp only; omega)⟩

/-- The points of a block of rows. -/
theorem mem_rowsFrom {x y : Int} {w n : Nat} {q : Point} :
    q ∈ rowsFrom x y w n ↔ x ≤ q.1 ∧ q.1 < x + w ∧ y ≤ q.2 ∧ q.2 < y + n := by
  induction n generalizing y with
  | zero => simp only [rowsFrom, List.not_mem_nil, false_iff]; omega
  | succ n ih => rw [rowsFrom, List.mem_append, mem_run_row, ih]; omega

/-- The points of RECT are those of the inclusive rectangle, whatever the order of its corners (R169). -/
theorem mem_rectPoints {x1 y1 x2 y2 : Int} {q : Point} :
    q ∈ rectPoints x1 y1 x2 y2 ↔ min x1 x2 ≤ q.1 ∧ q.1 ≤ max x1 x2 ∧ min y1 y2 ≤ q.2 ∧ q.2 ≤ max y1 y2 := by
  rw [rectPoints, mem_rowsFrom]; omega

theorem rectPoints_onScreen {x1 y1 x2 y2 : Int} (h1 : onScreen x1 y1) (h2 : onScreen x2 y2) {q : Point}
    (hq : q ∈ rectPoints x1 y1 x2 y2) : onScreen q.1 q.2 := by
  have := mem_rectPoints.1 hq
  unfold onScreen; omega

/-! ## CIRCLE (42_rasterizer.md R170) -/

theorem mul16_wrap_wrap (i j : Int) : mul16 (wrap i) (wrap j) = wrap (i * j) := by
  apply uval_inj
  rw [uval_mul16, uval_wrap, uval_wrap, uval_wrap, ← Int.mul_emod]

theorem wrap_sub_wrap (i j : Int) : wrap i - wrap j = wrap (i - j) := by
  apply uval_inj
  rw [uval_sub, uval_wrap, uval_wrap, uval_wrap, ← Int.sub_emod]

theorem uval_pow2 {k : Nat} (hk : k < 16) : uval (pow2 k) = 2 ^ k := by
  rw [pow2_eq_wrap, uval_wrap_of_range (by positivity)]
  exact_mod_cast Nat.pow_lt_pow_right (a := 2) (by decide) hk

/-- The square of a candidate below 256 is its product as integers, and it passes the guard of R106 exactly when it is at most
the operand, because a square past 32767 reads as a negative word (40_arithmetic.md R107). -/
theorem sqrt_guard_iff {c x : Word} (hc : uval c ≤ 255) (hx : 0 ≤ sval x) :
    (0 ≤ sval (mul16 c c) ∧ sval (mul16 c c) ≤ sval x) ↔ uval c * uval c ≤ sval x := by
  have hsq : uval (mul16 c c) = uval c * uval c := by
    rw [uval_mul16]
    have := uval_nonneg c
    exact Int.emod_eq_of_lt (by positivity) (by nlinarith)
  have hrange : 0 ≤ uval c * uval c ∧ uval c * uval c ≤ 65025 := by
    have := uval_nonneg c
    exact ⟨by positivity, by nlinarith⟩
  have := sval_range x
  rw [sval_eq (mul16 c c), hsq]
  generalize uval c * uval c = sq at hrange ⊢
  split_ifs <;> omega

/-- The loop of R106 on a non-negative operand: after `n` iterations the root leaves room for the bits not yet tried, and the
operand lies from its square up to the square of the root with the bit last tried added (40_arithmetic.md R106). -/
theorem sqrtSteps_spec {x : Word} (hx : 0 ≤ sval x) {n : Nat} (hn : n ≤ 8) :
    uval (sqrtSteps x n) + 2 ^ (8 - n) ≤ 256 ∧ uval (sqrtSteps x n) ^ 2 ≤ sval x ∧
      sval x < (uval (sqrtSteps x n) + 2 ^ (8 - n)) ^ 2 := by
  induction n with
  | zero =>
    have := sval_range x
    have hzero : uval (sqrtSteps x 0) = 0 := rfl
    rw [hzero]; norm_num; omega
  | succ n ih =>
    obtain ⟨hle, hsq, hlt⟩ := ih (by omega)
    have hpow : (2 : Int) ^ (8 - n) = 2 * 2 ^ (7 - n) := by rw [← pow_succ', show 7 - n + 1 = 8 - n by omega]
    have hpos : (0 : Int) < 2 ^ (7 - n) := by positivity
    have hnonneg := uval_nonneg (sqrtSteps x n)
    have hc : uval (sqrtSteps x n + pow2 (7 - n)) = uval (sqrtSteps x n) + 2 ^ (7 - n) := by
      rw [uval_add, uval_pow2 (by omega)]
      exact Int.emod_eq_of_lt (by omega) (by omega)
    rw [sqrtSteps, show 8 - (n + 1) = 7 - n by omega]
    simp only [sqrt_guard_iff (c := sqrtSteps x n + pow2 (7 - n)) (by omega) hx, hc, ← pow_two]
    rw [hpow] at hle hlt
    split_ifs with htake
    · rw [hc]
      exact ⟨by omega, htake, by convert hlt using 2; ring⟩
    · exact ⟨by omega, hsq, not_le.1 htake⟩

/-- `isqrt16` of a non-negative operand is its floor root (40_arithmetic.md R106). -/
theorem isqrt16_spec {x : Word} (hx : 0 ≤ sval x) :
    0 ≤ sval (isqrt16 x) ∧ sval (isqrt16 x) ^ 2 ≤ sval x ∧ sval x < (sval (isqrt16 x) + 1) ^ 2 := by
  have hspec := sqrtSteps_spec hx (le_refl 8)
  have hnonneg := uval_nonneg (isqrt16 x)
  have hread : sval (isqrt16 x) = uval (isqrt16 x) := by
    rw [sval_eq, if_pos]
    have := hspec.1
    unfold isqrt16; norm_num at this; omega
  rw [hread]
  exact ⟨hnonneg, by simpa [isqrt16] using hspec.2⟩

/-- The half-width of row `d` is the floor root of `r^2 - d^2` (R170, 40_arithmetic.md R108). -/
theorem halfWidth_spec {r d : Int} (hr : r ≤ 181) (hd : -r ≤ d ∧ d ≤ r) :
    0 ≤ halfWidth r d ∧ halfWidth r d ^ 2 ≤ r ^ 2 - d ^ 2 ∧ r ^ 2 - d ^ 2 < (halfWidth r d + 1) ^ 2 := by
  have harg : mul16 (wrap r) (wrap r) - mul16 (wrap d) (wrap d) = wrap (r ^ 2 - d ^ 2) := by
    rw [mul16_wrap_wrap, mul16_wrap_wrap, wrap_sub_wrap, pow_two, pow_two]
  have hread : sval (wrap (r ^ 2 - d ^ 2)) = r ^ 2 - d ^ 2 := sval_wrap_of_range (by nlinarith) (by nlinarith)
  have hspec := isqrt16_spec (x := wrap (r ^ 2 - d ^ 2)) (by rw [hread]; nlinarith)
  rwa [hread, ← harg] at hspec

theorem halfWidth_le {r d : Int} (hr : r ≤ 181) (hd : -r ≤ d ∧ d ≤ r) : halfWidth r d ≤ r := by
  obtain ⟨hnonneg, hle, -⟩ := halfWidth_spec hr hd
  have := sq_nonneg d
  exact (sq_le_sq₀ hnonneg (by omega)).1 (by omega)

/-- The points of the rows of a disc, by their row (R170). -/
theorem mem_discRows {x y r : Int} {n : Nat} {d : Int} {q : Point} :
    q ∈ discRows x y r n d ↔ (y + d ≤ q.2 ∧ q.2 < y + d + n) ∧
      x - halfWidth r (q.2 - y) ≤ q.1 ∧ q.1 < x - halfWidth r (q.2 - y) + (2 * halfWidth r (q.2 - y) + 1).toNat := by
  induction n generalizing d with
  | zero => simp only [discRows, List.not_mem_nil, false_iff]; omega
  | succ n ih =>
    rw [discRows, List.mem_append, mem_run_row, ih]
    by_cases hrow : q.2 = y + d
    · rw [show q.2 - y = d by omega]; omega
    · omega

/-- The points of CIRCLE, by their row and its half-width (R170). -/
theorem mem_circlePoints {x y r : Int} (hr : 0 ≤ r ∧ r ≤ 181) {q : Point} :
    q ∈ circlePoints x y r ↔ (-r ≤ q.2 - y ∧ q.2 - y ≤ r) ∧
      x - halfWidth r (q.2 - y) ≤ q.1 ∧ q.1 ≤ x + halfWidth r (q.2 - y) := by
  rw [circlePoints, mem_discRows]
  by_cases hrow : -r ≤ q.2 - y ∧ q.2 - y ≤ r
  · have := (halfWidth_spec hr.2 hrow).1
    omega
  · omega

/-- A disc lies in its bounding square, so it is on the screen when the square's corners are (R170). -/
theorem circlePoints_onScreen {x y r : Int} (hr : 0 ≤ r) (h1 : onScreen (x - r) (y - r)) (h2 : onScreen (x + r) (y + r))
    {q : Point} (hq : q ∈ circlePoints x y r) : onScreen q.1 q.2 := by
  have hle : r ≤ 181 := by unfold onScreen at h1 h2; omega
  obtain ⟨hrow, hcol⟩ := (mem_circlePoints ⟨hr, hle⟩).1 hq
  have := halfWidth_le hle hrow
  unfold onScreen at *; omega

/-! ## The RASTER unit writes inside the frame buffer (42_rasterizer.md R160) -/

section RasterWrites

variable {s t : State}

/-- A figure whose points are on the screen is drawn inside the frame buffer. -/
theorem complete_plotAll_keepsOutside {ps : List Point} (hps : ∀ p ∈ ps, onScreen p.1 p.2)
    (ht : complete (s.plotAll ps) = .next t) : s.KeepsOutside s.inFrame t :=
  State.KeepsOutside.of_complete (s.plotAll_spec ps hps).1 ht

/-- A fill writes the words it covers. -/
theorem State.memFill_keepsOutside {base : Int} (v : Word) {n : Nat} (hb : 0 ≤ base) (hn : base + n ≤ 65536) :
    s.KeepsOutside (fun a => base ≤ a ∧ a < base + n) (State.memFill base v n s) := by
  intro a ha hout
  rw [State.memRead_memFill s v hb hn ha, if_neg hout]

/-- CLEAR writes the 8192 words of the frame buffer (R162). -/
theorem execClear_keepsOutside (ht : execClear s = .next t) : s.KeepsOutside s.inFrame t := by
  have hbase := s.cfg.screenBase.isLt
  exact State.KeepsOutside.of_complete (State.memFill_keepsOutside (n := 8192) _ (by omega) (by omega)) ht

/-- A RASTER command writes only words of the frame buffer. -/
theorem exec_raster_keepsOutside {i : Instr} (hunit : i.unit = .raster) : exec i s = .next t → s.KeepsOutside s.inFrame t := by
  cases i with
  | setcolor c => exact State.KeepsOutside.of_complete (.refl _ s)
  | clear => exact execClear_keepsOutside
  | pixel x y =>
    refine of_ite_next (fun _ => .of_raise) fun hon => complete_plotAll_keepsOutside (ps := [(sval x, sval y)]) ?_
    simpa using not_not.1 hon
  | line x1 y1 x2 y2 =>
    refine of_ite_next (fun _ => .of_raise) fun hon => complete_plotAll_keepsOutside fun p hp => ?_
    exact linePoints_onScreen (not_not.1 (not_or.1 hon).1) (not_not.1 (not_or.1 hon).2) hp
  | rect x1 y1 x2 y2 =>
    refine of_ite_next (fun _ => .of_raise) fun hon => complete_plotAll_keepsOutside fun p hp => ?_
    exact rectPoints_onScreen (not_not.1 (not_or.1 hon).1) (not_not.1 (not_or.1 hon).2) hp
  | circle x y r =>
    refine of_ite_next (fun _ => .of_raise) fun hr => of_ite_next (fun _ => .of_raise) fun hon =>
      complete_plotAll_keepsOutside fun p hp => ?_
    exact circlePoints_onScreen (not_lt.1 hr) (not_not.1 (not_or.1 hon).1) (not_not.1 (not_or.1 hon).2) hp
  | _ => cases hunit

end RasterWrites

/-- Settles O58: unit by unit, by the words each unit writes. -/
theorem commandsWriteOnlyTheirRegion : Obligations.CommandsWriteOnlyTheirRegion := by
  intro i s t a h ht ha hout
  cases hunit : i.unit <;> rw [hunit] at hout
  case arith => exact exec_arith_keepsOutside hunit ht a ha id
  case heap => exact exec_heap_keepsOutside hunit h ht a ha hout
  case raster => exact exec_raster_keepsOutside hunit ht a ha hout

end Sys2Proof.Machine
end

section
/-! PROOFS. The HEAP unit reads no word outside the heap (20_memory.md R68): two machines that agree on the heap's words, and in
every register, stay so through a HEAP command. -/

namespace Sys2Proof.Machine

/-- `s'` is `s` but for words of memory outside a region. -/
structure State.AgreesOn (region : Int → Prop) (s s' : State) : Prop where
  registers : s' = { s with mem := s'.mem }
  words : ∀ a, region a → s.memRead a = s'.memRead a

namespace State.AgreesOn

/-! ## What an update does to two machines that agree -/

section Updates

variable {region : Int → Prop} {s s' t t' : State}

theorem memWrite (h : s.AgreesOn region s') (a : Int) (v : Word) : (s.memWrite a v).AgreesOn region (s'.memWrite a v) where
  registers := by rw [h.registers]; rfl
  words b hb := by rw [State.memRead_memWrite, State.memRead_memWrite, h.words b hb]

theorem setLive (h : s.AgreesOn region s') (a : Int) : (s.setLive a).AgreesOn region (s'.setLive a) where
  registers := by rw [h.registers]; rfl
  words := h.words

theorem clearLive (h : s.AgreesOn region s') (a : Int) : (s.clearLive a).AgreesOn region (s'.clearLive a) where
  registers := by rw [h.registers]; rfl
  words := h.words

theorem setHead (h : s.AgreesOn region s') (w : Word) : { s with head := w }.AgreesOn region { s' with head := w } where
  registers := by rw [h.registers]
  words := h.words

theorem of_raise {e : Status} (h : s.AgreesOn region s') (ht : raise e s = .next t) (ht' : raise e s' = .next t') :
    t.AgreesOn region t' where
  registers := by rw [raise_eq_next.1 ht, raise_eq_next.1 ht', h.registers]
  words := by rw [raise_eq_next.1 ht, raise_eq_next.1 ht']; exact h.words

theorem of_complete (h : s.AgreesOn region s') (ht : complete s = .next t) (ht' : complete s' = .next t') :
    t.AgreesOn region t' where
  registers := by rw [complete_eq_next.1 ht, complete_eq_next.1 ht', h.registers]
  words := by rw [complete_eq_next.1 ht, complete_eq_next.1 ht']; exact h.words

theorem of_completeWith {v : Word} (h : s.AgreesOn region s') (ht : completeWith v s = .next t)
    (ht' : completeWith v s' = .next t') : t.AgreesOn region t' where
  registers := by rw [completeWith_eq_next.1 ht, completeWith_eq_next.1 ht', h.registers]
  words := by rw [completeWith_eq_next.1 ht, completeWith_eq_next.1 ht']; exact h.words

/-- A check on which both machines agree sends both into the same branch. -/
theorem of_ite {p p' : Prop} [Decidable p] [Decidable p'] {a b a' b' : Result} (hp : p ↔ p')
    (ha : p → a = .next t → a' = .next t' → t.AgreesOn region t')
    (hb : ¬ p → b = .next t → b' = .next t' → t.AgreesOn region t')
    (ht : (if p then a else b) = .next t) (ht' : (if p' then a' else b') = .next t') : t.AgreesOn region t' := by
  by_cases hc : p
  · rw [if_pos hc] at ht; rw [if_pos (hp.1 hc)] at ht'; exact ha hc ht ht'
  · rw [if_neg hc] at ht; rw [if_neg (mt hp.2 hc)] at ht'; exact hb hc ht ht'

theorem carve (h : s.AgreesOn region s') (n L : Word) (size : Int) : (s.carve n L size).AgreesOn region (s'.carve n L size) :=
  (((h.memWrite _ _).memWrite _ _).memWrite _ _).setLive _

theorem unlink (h : s.AgreesOn region s') (nb : Neighbour) : (s.unlink nb).AgreesOn region (s'.unlink nb) := by
  obtain ⟨_ | p, len, next⟩ := nb
  · exact h.setHead next
  · exact h.memWrite _ _

theorem linkAtHead (h : s.AgreesOn region s') (a len : Int) : (s.linkAtHead a len).AgreesOn region (s'.linkAtHead a len) := by
  unfold State.linkAtHead
  rw [show s'.head = s.head by rw [h.registers]]
  exact (((h.memWrite _ _).memWrite _ _).clearLive _).setHead _

theorem release (h : s.AgreesOn region s') (a : Int) (S : Word) (nb : Option Neighbour) :
    (s.release a S nb).AgreesOn region (s'.release a S nb) := by
  cases nb with
  | none => exact h.linkAtHead _ _
  | some k => exact (h.unlink k).linkAtHead _ _

end Updates

/-! ## What a HEAP command reads of two machines that agree on the heap -/

section HeapReads

variable {s s' t t' : State}

theorem hinited_eq (h : s.AgreesOn s.inHeap s') : s'.hinited = s.hinited := by rw [h.registers]

theorem hend_eq (h : s.AgreesOn s.inHeap s') : s'.hend = s.hend := by rw [h.registers]; rfl

theorem head_eq (h : s.AgreesOn s.inHeap s') : s'.head = s.head := by rw [h.registers]

theorem maxNodes_eq (h : s.AgreesOn s.inHeap s') : s'.maxNodes = s.maxNodes := by rw [h.registers]; rfl

theorem isLive_eq (h : s.AgreesOn s.inHeap s') {a : Int} : s'.isLive a = s.isLive a := by rw [h.registers]; rfl

theorem validNode_iff (h : s.AgreesOn s.inHeap s') {n : Word} : validNode s' n ↔ validNode s n :=
  by rw [h.registers]; exact Iff.rfl

theorem validLen_iff (h : s.AgreesOn s.inHeap s') {n L : Word} : validLen s' n L ↔ validLen s n L :=
  by rw [h.registers]; exact Iff.rfl

theorem next_eq (h : s.AgreesOn s.inHeap s') {n : Word} (hn : validNode s n) : s'.memRead (uval n) = s.memRead (uval n) :=
  (h.words _ (by unfold State.inHeap; omega)).symm

theorem length_eq (h : s.AgreesOn s.inHeap s') {n : Word} (hn : validNode s n) :
    s'.memRead (uval n + 1) = s.memRead (uval n + 1) :=
  (h.words _ (by unfold State.inHeap; omega)).symm

theorem allocWalk_eq (h : s.AgreesOn s.inHeap s') {need : Int} {left : Nat} {n : Word} :
    allocWalk s' need left n = allocWalk s need left n := by
  induction left generalizing n with
  | zero => rfl
  | succ left ih =>
    by_cases hnil : n = nilWord
    · rw [hnil, allocWalk_nil, allocWalk_nil]
    by_cases hv : validNode s n
    · rw [allocWalk_node ⟨hnil, hv⟩, allocWalk_node ⟨hnil, h.validNode_iff.2 hv⟩, h.length_eq hv, h.next_eq hv, ih]
      simp only [h.validLen_iff]
    · rw [allocWalk_stop hnil (.inr hv), allocWalk_stop hnil (.inr (mt h.validNode_iff.1 hv))]

theorem freeWalk_eq (h : s.AgreesOn s.inHeap s') {f : Int} {left : Nat} {prev : Option Word} {n : Word} :
    freeWalk s' f left prev n = freeWalk s f left prev n := by
  induction left generalizing prev n with
  | zero => rfl
  | succ left ih =>
    by_cases hnil : n = nilWord
    · rw [hnil, freeWalk_nil, freeWalk_nil]
    by_cases hv : validNode s n
    · rw [freeWalk_node ⟨hnil, hv⟩, freeWalk_node ⟨hnil, h.validNode_iff.2 hv⟩, h.next_eq hv, ih]
    · rw [freeWalk_stop hnil (.inr hv), freeWalk_stop hnil (.inr (mt h.validNode_iff.1 hv))]

theorem freeNeighbour_eq (h : s.AgreesOn s.inHeap s') {f : Int} : freeNeighbour s' f = freeNeighbour s f := by
  have hcfg : s'.cfg = s.cfg := by rw [h.registers]
  unfold freeNeighbour
  simp only [hcfg, h.hend_eq, h.freeWalk_eq, h.maxNodes_eq, h.head_eq]
  obtain ⟨ns, n, -, -, -, ⟨hw, -⟩ | ⟨hw, -⟩ | ⟨hw, -, hn, rfl⟩⟩ := freeWalk_cases s f s.maxNodes none s.head
  · simp only [hw]
  · simp only [hw]
  · simp only [hw, h.length_eq hn.2, h.next_eq hn.2, h.validLen_iff]

/-- FREE reads the size word of a live block, which the invariant places in the heap (41_heap_allocator.md R141). -/
theorem size_eq (h : s.AgreesOn s.inHeap s') (hinv : s.Inv) {address : Word} (hlive : s.isLive (uval address) = true) :
    s'.memRead (uval address - 2 + 1) = s.memRead (uval address - 2 + 1) := by
  have hrange := hinv.range_of_isLive hlive
  exact (h.words _ (by unfold State.inHeap; omega)).symm

/-! ## The HEAP commands on two such machines -/

theorem execAlloc_agreesOn (h : s.AgreesOn s.inHeap s') {size : Word} :
    execAlloc size s = .next t → execAlloc size s' = .next t' → t.AgreesOn s.inHeap t' := by
  refine of_ite (by rw [h.hinited_eq]) (fun _ => h.of_raise) fun _ => of_ite Iff.rfl (fun _ => h.of_raise) fun _ => ?_
  rw [h.allocWalk_eq, h.maxNodes_eq, h.head_eq]
  cases allocWalk s (sval size + 2) s.maxNodes s.head with
  | error e => exact h.of_raise
  | ok nL => exact (h.carve _ _ _).of_completeWith

theorem execFree_agreesOn (h : s.AgreesOn s.inHeap s') (hinv : s.Inv) {address : Word} :
    execFree address s = .next t → execFree address s' = .next t' → t.AgreesOn s.inHeap t' := by
  refine of_ite (by rw [h.hinited_eq]) (fun _ => h.of_raise) fun _ =>
    of_ite (by rw [h.isLive_eq]) (fun _ => h.of_raise) fun hlive => ?_
  dsimp only
  rw [h.size_eq hinv (not_not.1 hlive), h.hend_eq, h.freeNeighbour_eq]
  refine of_ite Iff.rfl (fun _ => h.of_raise) fun _ => ?_
  cases freeNeighbour s (uval address - 2 + 2 + sval (s.memRead (uval address - 2 + 1))) with
  | error e => exact h.of_raise
  | ok nb => exact (h.release _ _ nb).of_complete

/-- After initialisation HINIT is turned away before it reads anything (41_heap_allocator.md R131). -/
theorem execHinit_agreesOn (h : s.AgreesOn s.inHeap s') (hinited : s.hinited = true) {b n : Word} :
    execHinit b n s = .next t → execHinit b n s' = .next t' → t.AgreesOn s.inHeap t' :=
  of_ite (by rw [h.hinited_eq]) (fun _ => h.of_raise) fun hno => absurd hinited hno

end HeapReads

end State.AgreesOn

/-- Settles O42: command by command, on two machines that agree on the heap. -/
theorem heapCommandsIgnoreOtherMemory : Obligations.HeapCommandsIgnoreOtherMemory := by
  intro i s s' t t' hunit hinv hinited hregs hwords ht ht'
  have h : s.AgreesOn s.inHeap s' := ⟨hregs, hwords⟩
  suffices hafter : t.AgreesOn s.inHeap t' from ⟨hafter.registers, hafter.words⟩
  cases i with
  | hinit b n => exact h.execHinit_agreesOn hinited ht ht'
  | alloc size => exact h.execAlloc_agreesOn ht ht'
  | free address => exact h.execFree_agreesOn hinv ht ht'
  | _ => cases hunit

end Sys2Proof.Machine
end

section
/-! PROOFS. The statements of 30_encoding.md: the decoder inverts the encoder and the encoder the decoder, the argument
registers a command does not read, and the words that spell no command. -/

namespace Sys2Proof

/-! ## The rows of the opcode table (30_encoding.md R72) -/

/-- The words `OP A0 A1 A2 A3` with all but the first `n` arguments written `0x0000`: what an encoder writes of a command that
reads `n` of them (30_encoding.md R78). -/
def Command.keepArgs (c : Command) (n : Nat) : Command where
  op := c.op
  a0 := if 0 < n then c.a0 else 0#16
  a1 := if 1 < n then c.a1 else 0#16
  a2 := if 2 < n then c.a2 else 0#16
  a3 := if 3 < n then c.a3 else 0#16

theorem Command.keepArgs_congr {c d : Command} {n : Nat} (hop : d.op = c.op) (h0 : 0 < n → d.a0 = c.a0)
    (h1 : 1 < n → d.a1 = c.a1) (h2 : 2 < n → d.a2 = c.a2) (h3 : 3 < n → d.a3 = c.a3) :
    d.keepArgs n = c.keepArgs n := by
  unfold Command.keepArgs
  rw [hop, ite_congr rfl h0 fun _ => rfl, ite_congr rfl h1 fun _ => rfl, ite_congr rfl h2 fun _ => rfl,
    ite_congr rfl h3 fun _ => rfl]

end Sys2Proof

namespace Sys2Proof.Machine

/-- `c` spells `i`: its words are those of the encoding, but for the argument registers that `i` does not read, which may hold
any word (30_encoding.md R74). -/
def Spells (c : Command) (i : Instr) : Prop := encode i = c.keepArgs (argCount i)

theorem Spells.op_eq {c : Command} {i : Instr} (h : Spells c i) : (encode i).op = c.op := by
  rw [show encode i = c.keepArgs (argCount i) from h]; rfl

theorem spells_encode (i : Instr) : Spells (encode i) i := by
  cases i <;> rfl

/-- Words with the `OP` of `i`'s row and the operands of `i` where the row reads them spell `i`. -/
theorem spells_of_op {c : Command} {i : Instr} (hop : c.op.toNat = (encode i).op.toNat)
    (hargs : Spells { c with op := (encode i).op } i) : Spells c i := by
  rw [← BitVec.eq_of_toNat_eq hop] at hargs
  exact hargs

/-- A row of the table is decoded when its unit is present (30_encoding.md R75, R76). Row by row: `OP` is the row's word, and
the operands are the words presented. -/
theorem decode_of_spells {cfg : Config} {c : Command} {i : Instr} (h : Spells c i) :
    decode cfg c = if i.wellFormed cfg then .ok i else .error .rasterAbsent := by
  obtain ⟨op, a0, a1, a2, a3⟩ := c
  obtain rfl : (encode i).op = op := h.op_eq
  cases i <;> simp_all [Spells, encode, Command.keepArgs, argCount] <;> rfl

/-- Everything the decoder can meet: words that spell a command, or an `OP` outside the table (30_encoding.md R75). -/
theorem spells_or_illegal (cfg : Config) (c : Command) :
    (∃ i, Spells c i) ∨ (illegalOp cfg c.op ∧ decode cfg c = .error (illegalReason c.op)) := by
  unfold decode
  split
  case h_1 hop => exact .inl ⟨.mul c.a0 c.a1, spells_of_op hop rfl⟩
  case h_2 hop => exact .inl ⟨.div c.a0 c.a1, spells_of_op hop rfl⟩
  case h_3 hop => exact .inl ⟨.sqrt c.a0, spells_of_op hop rfl⟩
  case h_4 hop => exact .inl ⟨.abs c.a0, spells_of_op hop rfl⟩
  case h_5 hop => exact .inl ⟨.max c.a0 c.a1, spells_of_op hop rfl⟩
  case h_6 hop => exact .inl ⟨.min c.a0 c.a1, spells_of_op hop rfl⟩
  case h_7 hop => exact .inl ⟨.hinit c.a0 c.a1, spells_of_op hop rfl⟩
  case h_8 hop => exact .inl ⟨.alloc c.a0, spells_of_op hop rfl⟩
  case h_9 hop => exact .inl ⟨.free c.a0, spells_of_op hop rfl⟩
  case h_10 hop => exact .inl ⟨.setcolor c.a0, spells_of_op hop rfl⟩
  case h_11 hop => exact .inl ⟨.clear, spells_of_op hop rfl⟩
  case h_12 hop => exact .inl ⟨.pixel c.a0 c.a1, spells_of_op hop rfl⟩
  case h_13 hop => exact .inl ⟨.line c.a0 c.a1 c.a2 c.a3, spells_of_op hop rfl⟩
  case h_14 hop => exact .inl ⟨.rect c.a0 c.a1 c.a2 c.a3, spells_of_op hop rfl⟩
  case h_15 hop => exact .inl ⟨.circle c.a0 c.a1 c.a2, spells_of_op hop rfl⟩
  case h_16 =>
    refine .inr ⟨?_, rfl⟩
    simp only [imp_false] at * -- `op` is none of the fifteen words
    unfold illegalOp
    omega

/-- The decoder in one line: the words decode to the well-formed command they spell. -/
theorem decode_eq_ok_iff {cfg : Config} {c : Command} {i : Instr} :
    decode cfg c = .ok i ↔ i.wellFormed cfg = true ∧ Spells c i := by
  constructor
  · intro h
    rcases spells_or_illegal cfg c with ⟨j, hj⟩ | ⟨-, herr⟩
    · rw [decode_of_spells hj] at h
      split_ifs at h with hwf
      cases h
      exact ⟨hwf, hj⟩
    · rw [herr] at h; cases h
  · rintro ⟨hwf, hspells⟩
    rw [decode_of_spells hspells, if_pos hwf]

/-- Settles O1: the rows as the encoder and the decoder have them. -/
theorem listedCommandsHaveTheirFiveWords : Obligations.ListedCommandsHaveTheirFiveWords := by
  intro cfg a b c d
  have hraster {c : Command} {i : Instr} (hunit : i.unit = .raster) (hcfg : cfg.hasRaster = true) (h : Spells c i) :
      decode cfg c = .ok i :=
    decode_eq_ok_iff.2 ⟨by simp [Instr.wellFormed, hunit, hcfg], h⟩
  refine ⟨by simp [encode], ⟨rfl, rfl, rfl, rfl, rfl, rfl, rfl, rfl, rfl⟩, fun h => ?_, rfl, rfl, rfl⟩
  exact ⟨hraster rfl h rfl, hraster rfl h rfl, hraster rfl h rfl, hraster rfl h rfl, hraster rfl h rfl, hraster rfl h rfl⟩

/-- Settles O2: an encoding spells its command. -/
theorem decodeInvertsEncode : Obligations.DecodeInvertsEncode :=
  fun _ i hwf => decode_eq_ok_iff.2 ⟨hwf, spells_encode i⟩

/-- Settles O3: what decodes is well formed and spelled by the words. -/
theorem encodeInvertsDecode : Obligations.EncodeInvertsDecode :=
  fun _ _ _ h => decode_eq_ok_iff.1 h

/-! ## Issuing words to the port (30_encoding.md R74, R75) -/

/-- Every command completes (60_exceptions.md R212). -/
theorem exists_exec_eq_next (i : Instr) (s : State) : ∃ t, exec i s = .next t := by
  rcases exec_cases i s with ⟨_, _, h⟩ | ⟨_, _, h, _⟩ | ⟨_, _, _, h, _⟩ <;> exact ⟨_, h⟩

/-- Settles O4: both words spell the command, and the command does not look at the port. -/
theorem unreadArgumentsAreIgnored : Obligations.UnreadArgumentsAreIgnored := by
  intro s c d rest i hdec hop h0 h1 h2 h3
  obtain ⟨hwf, hspells⟩ := decode_eq_ok_iff.1 hdec
  have hdec' : decode s.cfg d = .ok i :=
    decode_eq_ok_iff.2 ⟨hwf, hspells.trans (Command.keepArgs_congr hop h0 h1 h2 h3).symm⟩
  obtain ⟨t, ht⟩ := exists_exec_eq_next i ((s.hostDone rest).present c)
  have hstep {e : Command} (he : decode s.cfg e = .ok i) :
      step { s with host := .issue e :: rest } = exec i ((s.hostDone rest).present e) :=
    stepRunsTheIssuedCommand { s with host := .issue e :: rest } e rest i rfl he
  refine ⟨hdec', t, (hstep hdec).trans ht, (hstep hdec').trans ?_⟩
  have hop' : d.op = t.op := hop.trans (commandsLeaveThePort i _ t ht).1.symm
  have hport : t.present d = { t with a0 := d.a0, a1 := d.a1, a2 := d.a2, a3 := d.a3 } := by rw [State.present, hop']
  rw [← hport]
  exact (exec_present d ht :)

/-- The words of R75 and R76 against the table: a row is on the list just when its unit is absent. -/
theorem illegalOp_encode_op {cfg : Config} (i : Instr) : illegalOp cfg (encode i).op ↔ i.wellFormed cfg = false := by
  cases i <;> simp [illegalOp, encode, Instr.wellFormed, Instr.unit]

theorem illegalOp_iff_of_spells {cfg : Config} {c : Command} {i : Instr} (h : Spells c i) :
    illegalOp cfg c.op ↔ i.wellFormed cfg = false := by
  rw [← h.op_eq, illegalOp_encode_op]

theorem runPort_of_decode_error {s : State} {e : DecodeError} (h : decode s.cfg s.port = .error e) :
    runPort s = raise .illegalCommand s := by
  unfold runPort; rw [h]

/-- The listed words decode to nothing (30_encoding.md R75, R76). -/
theorem exists_decode_eq_error {cfg : Config} {c : Command} (h : illegalOp cfg c.op) : ∃ e, decode cfg c = .error e := by
  rcases spells_or_illegal cfg c with ⟨i, hi⟩ | ⟨-, herr⟩
  · exact ⟨.rasterAbsent, by rw [decode_of_spells hi, (illegalOp_iff_of_spells hi).1 h]; rfl⟩
  · exact ⟨_, herr⟩

/-- Every word off the list spells a command of the machine (30_encoding.md R75, R76). -/
theorem exists_decode_eq_ok {cfg : Config} {c : Command} (h : ¬ illegalOp cfg c.op) : ∃ i, decode cfg c = .ok i := by
  rcases spells_or_illegal cfg c with ⟨i, hi⟩ | ⟨hillegal, -⟩
  · exact ⟨i, decode_eq_ok_iff.2 ⟨Bool.eq_true_of_not_eq_false (mt (illegalOp_iff_of_spells hi).2 h), hi⟩⟩
  · exact absurd hillegal h

/-- Settles O5: the listed words decode to nothing, every other word to a command, which the step runs. -/
theorem illegalWordsRaiseIllegalCommand : Obligations.IllegalWordsRaiseIllegalCommand := by
  intro s c rest hhost
  constructor
  · intro hillegal
    obtain ⟨e, he⟩ := exists_decode_eq_error hillegal
    rw [step_of_issue hhost]
    exact runPort_of_decode_error he
  · intro hlegal
    obtain ⟨i, hi⟩ := exists_decode_eq_ok hlegal
    have hop : (encode i).op = c.op := (decode_eq_ok_iff.1 hi).2.op_eq
    exact ⟨i, hi, hop, stepRunsTheIssuedCommand s c rest i hhost hi⟩

end Sys2Proof.Machine
end

section
/-! PROOFS. The statements of 40_arithmetic.md: the product of MUL, the long division of DIV and its truncated quotient, the root
of SQRT, the values of ABS, MAX and MIN, and that the unit's commands are pure. -/

namespace Sys2Proof.Machine

/-! ## How an ARITH command ends (40_arithmetic.md R100) -/

/-- An ARITH command looks at no state: it raises one error from every state, or ends with one result from every state. -/
theorem exec_arith_cases {i : Instr} (hunit : i.unit = .arith) :
    (∃ e : Status, e ≠ .ok ∧ ∀ s, exec i s = raise e s) ∨ ∃ v, ∀ s, exec i s = completeWith v s := by
  cases i with
  | mul x y => exact .inr ⟨mul16 x y, fun _ => rfl⟩
  | div x y =>
    by_cases h : sval y = 0
    · exact .inl ⟨.divisionByZero, by decide, fun _ => if_pos h⟩
    · exact .inr ⟨quotient x y, fun _ => if_neg h⟩
  | sqrt x =>
    by_cases h : sval x < 0
    · exact .inl ⟨.domainError, by decide, fun _ => if_pos h⟩
    · exact .inr ⟨isqrt16 x, fun _ => if_neg h⟩
  | abs x => exact .inr ⟨magnitude x, fun _ => rfl⟩
  | max a b => exact .inr ⟨_, fun _ => rfl⟩
  | min a b => exact .inr ⟨_, fun _ => rfl⟩
  | _ => cases hunit

/-- Settles O27: neither end of an ARITH command reads the state it starts from. -/
theorem arithCommandsArePure : Obligations.ArithCommandsArePure := by
  intro i s s' t t' hunit ht ht'
  obtain ⟨e, he, h⟩ | ⟨v, h⟩ := exec_arith_cases hunit
  case inl =>
    rw [h, raise_eq_next] at ht ht'
    subst ht ht'
    exact ⟨rfl, rfl, id, fun hst => absurd hst (Status.code_ne_zero he)⟩
  case inr =>
    rw [h, completeWith_eq_next] at ht ht'
    subst ht ht'
    exact ⟨rfl, rfl, fun _ => rfl, fun _ => rfl⟩

/-! ## MUL (40_arithmetic.md R101, R102) -/

theorem mul16_eq_wrap_uval (x y : Word) : mul16 x y = wrap (uval x * uval y) := by
  rw [← mul16_wrap_wrap, wrap_uval, wrap_uval]

/-- The two readings of an operand differ by a multiple of `2^16`, which the wrapped product does not see (R102). -/
theorem mul16_eq_wrap_sval (x y : Word) : mul16 x y = wrap (sval x * sval y) := by
  rw [← mul16_wrap_wrap, wrap_sval, wrap_sval]

theorem mul16_comm (x y : Word) : mul16 x y = mul16 y x := by
  rw [mul16_eq_wrap_uval, mul16_eq_wrap_uval, mul_comm]

theorem mul16_assoc (x y z : Word) : mul16 (mul16 x y) z = mul16 x (mul16 y z) := by
  have hleft : mul16 (wrap (uval x * uval y)) (wrap (uval z)) = wrap (uval x * uval y * uval z) := mul16_wrap_wrap _ _
  have hright : mul16 (wrap (uval x)) (wrap (uval y * uval z)) = wrap (uval x * (uval y * uval z)) := mul16_wrap_wrap _ _
  rw [wrap_uval, ← mul16_eq_wrap_uval] at hleft hright
  rw [hleft, hright, mul_assoc]

/-- Settles O17: both readings from the wrapped product, which is commutative and associative because the integer one is. -/
theorem mulIsWrappingMultiplication : Obligations.MulIsWrappingMultiplication := fun x y z =>
  ⟨mul16_eq_wrap_sval x y, mul16_eq_wrap_uval x y, fun _ hj => mulSteps_eq x y hj, mul16_comm x y, mul16_assoc x y z⟩

/-- Settles O18, by the signed reading of the product. -/
theorem mulGivesTheLowProduct : Obligations.MulGivesTheLowProduct := fun x y _ =>
  completeWith_eq_next.2 (by rw [mul16_eq_wrap_sval])

/-! ## The long division of R104 -/

/-- The bits of a word from bit `k` up, from those above bit `k` and bit `k` itself. -/
theorem uval_div_two_pow (w : Word) {k : Nat} (hk : k < 16) :
    uval w / 2 ^ k = 2 * (uval w / 2 ^ (k + 1)) + (testBit w k).toNat := by
  have hfrom := Int.mul_ediv_add_emod (uval w) (2 ^ k)
  have habove := Int.mul_ediv_add_emod (uval w) (2 ^ (k + 1))
  have hbit : (if testBit w k then (2 : Int) ^ k else 0) = 2 ^ k * (testBit w k).toNat := by cases testBit w k <;> simp
  rw [uval_mod_two_pow_succ w hk, hbit] at habove
  have hpow : (2 : Int) ^ (k + 1) * (uval w / 2 ^ (k + 1)) = 2 ^ k * (2 * (uval w / 2 ^ (k + 1))) := by ring
  apply mul_left_cancel₀ (show (2 : Int) ^ k ≠ 0 by positivity)
  rw [mul_add]
  omega

/-- Before the last iteration the loop of R104 has taken up at most fifteen bits of the dividend. -/
theorem uval_div_two_pow_succ_le (w : Word) (k : Nat) : uval w / 2 ^ (k + 1) ≤ 32767 := by
  have := uval_lt w
  have hpos : (0 : Int) < 2 ^ k := by positivity
  have : uval w / 2 ^ (k + 1) < 32768 := Int.ediv_lt_of_lt_mul (by positivity) (by rw [pow_succ]; omega)
  omega

/-- Doubling a word below `2^15` and adding a bit does not wrap. -/
theorem uval_double_add_bit {w : Word} {b : Bool} (hw : uval w ≤ 32767) :
    uval (if b then w + w + 0x0001#16 else w + w) = 2 * uval w + b.toNat := by
  have := uval_nonneg w
  have hone : uval 0x0001#16 = 1 := by decide
  cases b with
  | false =>
    show uval (w + w) = 2 * uval w + 0
    rw [uval_add]; omega
  | true =>
    show uval (w + w + 0x0001#16) = 2 * uval w + 1
    rw [uval_add, uval_add, hone]; omega

/-- The loop of R104 after `n` iterations: quotient and remainder divide the dividend's first `n` bits by the divisor. -/
theorem udivSteps_spec {ax ay : Word} (hay : 1 ≤ uval ay) {n : Nat} (hn : n ≤ 16) :
    uval (udivSteps ax ay n).1 * uval ay + uval (udivSteps ax ay n).2 = uval ax / 2 ^ (16 - n) ∧
      uval (udivSteps ax ay n).2 < uval ay := by
  induction n with
  | zero =>
    have hax : uval ax / 2 ^ 16 = 0 := Int.ediv_eq_zero_of_lt (uval_nonneg ax) (uval_lt ax)
    have hzero : uval 0x0000#16 = 0 := by decide
    simp only [udivSteps, hzero, Nat.sub_zero, hax]
    omega
  | succ n ih =>
    obtain ⟨hdiv, hlt⟩ := ih (by omega)
    rw [show 16 - n = 15 - n + 1 by omega] at hdiv
    rw [show 16 - (n + 1) = 15 - n by omega, uval_div_two_pow ax (by omega), ← hdiv]
    have hbound := uval_div_two_pow_succ_le ax (15 - n)
    rw [← hdiv] at hbound
    simp only [udivSteps]
    generalize udivSteps ax ay n = p at hlt hbound ⊢
    obtain ⟨q, r⟩ := p
    dsimp only at hlt hbound ⊢
    have hq : uval q ≤ 32767 := by nlinarith [uval_nonneg q, uval_nonneg r]
    have hr : uval r ≤ 32767 := by nlinarith [uval_nonneg q, uval_nonneg r]
    have hr3 := uval_double_add_bit (b := testBit ax (15 - n)) hr
    generalize (if testBit ax (15 - n) then r + r + 0x0001#16 else r + r) = r3 at hr3 ⊢
    have hbit : (testBit ax (15 - n)).toNat ≤ 1 := Bool.toNat_le _
    split_ifs with hfits
    · have hsub : uval (r3 - ay) = uval r3 - uval ay := by
        rw [uval_sub]; exact Int.emod_eq_of_lt (by omega) (by have := uval_lt r3; omega)
      have hq2 : uval (q + q + 0x0001#16) = 2 * uval q + 1 := uval_double_add_bit (b := true) hq
      rw [hq2, hsub, hr3]
      exact ⟨by ring, by omega⟩
    · have hq2 : uval (q + q) = 2 * uval q + 0 := uval_double_add_bit (b := false) hq
      rw [hq2, hr3]
      exact ⟨by ring, by omega⟩

/-- The quotient and the last remainder of R104. -/
theorem udivSteps_sixteen {ax ay : Word} (hay : 1 ≤ uval ay) :
    uval (udivSteps ax ay 16).1 = uval ax / uval ay ∧ uval (udivSteps ax ay 16).2 = uval ax % uval ay := by
  obtain ⟨hdiv, hlt⟩ := udivSteps_spec (ax := ax) hay (le_refl 16)
  have hsum : uval (udivSteps ax ay 16).2 + uval ay * uval (udivSteps ax ay 16).1 = uval ax := by
    rw [Nat.sub_self, pow_zero, Int.ediv_one] at hdiv
    linarith
  obtain ⟨hquot, hrem⟩ := (Int.ediv_emod_unique (by omega)).2 ⟨hsum, uval_nonneg _, hlt⟩
  exact ⟨hquot.symm, hrem.symm⟩

theorem uval_udiv16 {ax ay : Word} (hay : 1 ≤ uval ay) : uval (udiv16 ax ay) = uval ax / uval ay :=
  (udivSteps_sixteen hay).1

/-- A remainder is at most the bits of the dividend it is left from. -/
theorem udivSteps_rem_le {ax ay : Word} (hay : 1 ≤ uval ay) {n : Nat} (hn : n < 16) : uval (udivSteps ax ay n).2 ≤ 32767 := by
  have hdiv := (udivSteps_spec (ax := ax) hay hn.le).1
  have hbound := uval_div_two_pow_succ_le ax (15 - n)
  rw [show 15 - n + 1 = 16 - n by omega] at hbound
  have : 0 ≤ uval (udivSteps ax ay n).1 * uval ay := mul_nonneg (uval_nonneg _) (uval_nonneg _)
  omega

/-- Settles O20, from the loop's invariant. -/
theorem udivIsTheFloorQuotient : Obligations.UdivIsTheFloorQuotient := fun _ _ hay =>
  ⟨uval_udiv16 hay, (udivSteps_sixteen hay).2, fun _ hn => (udivSteps_spec hay hn).2, fun _ hn => udivSteps_rem_le hay hn⟩

/-! ## DIV (40_arithmetic.md R103, R105) -/

/-- The magnitude word reads, unsigned, as the true magnitude, that of -32768 too (R103). -/
theorem uval_magnitude (x : Word) : uval (magnitude x) = |sval x| := by
  have hrange := sval_range x
  unfold magnitude negw
  split_ifs with hneg
  · rw [uval_wrap_of_range (by omega) (by omega), abs_of_neg hneg]
  · have hread := sval_eq x
    rw [abs_of_nonneg (by omega)]
    split_ifs at hread <;> have := uval_lt x <;> omega

theorem negw_wrap (i : Int) : negw (wrap i) = wrap (-i) := by
  have := sval_eq (wrap i)
  rw [uval_wrap] at this
  unfold negw
  rw [wrap_eq_wrap_iff]
  split_ifs at this <;> omega

/-- Rounding toward zero divides the magnitudes, and keeps their quotient when the signs agree. -/
theorem tdiv_of_same_sign {a b : Int} (h : a < 0 ↔ b < 0) : a.tdiv b = |a| / |b| := by
  rw [← Int.tdiv_eq_ediv_of_nonneg (abs_nonneg a)]
  rcases lt_or_ge a 0 with ha | ha
  · rw [abs_of_neg ha, abs_of_neg (h.1 ha), Int.neg_tdiv, Int.tdiv_neg, neg_neg]
  · rw [abs_of_nonneg ha, abs_of_nonneg (not_lt.1 (mt h.2 ha.not_gt))]

/-- Rounding toward zero divides the magnitudes, and negates their quotient when the signs differ. -/
theorem tdiv_of_opposite_sign {a b : Int} (h : ¬(a < 0 ↔ b < 0)) : a.tdiv b = -(|a| / |b|) := by
  rw [← Int.tdiv_eq_ediv_of_nonneg (abs_nonneg a)]
  rcases lt_or_ge a 0 with ha | ha
  · have hb : 0 ≤ b := by omega
    rw [abs_of_neg ha, abs_of_nonneg hb, Int.neg_tdiv, neg_neg]
  · have hb : b < 0 := by omega
    rw [abs_of_nonneg ha, abs_of_neg hb, Int.tdiv_neg, neg_neg]

/-- `quotient` is the truncated quotient, wrapped (R103). -/
theorem quotient_eq_wrap_tdiv (x : Word) {y : Word} (hy : sval y ≠ 0) : quotient x y = wrap ((sval x).tdiv (sval y)) := by
  have hay : 1 ≤ uval (magnitude y) := by rw [uval_magnitude]; exact Int.one_le_abs hy
  have hudiv : udiv16 (magnitude x) (magnitude y) = wrap (|sval x| / |sval y|) := by
    rw [← wrap_uval (udiv16 _ _), uval_udiv16 hay, uval_magnitude, uval_magnitude]
  rw [quotient, hudiv]
  split_ifs with hsigns
  · rw [negw_wrap, tdiv_of_opposite_sign (by simpa using hsigns)]
  · rw [tdiv_of_same_sign (by simpa using hsigns)]

/-- Settles O19: the quotient word is the truncated quotient, wrapped. -/
theorem divTruncatesTowardZero : Obligations.DivTruncatesTowardZero := by
  intro x y s
  show (if sval y = 0 then raise .divisionByZero s else completeWith (quotient x y) s) = _
  split_ifs with hy
  · rfl
  · rw [quotient_eq_wrap_tdiv x hy]; rfl

/-- The truncated quotient of two words fits a signed word but for the pair of R105: a divisor other than 1 and -1 at least halves
the magnitude. -/
theorem tdiv_range {a b : Int} (ha : -32768 ≤ a ∧ a ≤ 32767) (hb : b ≠ 0) (hpair : ¬(a = -32768 ∧ b = -1)) :
    -32768 ≤ a.tdiv b ∧ a.tdiv b ≤ 32767 := by
  by_cases hone : b.natAbs = 1
  · rcases Int.natAbs_eq_iff.1 hone with rfl | rfl
    · rw [Nat.cast_one, Int.tdiv_one]; exact ha
    · rw [Nat.cast_one, Int.tdiv_neg, Int.tdiv_one]; omega
  · have hhalf : (a.tdiv b).natAbs ≤ a.natAbs / 2 := by
      rw [Int.natAbs_tdiv]
      exact Nat.div_le_div_left (by omega) (by decide)
    omega

/-- The remainder is 0 or has the sign of the dividend (R105). -/
theorem tmod_eq_zero_or_sign (a b : Int) : a.tmod b = 0 ∨ (a.tmod b < 0 ↔ a < 0) := by
  have hsign := Int.sign_tmod a b
  split_ifs at hsign
  · exact .inl (Int.sign_eq_zero_iff_zero.1 hsign)
  · exact .inr (by rw [← Int.sign_eq_neg_one_iff_neg, hsign, Int.sign_eq_neg_one_iff_neg])

/-- Wrapped arithmetic does not see whether a factor was wrapped before. -/
theorem wrap_sval_wrap_mul_add (i j k : Int) : wrap (sval (wrap i) * j + k) = wrap (i * j + k) := by
  have h : sval (wrap i) ≡ i [ZMOD 65536] := wrap_eq_wrap_iff.1 (wrap_sval (wrap i))
  exact wrap_eq_wrap_iff.2 ((h.mul_right j).add_right k)

/-- Settles O21: the quotient is `Int.tdiv`, the remainder `Int.tmod`. -/
theorem divReconstructsTheDividend : Obligations.DivReconstructsTheDividend := by
  intro x y s t ht
  rw [divTruncatesTowardZero x y s] at ht
  constructor
  · intro hy
    rw [if_pos hy] at ht
    injection ht with ht
    rw [← ht]
  · intro hy
    rw [if_neg hy] at ht
    injection ht with ht
    have hr0 : t.r0 = wrap ((sval x).tdiv (sval y)) := by rw [← ht]
    have hrem : (sval x).tdiv (sval y) * sval y + (sval x).tmod (sval y) = sval x := Int.tdiv_mul_add_tmod _ _
    refine ⟨(sval x).tdiv (sval y), (sval x).tmod (sval y), hr0, Int.natAbs_tdiv _ _, ?_, ?_, ?_, ?_, ?_,
      tmod_eq_zero_or_sign _ _, ?_, hrem.symm, ?_⟩
    · intro hsame
      rw [tdiv_of_same_sign hsame]
      positivity
    · intro hopposite
      rw [tdiv_of_opposite_sign hopposite]
      exact neg_nonpos.2 (by positivity)
    · intro hpair
      have hrange := tdiv_range (sval_range x) hy hpair
      exact ⟨hrange.1, hrange.2, by rw [hr0]; exact sval_wrap_of_range hrange.1 hrange.2⟩
    · rintro ⟨hx, hy'⟩
      rw [hr0, hx, hy']
      exact ⟨by decide, by decide⟩
    · rw [Int.tmod_def, mul_comm]
    · rw [Int.natAbs_tmod]
      exact Nat.mod_lt _ (Int.natAbs_pos.2 hy)
    · rw [hr0, wrap_sval_wrap_mul_add, hrem, wrap_sval]

/-! ## SQRT (40_arithmetic.md R106 to R108) -/

theorem uval_mul16_self {c : Word} (hc : uval c ≤ 255) : uval (mul16 c c) = uval c * uval c := by
  have := uval_nonneg c
  rw [uval_mul16]
  exact Int.emod_eq_of_lt (by positivity) (by nlinarith)

theorem sval_neg_iff (w : Word) : sval w < 0 ↔ 32768 ≤ uval w := by
  have := uval_lt w
  have := uval_nonneg w
  rw [sval_eq]
  split_ifs <;> omega

/-- Settles O23: the square is below `2^16`, so its word is negative just from `2^15` up. -/
theorem sqrtGuardDetectsOverflow : Obligations.SqrtGuardDetectsOverflow := fun c _ hc =>
  ⟨uval_mul16_self hc, by rw [sval_neg_iff, uval_mul16_self hc]⟩

/-- After `n` iterations of R106 the bits not yet tried are zero. -/
theorem two_pow_dvd_sqrtSteps {x : Word} (hx : 0 ≤ sval x) {n : Nat} (hn : n ≤ 8) :
    (2 : Int) ^ (8 - n) ∣ uval (sqrtSteps x n) := by
  induction n with
  | zero => exact dvd_zero _
  | succ n ih =>
    have hroot : (2 : Int) ^ (7 - n) ∣ uval (sqrtSteps x n) := (pow_dvd_pow 2 (by omega)).trans (ih (by omega))
    rw [show 8 - (n + 1) = 7 - n by omega, sqrtSteps]
    split_ifs
    · have hroom := (sqrtSteps_spec hx (show n ≤ 8 by omega)).1
      have hlt : (2 : Int) ^ (7 - n) < 2 ^ (8 - n) := pow_lt_pow_right₀ (by decide) (by omega)
      have := uval_nonneg (sqrtSteps x n)
      have : (0 : Int) < 2 ^ (7 - n) := by positivity
      rw [uval_add, uval_pow2 (by omega), Int.emod_eq_of_lt (by omega) (by omega)]
      exact dvd_add hroot (dvd_refl _)
    · exact hroot

/-- The square of 182 exceeds every signed word (R108). -/
theorem isqrt16_le {x : Word} (hx : 0 ≤ sval x) : sval (isqrt16 x) ≤ 181 := by
  obtain ⟨-, hsq, -⟩ := isqrt16_spec hx
  have := sval_range x
  nlinarith

theorem exec_sqrt_of_nonneg {x : Word} (hx : 0 ≤ sval x) (s : State) :
    exec (.sqrt x) s = .next { s with r0 := isqrt16 x, st := 0x0000#16 } :=
  if_neg hx.not_gt

/-- Settles O22: the loop's bounds on the root, and that it is a multiple of the last bit tried. -/
theorem sqrtIsTheFloorRoot : Obligations.SqrtIsTheFloorRoot := by
  intro x s
  refine ⟨fun hx => if_pos hx, fun hx => ?_, fun hx n hn => ?_⟩
  · obtain ⟨h0, hsq, hlt⟩ := isqrt16_spec hx
    rw [pow_two] at hsq hlt
    exact ⟨sval (isqrt16 x), h0, isqrt16_le hx, hsq, hlt, by rw [wrap_sval, exec_sqrt_of_nonneg hx]⟩
  · obtain ⟨-, hsq, hlt⟩ := sqrtSteps_spec hx hn
    obtain ⟨m, hm⟩ := two_pow_dvd_sqrtSteps hx hn
    rw [mul_comm] at hm
    rw [hm, pow_two] at hsq hlt
    exact ⟨m, hm, hsq, by rwa [add_one_mul]⟩

/-! ## ABS, MAX and MIN (40_arithmetic.md R109 to R111) -/

/-- Settles O24: the magnitude word reads, unsigned, as the magnitude, and signed too when that is below `2^15`. -/
theorem absGivesTheMagnitude : Obligations.AbsGivesTheMagnitude := by
  intro x s
  refine ⟨magnitude x, rfl, rfl, uval_magnitude x, fun hx => ?_, fun hx => ?_⟩
  · have hrange := sval_range x
    have habs : |sval x| < 32768 := abs_lt.2 ⟨by omega, by omega⟩
    rw [sval_eq, uval_magnitude, if_pos habs]
  · exact uval_inj (by rw [uval_magnitude, hx]; decide)

/-- Settles O25: R110's comparison takes the larger signed reading. -/
theorem maxGivesTheLarger : Obligations.MaxGivesTheLarger := by
  intro a b s
  refine ⟨if sval b ≤ sval a then a else b, rfl, ite_eq_or_eq _ _ _, ?_⟩
  rw [max_def', apply_ite sval]

/-- Settles O26: R111's comparison takes the smaller signed reading. -/
theorem minGivesTheSmaller : Obligations.MinGivesTheSmaller := by
  intro a b s
  refine ⟨if sval a ≤ sval b then a else b, rfl, ite_eq_or_eq _ _ _, ?_⟩
  rw [min_def, apply_ite sval]

end Sys2Proof.Machine
end

section
/-! PROOFS. What HINIT, ALLOC and FREE do (41_heap_allocator.md R131, R135 to R143): each check in its order, and the exact next
state of each way to end in `OK`. -/

namespace Sys2Proof.Machine

variable {s : State} {size address n L : Word} {ns : List Word} {a f : Int}

/-! ## HINIT (41_heap_allocator.md R131) -/

theorem exec_hinit_of_not_hinited {b z : Word} (hinited : s.hinited = false) :
    exec (.hinit b z) s =
      if heapRangeOk s.cfg (uval b) (sval z) then complete (s.layHeap b z) else raise .badConfig s :=
  if_neg (by simp [hinited])

/-- HINIT writes the two words of one header. -/
theorem State.memRead_layHeap {b z : Word} (hrange : heapRangeOk s.cfg (uval b) (sval z)) (ha : inMemory a) :
    (s.layHeap b z).memRead a =
      if a = uval b + 1 then wrap (sval z - 2) else if a = uval b then nilWord else s.memRead a := by
  have hb := uval_nonneg b
  rw [State.memRead_congr (s.layHeap_mem b z), State.memRead_memWrite_of_range _ (by omega) ha,
    State.memRead_memWrite_of_range _ (inMemory_uval b) ha]
  simp only [eq_comm]

/-- Settles O28: the checks in their order, and what the one header holds. -/
theorem hinitLaysOneFreeNode : Obligations.HinitLaysOneFreeNode := by
  intro b z s
  refine ⟨fun hinited => if_pos hinited, fun hinited hbad => ?_, fun hinited hsize hend hscreen => ?_⟩
  · have hrange : ¬ heapRangeOk s.cfg (uval b) (sval z) := by
      rintro ⟨hsize, hend, hscreen⟩
      rcases hbad with hbad | hbad | hbad
      · omega
      · omega
      · exact hscreen hbad
    rw [exec_hinit_of_not_hinited hinited, if_neg hrange]
    rfl
  · have hrange : heapRangeOk s.cfg (uval b) (sval z) := by
      refine ⟨hsize, hend, ?_⟩
      rintro ⟨hraster, hover⟩
      have := hscreen hraster
      omega
    have hb := uval_nonneg b
    refine ⟨(s.layHeap b z).setStatus .ok, ?_, ?_, ?_, ?_, fun a ha hne hne' => ?_⟩
    · rw [exec_hinit_of_not_hinited hinited, if_pos hrange]; rfl
    · simp [State.layHeap, State.setStatus]
    · rw [State.memRead_setStatus, State.memRead_layHeap hrange (by omega), if_neg (by omega), if_pos rfl]
    · rw [State.memRead_setStatus, State.memRead_layHeap hrange (by omega), if_pos rfl]
    · rw [State.memRead_setStatus, State.memRead_layHeap hrange ha, if_neg hne', if_neg hne]

/-! ## ALLOC (41_heap_allocator.md R135 to R137) -/

/-- Settles O31: the first two checks. -/
theorem allocRefusesBadRequests : Obligations.AllocRefusesBadRequests := by
  intro size s
  refine ⟨fun hinited => if_pos (by simp [hinited]), fun hinited hsize => ?_⟩
  show execAlloc size s = _
  rw [execAlloc, if_neg (by simp [hinited]), if_pos hsize]
  rfl

/-- Past its first two checks ALLOC raises what its walk raises. -/
theorem exec_alloc_of_walk_error {e : Status} (hinited : s.hinited = true) (hsize : 0 < sval size)
    (hwalk : allocWalk s (sval size + 2) s.maxNodes s.head = .error e) : exec (.alloc size) s = raise e s := by
  show execAlloc size s = _
  rw [execAlloc, if_neg (by simp [hinited]), if_neg (by omega), hwalk]

/-- Past its first two checks ALLOC carves the block from the node its walk chooses. -/
theorem exec_alloc_of_walk_ok (hinited : s.hinited = true) (hsize : 0 < sval size)
    (hwalk : allocWalk s (sval size + 2) s.maxNodes s.head = .ok (n, L)) :
    exec (.alloc size) s = completeWith (wrap (carveAddr n L (sval size) + 2)) (s.carve n L (sval size)) := by
  show execAlloc size s = _
  rw [execAlloc, if_neg (by simp [hinited]), if_neg (by omega), hwalk]

/-- ALLOC's walk past nodes that do not fit, from `HEAD`. -/
theorem allocWalk_from_head {need : Int} (hw : s.walksTo s.head ns n) (hlen : ns.length ≤ s.maxNodes)
    (hall : ∀ x ∈ ns, s.tooSmall need x) :
    allocWalk s need s.maxNodes s.head = allocWalk s need (s.maxNodes - ns.length) n := by
  rw [← allocWalk_past hw hall, Nat.add_sub_cancel' hlen]

/-- ALLOC's walk chooses the first node that fits (R135). -/
theorem allocWalk_of_fit {need : Int} (hw : s.walksTo s.head ns n) (hlen : ns.length < s.maxNodes)
    (hall : ∀ x ∈ ns, s.tooSmall need x) (hn : s.passable n) (hvalid : validLen s n (s.memRead (uval n + 1)))
    (hfit : need ≤ sval (s.memRead (uval n + 1))) :
    allocWalk s need s.maxNodes s.head = .ok (n, s.memRead (uval n + 1)) := by
  rw [allocWalk_from_head hw hlen.le hall, show s.maxNodes - ns.length = s.maxNodes - ns.length - 1 + 1 by omega,
    allocWalk_node hn, if_pos hvalid, if_pos hfit]

/-- Settles O29: the walk chooses the node, and `wrap` of a size operand's reading is the operand. -/
theorem allocTakesTheFirstFit : Obligations.AllocTakesTheFirstFit := by
  intro size n ns s hinited hsize hw hlen hall hn hvalid hfit
  refine ⟨_, _, rfl, rfl, ?_⟩
  rw [exec_alloc_of_walk_ok hinited hsize (allocWalk_of_fit hw hlen hall hn hvalid hfit), State.carve, wrap_sval]
  rfl

/-- Settles O32: the walk arrives at `NIL`. -/
theorem allocReportsOutOfMemory : Obligations.AllocReportsOutOfMemory := by
  intro size ns s hinited hsize hw hlen hall
  exact exec_alloc_of_walk_error (e := .outOfMemory) hinited hsize (by rw [allocWalk_from_head hw hlen hall, allocWalk_nil])

/-- Settles O33: the walk stops at the node, for one of its three reasons. -/
theorem allocReportsACorruptList : Obligations.AllocReportsACorruptList := by
  intro size n ns s hinited hsize hw hlen hall hn hbad
  refine exec_alloc_of_walk_error (e := .heapCorrupt) hinited hsize ?_
  rw [allocWalk_from_head hw hlen hall]
  by_cases hstop : s.maxNodes - ns.length = 0 ∨ ¬ validNode s n
  · exact allocWalk_stop hn hstop
  · obtain ⟨hleft, hnode⟩ := not_or.1 hstop
    have hvalid : ¬ validLen s n (s.memRead (uval n + 1)) := by
      rcases hbad with hbad | hbad | hbad
      · omega
      · exact absurd hbad hnode
      · exact hbad
    rw [show s.maxNodes - ns.length = s.maxNodes - ns.length - 1 + 1 by omega, allocWalk_node ⟨hn, not_not.1 hnode⟩,
      if_neg hvalid]

/-- Writes to different addresses of memory leave the same state in any order. -/
theorem foldl_memWrite_perm {ws ws' : List (Int × Word)} (hperm : ws.Perm ws') (hmem : ∀ w ∈ ws, inMemory w.1)
    (hnodup : (ws.map Prod.fst).Nodup) :
    ws.foldl (fun u w => u.memWrite w.1 w.2) s = ws'.foldl (fun u w => u.memWrite w.1 w.2) s := by
  refine hperm.foldl_eq' (fun v hv w hw u => ?_) s
  by_cases heq : v.1 = w.1
  · rw [List.inj_on_of_nodup_map hnodup hv hw heq]
  · exact State.memWrite_comm _ _ _ fun hwrap => heq ((wrap_inj (hmem v hv) (hmem w hw)).1 hwrap)

/-- ALLOC's fresh header lies between its node's header and the block, all of them in memory (R137). -/
theorem carveAddr_range {z : Int} (hmem : uval n + 2 + sval L ≤ 65536) (hfit : z + 2 ≤ sval L) :
    0 ≤ uval n ∧ uval n + 2 ≤ carveAddr n L z ∧ carveAddr n L z + 2 + z ≤ 65536 := by
  have := uval_nonneg n
  unfold carveAddr
  omega

/-- Settles O35: the three addresses differ, so any order leaves what the rule's own order leaves. -/
theorem allocWritesInAnyOrder : Obligations.AllocWritesInAnyOrder := by
  intro s n L size hmem hsize hfit
  refine ⟨fun hinited hwalk => ?_, fun ws hperm => ?_⟩
  · rw [exec_alloc_of_walk_ok hinited hsize hwalk, completeWith_eq_next]
  obtain ⟨h0, h1, h2⟩ := carveAddr_range hmem hfit
  rw [← foldl_memWrite_perm hperm.symm, State.carve_mem, wrap_sval]
  · simp only [List.foldl_cons, List.foldl_nil]
  · simp only [List.forall_mem_cons, List.not_mem_nil, false_imp_iff, implies_true, and_true]
    omega
  · simp only [List.map_cons, List.map_nil, List.nodup_cons, List.mem_cons, List.not_mem_nil, List.nodup_nil,
      or_false, not_false_iff, and_true]
    omega

/-! ## FREE's look at the block that follows (41_heap_allocator.md R141, R142) -/

/-- Nothing is looked for without `COALESCE`, or when the block ends the heap. -/
theorem freeNeighbour_of_not_searched (h : s.cfg.coalesce = false ∨ s.hend ≤ f) : freeNeighbour s f = .ok none := by
  refine if_neg ?_
  rintro ⟨hcoalesce, hf⟩
  rcases h with h | h
  · rw [h] at hcoalesce; cases hcoalesce
  · omega

theorem freeNeighbour_of_walk_error {e : Status} (hcoalesce : s.cfg.coalesce = true) (hf : f < s.hend)
    (hwalk : freeWalk s f s.maxNodes none s.head = .error e) : freeNeighbour s f = .error e := by
  rw [freeNeighbour, if_pos ⟨hcoalesce, hf⟩, hwalk]

theorem freeNeighbour_of_walk_no (hcoalesce : s.cfg.coalesce = true) (hf : f < s.hend)
    (hwalk : freeWalk s f s.maxNodes none s.head = .ok .no) : freeNeighbour s f = .ok none := by
  rw [freeNeighbour, if_pos ⟨hcoalesce, hf⟩, hwalk]

/-- A free block that starts right after is absorbed when its length is valid. -/
theorem freeNeighbour_of_walk_yes {prev : Option Word} (hcoalesce : s.cfg.coalesce = true) (hf : uval n < s.hend)
    (hwalk : freeWalk s (uval n) s.maxNodes none s.head = .ok (.yes prev)) :
    freeNeighbour s (uval n) =
      if validLen s n (s.memRead (uval n + 1)) then
        .ok (some { prev := prev, len := s.memRead (uval n + 1), next := s.memRead (uval n) })
      else .error .heapCorrupt := by
  rw [freeNeighbour, if_pos ⟨hcoalesce, hf⟩, hwalk]
  dsimp only
  rw [wrap_uval, ite_not]

/-- FREE's search past nodes that do not start at `f`, from `HEAD`. -/
theorem freeWalk_from_head (hw : s.walksTo s.head ns n) (hlen : ns.length ≤ s.maxNodes)
    (hall : ∀ x ∈ ns, s.passable x ∧ uval x ≠ f) :
    freeWalk s f s.maxNodes none s.head = freeWalk s f (s.maxNodes - ns.length) ns.getLast? n := by
  have hpast := freeWalk_past (left := s.maxNodes - ns.length) (prev := none) hw hall
  rwa [Nat.add_sub_cancel' hlen, Option.or_none] at hpast

/-- FREE's search meets the node that starts at `f`. -/
theorem freeWalk_of_found (hw : s.walksTo s.head ns n) (hlen : ns.length < s.maxNodes)
    (hall : ∀ x ∈ ns, s.passable x ∧ uval x ≠ uval n) (hn : s.passable n) :
    freeWalk s (uval n) s.maxNodes none s.head = .ok (.yes ns.getLast?) := by
  rw [freeWalk_from_head hw hlen.le hall, show s.maxNodes - ns.length = s.maxNodes - ns.length - 1 + 1 by omega,
    freeWalk_node hn, if_pos rfl]

/-! ## FREE (41_heap_allocator.md R141, R143) -/

/-- Settles O38: the checks before the search, in their order. -/
theorem freeErrorsBeforeTheWalk : Obligations.FreeErrorsBeforeTheWalk := by
  intro address s
  refine ⟨fun hinited => if_pos (by simp [hinited]), fun hinited hlive => ?_, fun hinited hlive hbad => ?_⟩ <;>
    show execFree address s = _
  · rw [execFree, if_neg (by simp [hinited]), if_pos (by simp [hlive])]
    rfl
  · rw [show uval address - 1 = uval address - 2 + 1 by omega] at hbad
    rw [execFree, if_neg (by simp [hinited]), if_neg (by simp [hlive])]
    exact if_pos (by omega)

/-- What FREE has checked before it looks at the block that follows (R141): the block is live and its size word is good. -/
structure Freeable (s : State) (address : Word) : Prop where
  inited : s.hinited = true
  live : s.isLive (uval address) = true
  positive : 0 < sval (s.memRead (uval address - 1))
  inside : uval address + sval (s.memRead (uval address - 1)) ≤ s.hend

/-- Past those checks FREE's answer is that of its look at the block that follows. -/
theorem Freeable.exec_eq {found : Except Status (Option Neighbour)} (h : Freeable s address) :
    freeNeighbour s (uval address + sval (s.memRead (uval address - 1))) = found →
    exec (.free address) s =
      match found with
      | .error e => raise e s
      | .ok nb => complete (s.release (uval address - 2) (s.memRead (uval address - 1)) nb) := by
  intro hfound
  have hpos := h.positive
  have hinside := h.inside
  show execFree address s = _
  rw [execFree, if_neg (by simp [h.inited]), if_neg (by simp [h.live])]
  dsimp only
  rw [show uval address - 2 + 1 = uval address - 1 by omega, show uval address - 2 + 2 = uval address by omega,
    if_neg (by omega)]
  cases found <;> rw [hfound]

theorem Freeable.exec_of_error {e : Status} (h : Freeable s address)
    (herror : freeNeighbour s (uval address + sval (s.memRead (uval address - 1))) = .error e) :
    exec (.free address) s = raise e s :=
  h.exec_eq herror

theorem Freeable.exec_of_ok {nb : Option Neighbour} (h : Freeable s address)
    (hok : freeNeighbour s (uval address + sval (s.memRead (uval address - 1))) = .ok nb) :
    exec (.free address) s = complete (s.release (uval address - 2) (s.memRead (uval address - 1)) nb) :=
  h.exec_eq hok

/-- Linking the block at `address - 2` writes the word before `address` and forgets that `address` is live. -/
theorem State.linkAtHead_sub_two (s : State) (address : Word) (len : Int) :
    s.linkAtHead (uval address - 2) len =
      { ((s.memWrite (uval address - 2) s.head).memWrite (uval address - 1) (wrap len)).clearLive (uval address) with
        head := wrap (uval address - 2) } := by
  rw [State.linkAtHead, show uval address - 2 + 1 = uval address - 1 by omega, show uval address - 2 + 2 = uval address by omega]

/-- Settles O36: FREE finds nothing to merge, for one of the three reasons. -/
theorem freeLinksAtTheHead : Obligations.FreeLinksAtTheHead := by
  intro address s hinited hlive hpos hinside hnone
  have hnb : freeNeighbour s (uval address + sval (s.memRead (uval address - 1))) = .ok none := by
    by_cases hskip : s.cfg.coalesce = false ∨ s.hend ≤ uval address + sval (s.memRead (uval address - 1))
    · exact freeNeighbour_of_not_searched hskip
    obtain ⟨hcoalesce, hend⟩ := not_or.1 hskip
    rcases hnone with hnone | hnone | ⟨ns, hw, hlen, hall⟩
    · exact absurd hnone hcoalesce
    · exact absurd hnone.ge hend
    · exact freeNeighbour_of_walk_no (by simpa using hcoalesce) (not_le.1 hend)
        (by rw [freeWalk_from_head hw hlen hall, freeWalk_nil])
  rw [Freeable.exec_of_ok ⟨hinited, hlive, hpos, hinside⟩ hnb, State.release, State.linkAtHead_sub_two, wrap_sval]
  rfl

/-- Settles O37: FREE finds the block that follows, first in the list or behind another. -/
theorem freeMergesTheFollowingBlock : Obligations.FreeMergesTheFollowingBlock := by
  rintro address n ns s S Lf nf hinited hlive rfl hpos hcoalesce hstart hend hw hlen hall hn rfl hvalid rfl
  have hall' : ∀ x ∈ ns, s.passable x ∧ uval x ≠ uval n := fun x hx => ⟨(hall x hx).1, mt uval_inj (hall x hx).2⟩
  have hnb : freeNeighbour s (uval address + sval (s.memRead (uval address - 1))) =
      .ok (some ⟨ns.getLast?, s.memRead (uval n + 1), s.memRead (uval n)⟩) := by
    rw [← hstart, freeNeighbour_of_walk_yes hcoalesce hend (freeWalk_of_found hw hlen hall' hn), if_pos hvalid]
  rw [Freeable.exec_of_ok ⟨hinited, hlive, hpos, by omega⟩ hnb, State.release, State.linkAtHead_sub_two]
  cases hlast : ns.getLast? with
  | none => rfl
  | some prev => rfl

/-- Settles O39: the search fails, or finds a block whose length is not valid. -/
theorem freeReportsACorruptList : Obligations.FreeReportsACorruptList := by
  rintro address n ns s f hinited hlive hpos rfl hend hcoalesce hw hlen hall hn hbad
  refine Freeable.exec_of_error (e := .heapCorrupt) ⟨hinited, hlive, hpos, hend.le⟩ ?_
  by_cases hstop : s.maxNodes - ns.length = 0 ∨ ¬ validNode s n
  · exact freeNeighbour_of_walk_error hcoalesce hend (by rw [freeWalk_from_head hw hlen hall, freeWalk_stop hn hstop])
  · obtain ⟨hleft, hnode⟩ := not_or.1 hstop
    obtain ⟨hstart, hvalid⟩ : uval n = _ ∧ _ := by
      rcases hbad with hbad | hbad | hbad
      · omega
      · exact absurd hbad hnode
      · exact hbad
    rw [← hstart] at hend hall hvalid ⊢
    rw [freeNeighbour_of_walk_yes hcoalesce hend (freeWalk_of_found hw (by omega) hall ⟨hn, not_not.1 hnode⟩), if_neg hvalid]

end Sys2Proof.Machine
end

section
/-! PROOFS. What HINIT, ALLOC and FREE leave behind (41_heap_allocator.md R136 to R143): every word, register and `LIVE` bit, the
capacity of a fresh heap, and that a freed block is reused first. -/

namespace Sys2Proof.Machine

variable {s t : State} {size address n L : Word} {a h len : Int}

/-! ## A command that ended in `OK` -/

theorem code_ne_zero_of_mem_errorsOf {i : Instr} {e : Status} (he : e ∈ errorsOf i) : e.code ≠ 0x0000#16 := by
  refine Status.code_ne_zero ?_
  rintro rfl
  cases i <;> simp [errorsOf] at he

/-- An error is no `OK` (60_exceptions.md R200). -/
theorem st_ne_zero_of_raise {i : Instr} {e : Status} (he : e ∈ errorsOf i) (ht : raise e s = .next t) : t.st ≠ 0x0000#16 := by
  rw [raise_eq_next.1 ht]
  exact code_ne_zero_of_mem_errorsOf he

/-- An ALLOC that ended in `OK` has carved its block from the node its walk chose. -/
theorem exec_alloc_ok (ht : exec (.alloc size) s = .next t) (hok : t.st = 0x0000#16) :
    ∃ n L, s.hinited = true ∧ 0 < sval size ∧ allocWalk s (sval size + 2) s.maxNodes s.head = .ok (n, L) ∧
      L = s.memRead (uval n + 1) ∧ validNode s n ∧ validLen s n L ∧ sval size + 2 ≤ sval L ∧
      t = { s.carve n L (sval size) with r0 := wrap (carveAddr n L (sval size) + 2), st := 0x0000#16 } := by
  rcases execAlloc_cases size s with ⟨e, he, hr⟩ | ⟨ns, n, hinited, hsize, hw, hlen, hall, hn, hvalid, hfit, hr⟩ <;>
    rw [exec, hr] at ht
  · exact absurd hok (st_ne_zero_of_raise he ht)
  · exact ⟨n, _, hinited, hsize, allocWalk_of_fit hw hlen hall hn hvalid hfit, rfl, hn.2, hvalid, hfit,
      completeWith_eq_next.1 ht⟩

/-- A FREE that ended in `OK` has released its block, with the neighbour it had found. -/
theorem exec_free_ok (ht : exec (.free address) s = .next t) (hok : t.st = 0x0000#16) :
    ∃ nb, Freeable s address ∧ freeNeighbour s (uval address + sval (s.memRead (uval address - 1))) = .ok nb ∧
      t = { s.release (uval address - 2) (s.memRead (uval address - 1)) nb with st := 0x0000#16 } := by
  rcases execFree_cases address s with ⟨e, he, hr⟩ | ⟨nb, hinited, hlive, hpos, hinside, hnb, hr⟩ <;> rw [exec, hr] at ht
  · exact absurd hok (st_ne_zero_of_raise he ht)
  · exact ⟨nb, ⟨hinited, hlive, hpos, hinside⟩, hnb, complete_eq_next.1 ht⟩

/-! ## The words after ALLOC and after FREE -/

/-- ALLOC writes the length of its node and the two words of the fresh header (R137). -/
theorem State.memRead_carve {z : Int} (hmem : uval n + 2 + sval L ≤ 65536) (hsize : 0 < z) (hfit : z + 2 ≤ sval L)
    (ha : inMemory a) :
    (s.carve n L z).memRead a =
      if a = carveAddr n L z + 1 then wrap z
      else if a = carveAddr n L z then nilWord
      else if a = uval n + 1 then wrap (sval L - (z + 2)) else s.memRead a := by
  obtain ⟨h0, h1, h2⟩ := carveAddr_range hmem hfit
  rw [State.memRead_congr (s.carve_mem n L z), State.memRead_memWrite_of_range _ (by omega) ha,
    State.memRead_memWrite_of_range _ (by omega) ha, State.memRead_memWrite_of_range _ (by omega) ha]
  simp only [eq_comm]

/-- Linking a block at the head of the list writes its header (R141). -/
theorem State.memRead_linkAtHead (h0 : 0 ≤ h) (h1 : h + 2 ≤ 65536) (ha : inMemory a) :
    (s.linkAtHead h len).memRead a = if a = h + 1 then wrap len else if a = h then s.head else s.memRead a := by
  rw [State.memRead_congr (s.linkAtHead_mem h len), State.memRead_memWrite_of_range _ (by omega) ha,
    State.memRead_memWrite_of_range _ (by omega) ha]
  simp only [eq_comm]

/-- Unlinking writes the `next` word of the node before the neighbour, if there is one (R141). -/
theorem State.memRead_unlink {nb : Neighbour} (ha : inMemory a) :
    (s.unlink nb).memRead a = if nb.prev.map uval = some a then nb.next else s.memRead a := by
  obtain ⟨_ | p, _, next⟩ := nb
  · rfl
  · show (s.memWrite (uval p) next).memRead a = _
    rw [State.memRead_memWrite_of_range _ (inMemory_uval p) ha]
    simp

/-- Off the block's header FREE changes at most the word that unlinking changes (R141). -/
theorem State.memRead_release_of_ne {S : Word} {nb : Option Neighbour} (h0 : 0 ≤ h) (h1 : h + 2 ≤ 65536) (ha : inMemory a)
    (hne : a ≠ h) (hne' : a ≠ h + 1) :
    (s.release h S nb).memRead a = nb.elim (s.memRead a) fun k => (s.unlink k).memRead a := by
  cases nb <;> exact (State.memRead_linkAtHead h0 h1 ha).trans (by rw [if_neg hne', if_neg hne]; rfl)

/-! ## Frames -/

/-- Whether an address is live depends on `LIVE` alone. -/
theorem State.isLive_congr (h : s.live = t.live) : s.isLive = t.isLive := by
  unfold State.isLive; rw [h]

/-- Settles O30: the three words ALLOC writes, and the bit it sets. -/
theorem allocFrame : Obligations.AllocFrame := by
  intro size s t hinv ht hok
  obtain ⟨n, L, hinited, hsize, hwalk, hL, hnode, hvalid, hfit, heq⟩ := exec_alloc_ok ht hok
  have hfits := hinv.hend_le hinited
  have hmem : uval n + 2 + sval L ≤ 65536 := hvalid.2.trans hfits
  obtain ⟨h0, h1, h2⟩ := carveAddr_range hmem hfit
  have hread {a : Int} (ha : inMemory a) := State.memRead_carve (s := s) hmem hsize hfit ha
  have hmemRead : t.memRead = (s.carve n L (sval size)).memRead := funext (State.memRead_congr (by rw [heq]))
  have hisLive : t.isLive = (s.setLive (carveAddr n L (sval size) + 2)).isLive := State.isLive_congr (by rw [heq]; rfl)
  have hr0 : t.r0 = wrap (carveAddr n L (sval size) + 2) := by rw [heq]
  refine ⟨?_, n, L, _, hwalk, hL, rfl, ?_, h1, ?_, ?_, ?_, ?_, ?_,
    fun a ha hn hh hh' => ?_, fun a ha => ?_⟩
  · rw [heq, State.mk.injEq]; simp -- field by field
  · unfold State.inHeap; omega
  · rw [hr0, uval_wrap_of_range (by omega) (by omega)]
  · unfold carveAddr; omega
  · rw [hmemRead, hread (by omega), if_neg (by omega), if_pos rfl]
  · rw [hmemRead, hread (by omega), if_pos rfl, wrap_sval]
  · have := sval_range L
    rw [hmemRead, hread (by omega), if_neg (by omega), if_neg (by omega), if_pos rfl, sval_wrap_of_range (by omega) (by omega)]
  · rw [hmemRead, hread ha, if_neg hh', if_neg hh, if_neg hn]
  · have hblock : inMemory (carveAddr n L (sval size) + 2) := by omega
    simp only [hisLive, State.isLive_setLive, wrap_inj ha hblock]

/-- A neighbour is found only with `COALESCE` (41_heap_allocator.md R142). -/
theorem coalesce_of_freeNeighbour {f : Int} {nb : Neighbour} (h : freeNeighbour s f = .ok (some nb)) :
    s.cfg.coalesce = true := by
  by_contra hno
  rw [freeNeighbour_of_not_searched (.inl (by simpa using hno))] at h
  cases h

/-- Settles O40: the header FREE writes, the word its unlinking writes, and the bit it clears. -/
theorem freeFrame : Obligations.FreeFrame := by
  intro address s t hinv ht hok
  obtain ⟨found, hfree, hfound, heq⟩ := exec_free_ok ht hok
  have hrange := hinv.range_of_isLive hfree.live
  have hbase := uval_nonneg s.hbase
  have hfits := hinv.hend_le hfree.inited
  have hread {a : Int} (ha : inMemory a) (hne : a ≠ uval address - 2) (hne' : a ≠ uval address - 1) :
      t.memRead a = found.elim (s.memRead a) fun nb => (s.unlink nb).memRead a := by
    rw [heq]
    exact State.memRead_release_of_ne (by omega) (by omega) ha hne (by omega)
  have hisLive : t.isLive = (s.clearLive (uval address)).isLive :=
    State.isLive_congr (by rw [heq, State.clearLive_live]; simp only [State.release_live, sub_add_cancel])
  refine ⟨by rw [heq, State.release_eq], by unfold State.inHeap; omega, by unfold State.inHeap; omega, fun a ha => ?_, found,
    hfound, ?_, fun a ha hne hne' hprev => ?_⟩
  · rw [hisLive, State.isLive_clearLive]
    simp only [wrap_inj ha (inMemory_uval address), ne_eq, decide_not]
  · rintro nb p rfl hp
    have hnode := validNode_of_freeNeighbour_prev hfound hp
    refine ⟨coalesce_of_freeNeighbour hfound, by unfold State.inHeap; omega, fun hne hne' => ?_⟩
    rw [hread (inMemory_uval p) hne hne', Option.elim_some, State.memRead_unlink (inMemory_uval p), if_pos (by rw [hp]; rfl)]
  · rw [hread ha hne hne']
    cases found with
    | none => rfl
    | some nb =>
      rw [Option.elim_some, State.memRead_unlink ha, if_neg]
      rw [Option.map_eq_some_iff]
      rintro ⟨p, hp, rfl⟩
      exact hprev nb p rfl hp rfl

/-! ## The capacity of a fresh heap (41_heap_allocator.md R139) -/

/-- The heap that a HINIT which ended in `OK` has laid. -/
theorem exec_hinit_ok {b z : Word} (ht : exec (.hinit b z) s = .next t) (hok : t.st = 0x0000#16) :
    s.hinited = false ∧ heapRangeOk s.cfg (uval b) (sval z) ∧ t = { s.layHeap b z with st := 0x0000#16 } := by
  have hbad {e : Status} (he : e ∈ errorsOf (.hinit b z)) (hr : raise e s = .next t) : False := st_ne_zero_of_raise he hr hok
  cases hinited : s.hinited
  · rw [exec_hinit_of_not_hinited hinited] at ht
    by_cases hrange : heapRangeOk s.cfg (uval b) (sval z)
    · rw [if_pos hrange] at ht
      exact ⟨rfl, hrange, complete_eq_next.1 ht⟩
    · rw [if_neg hrange] at ht
      exact (hbad (by simp [errorsOf]) ht).elim
  · rw [exec, execHinit, if_pos hinited] at ht
    exact (hbad (by simp [errorsOf]) ht).elim

/-- The one node of a freshly laid heap: it passes the walker's check, it takes the whole range, and `NIL` follows it (R131). -/
theorem State.layHeap_node {b z : Word} (hrange : heapRangeOk s.cfg (uval b) (sval z)) :
    (s.layHeap b z).hend = uval b + sval z ∧ (s.layHeap b z).passable b ∧ (s.layHeap b z).memRead (uval b) = nilWord ∧
      sval ((s.layHeap b z).memRead (uval b + 1)) = sval z - 2 := by
  obtain ⟨hsize, hend, -⟩ := id hrange
  have hb := uval_nonneg b
  have hz := sval_range z
  have hheap : (s.layHeap b z).hend = uval b + sval z := by simp [State.hend]
  have hnode : validNode (s.layHeap b z) b := by
    rw [validNode, hheap, State.layHeap_hbase, wrap_uval]; omega
  refine ⟨hheap, ⟨ne_nilWord_of_validNode (hheap.trans_le hend) hnode, hnode⟩, ?_, ?_⟩
  · rw [State.memRead_layHeap hrange (by omega), if_neg (by omega), if_pos rfl]
  · rw [State.memRead_layHeap hrange (by omega), if_pos rfl, sval_wrap_of_range (by omega) (by omega)]

/-- Settles O34: the walk meets the one node of the fresh heap, which either fits or is followed by `NIL`. -/
theorem freshHeapCapacity : Obligations.FreshHeapCapacity := by
  intro b z size s t ht hok hsize
  obtain ⟨-, hrange, heq⟩ := exec_hinit_ok ht hok
  obtain ⟨hheap, hnode, hnext, hlength⟩ := State.layHeap_node (s := s) hrange
  obtain ⟨hinited, hhead, hmax, hend, hpass, hread⟩ : t.hinited = true ∧ t.head = b ∧ t.maxNodes = (sval z / 2).toNat ∧
      t.hend = uval b + sval z ∧ t.passable b ∧ t.memRead = (s.layHeap b z).memRead := by
    rw [heq]
    exact ⟨rfl, wrap_uval b, by simp [State.maxNodes], hheap, hnode, funext (State.memRead_congr rfl)⟩
  rw [← hread] at hnext hlength
  have hz := hrange.1
  have hvalid : validLen t b (t.memRead (uval b + 1)) := by
    rw [validLen, hlength, hend]; omega
  constructor
  · intro hfit
    obtain ⟨L, h, hL, hh, halloc⟩ := allocTakesTheFirstFit size b [] t hinited hsize hhead (by rw [hmax, List.length_nil]; omega)
      nofun hpass hvalid (by omega)
    refine ⟨_, halloc, rfl, ?_⟩
    have hb := uval_nonneg b
    have hfits := hrange.2.1
    show uval (wrap (h + 2)) = _
    rw [uval_wrap_of_range (by omega) (by omega)]
    omega
  · intro hfit
    have hsmall : t.tooSmall (sval size + 2) b := ⟨hpass, hvalid, by omega⟩
    exact allocReportsOutOfMemory size [b] t hinited hsize ⟨hhead, hnext⟩ (by rw [hmax, List.length_singleton]; omega)
      (by simpa using hsmall)

/-! ## Reuse (41_heap_allocator.md R143, 90_conflicts.md C1) -/

/-- The block that FREE links at the head ends in the heap, with what it has absorbed (R141). -/
theorem Freeable.length_release_le {nb : Option Neighbour} (hfree : Freeable s address) (hinv : s.Inv)
    (hnb : freeNeighbour s (uval address + sval (s.memRead (uval address - 1))) = .ok nb) :
    uval address + sval ((s.release (uval address - 2) (s.memRead (uval address - 1)) nb).memRead (uval address - 1)) ≤
      s.hend := by
  have hrange := hinv.range_of_isLive hfree.live
  have hbase := uval_nonneg s.hbase
  have hfits := hinv.hend_le hfree.inited
  have hpos := hfree.positive
  have hread (u : State) (len : Int) : (u.linkAtHead (uval address - 2) len).memRead (uval address - 1) = wrap len := by
    rw [State.memRead_linkAtHead (by omega) (by omega) (by omega), if_pos (by omega)]
  rcases freeNeighbour_cases s (uval address + sval (s.memRead (uval address - 1))) with
    hc | ⟨hc, -⟩ | ⟨ns, n, hc, -, -, -, -, -, -, hstart, hlen⟩ <;> rw [hc] at hnb <;> cases hnb <;>
    rw [State.release, hread]
  · rw [wrap_sval]; exact hfree.inside
  · have hsize := sval_range s.hsize
    have hend : s.hend = uval s.hbase + sval s.hsize := rfl
    dsimp only
    rw [sval_wrap_of_range (by omega) (by omega)]
    omega

/-- Settles O41: the freed block is the first node of the list, so ALLOC's walk chooses it when it fits. -/
theorem freedBlockIsReusedFirst : Obligations.FreedBlockIsReusedFirst := by
  intro address size s t hinv ht hok hsize hfit
  obtain ⟨nb, hfree, hnb, heq⟩ := exec_free_ok ht hok
  have hlength := hfree.length_release_le hinv hnb
  have hrange := hinv.range_of_isLive hfree.live
  have hbase := uval_nonneg s.hbase
  have hfits := hinv.hend_le hfree.inited
  obtain ⟨n, hn⟩ : ∃ n, n = wrap (uval address - 2) := ⟨_, rfl⟩
  have hstart : uval n = uval address - 2 := by rw [hn, uval_wrap_of_range (by omega) (by omega)]
  obtain ⟨hinited, hhead, hmax, hregs, hread⟩ : t.hinited = true ∧ t.head = n ∧ t.maxNodes = s.maxNodes ∧
      (t.hbase = s.hbase ∧ t.hend = s.hend) ∧
      t.memRead = (s.release (uval address - 2) (s.memRead (uval address - 1)) nb).memRead := by
    refine ⟨?_, ?_, ?_, ⟨?_, ?_⟩, funext (State.memRead_congr (by rw [heq]))⟩ <;> rw [heq] <;>
      simp [State.maxNodes, State.hend, hfree.inited, hn]
  rw [← hread] at hlength
  have hword : uval n + 1 = uval address - 1 := by omega
  have hnode : validNode t n := by rw [validNode, hregs.1, hregs.2]; omega
  have hvalid : validLen t n (t.memRead (uval n + 1)) := by rw [validLen, hword, hregs.2]; omega
  have hbound : 0 < t.maxNodes := by rw [hmax]; unfold State.maxNodes; unfold State.hend at hrange; omega
  obtain ⟨L, h, hL, hh, halloc⟩ := allocTakesTheFirstFit size n [] t hinited hsize hhead hbound nofun
    ⟨ne_nilWord_of_validNode (hregs.2.trans_le hfits) hnode, hnode⟩ hvalid (by rw [hword]; exact hfit)
  rw [hword] at hL
  have hr0 : uval (wrap (h + 2)) = h + 2 := uval_wrap_of_range (by omega) (by omega)
  refine ⟨_, halloc, rfl, ?_, ?_⟩
  · show _ ≤ uval (wrap (h + 2)); omega
  · show uval (wrap (h + 2)) + _ = _; omega

end Sys2Proof.Machine
end

section
/-! PROOFS. The heap as a tiling (20_memory.md R64): the blocks of a range, the free list as a list of addresses, and a heap that is
laid out but for one extent, in which a command is writing. -/

namespace Sys2Proof.Machine

/-! ## Blocks that tile a range (20_memory.md R64) -/

section Tiles

variable {b e : Int} {ks pre post : List Block} {j k : Block}

theorem tiles_append_cons :
    tiles b (pre ++ k :: post) e ↔ tiles b pre k.header ∧ 0 ≤ k.length ∧ tiles (k.header + 2 + k.length) post e := by
  induction pre generalizing b with
  | nil =>
    simp only [List.nil_append, tiles, eq_comm (a := b)]
    exact and_congr_right fun hb => by rw [hb]
  | cons j pre ih => simp only [List.cons_append, tiles, ih, and_assoc]

theorem le_of_tiles (h : tiles b ks e) : b ≤ e := by
  induction ks generalizing b with
  | nil => exact le_of_eq h
  | cons k ks ih => obtain ⟨-, hlen, h⟩ := h; have := ih h; omega

/-- A block of a tiling lies in the tiled range. -/
theorem range_of_mem_tiles (h : tiles b ks e) (hk : k ∈ ks) : b ≤ k.header ∧ 0 ≤ k.length ∧ k.header + 2 + k.length ≤ e := by
  obtain ⟨pre, post, rfl⟩ := List.append_of_mem hk
  obtain ⟨hpre, hlen, hpost⟩ := tiles_append_cons.1 h
  exact ⟨le_of_tiles hpre, hlen, le_of_tiles hpost⟩

/-- Two blocks of a tiling are one, or the extent of one ends before the other begins. -/
theorem tiles_apart (h : tiles b ks e) (hj : j ∈ ks) (hk : k ∈ ks) :
    j = k ∨ j.header + 2 + j.length ≤ k.header ∨ k.header + 2 + k.length ≤ j.header := by
  obtain ⟨pre, post, rfl⟩ := List.append_of_mem hk
  obtain ⟨hpre, -, hpost⟩ := tiles_append_cons.1 h
  rcases List.mem_append.1 hj with hj | hj
  · exact .inr (.inl (range_of_mem_tiles hpre hj).2.2)
  rcases List.mem_cons.1 hj with rfl | hj
  · exact .inl rfl
  · exact .inr (.inr (range_of_mem_tiles hpost hj).1)

/-- The block of a tiling that starts where the range starts is the first. -/
theorem eq_cons_of_tiles (h : tiles b ks e) (hk : k ∈ ks) (hb : k.header = b) : ∃ ks', ks = k :: ks' := by
  obtain _ | ⟨j, ks⟩ := ks
  · cases hk
  obtain ⟨hj, hlen, h⟩ := h
  rcases List.mem_cons.1 hk with rfl | hk
  · exact ⟨ks, rfl⟩
  · have := (range_of_mem_tiles h hk).1; omega

/-- The block that starts where another ends is the next. -/
theorem eq_cons_of_tiles_append_cons (h : tiles b (pre ++ k :: post) e) (hj : j ∈ pre ++ k :: post)
    (hstart : j.header = k.header + 2 + k.length) : ∃ post', post = j :: post' := by
  obtain ⟨hpre, hlen, hpost⟩ := tiles_append_cons.1 h
  rcases List.mem_append.1 hj with hj | hj
  · have := range_of_mem_tiles hpre hj; omega
  rcases List.mem_cons.1 hj with rfl | hj
  · omega
  · exact eq_cons_of_tiles hpost hj hstart

/-- Every block takes at least the two words of its header. -/
theorem two_mul_length_le_of_tiles (h : tiles b ks e) : 2 * (ks.length : Int) ≤ e - b := by
  induction ks generalizing b with
  | nil => have : b = e := h; simp; omega
  | cons k ks ih => obtain ⟨-, hlen, h⟩ := h; have := ih h; push_cast [List.length_cons]; omega

/-- What some block satisfies, when one block stands out. -/
theorem exists_mem_append_cons {p : Block → Prop} :
    (∃ j ∈ pre ++ k :: post, p j) ↔ p k ∨ ∃ j ∈ pre ++ post, p j := by
  simp only [List.perm_middle.mem_iff, List.exists_mem_cons_iff]

/-- What every block satisfies, when one block stands out. -/
theorem forall_mem_append_cons {p : Block → Prop} :
    (∀ j ∈ pre ++ k :: post, p j) ↔ p k ∧ ∀ j ∈ pre ++ post, p j := by
  simp only [List.perm_middle.mem_iff, List.forall_mem_cons]

end Tiles

/-! ## The free list as the addresses it visits (20_memory.md R62, R64) -/

section FreeList

variable {s t : State} {n n₀ : Word} {nodes as bs : List Int} {a f : Int} {ns : List Word}

theorem inMemory_of_mem_freeListFrom (h : s.freeListFrom n nodes) (ha : a ∈ nodes) : inMemory a := by
  induction nodes generalizing n with
  | nil => cases ha
  | cons c cs ih =>
    obtain ⟨-, rfl, h⟩ := h
    rcases List.mem_cons.1 ha with rfl | ha
    · exact inMemory_uval n
    · exact ih h ha

/-- The free list is read from the `next` words of its nodes. -/
theorem State.freeListFrom_congr (h : s.freeListFrom n nodes) (ht : ∀ a ∈ nodes, t.memRead a = s.memRead a) :
    t.freeListFrom n nodes := by
  induction nodes generalizing n with
  | nil => exact h
  | cons c cs ih =>
    obtain ⟨hn, hc, h⟩ := h
    refine ⟨hn, hc, ?_⟩
    rw [ht c (by simp)]
    exact ih h fun a ha => ht a (by simp [ha])

/-- The walker follows the free list: the nodes it leaves behind are the list's first, and the rest starts where it arrives. -/
theorem State.freeListFrom_of_walksTo (h : s.freeListFrom n₀ nodes) (hw : s.walksTo n₀ ns n) (hns : ∀ x ∈ ns, x ≠ nilWord) :
    ∃ rest, nodes = ns.map uval ++ rest ∧ s.freeListFrom n rest := by
  induction ns generalizing n₀ nodes with
  | nil => exact ⟨nodes, rfl, by rwa [← show n₀ = n from hw]⟩
  | cons x xs ih =>
    obtain ⟨rfl, hw⟩ := hw
    obtain _ | ⟨c, cs⟩ := nodes
    · exact absurd h (hns n₀ (by simp))
    obtain ⟨-, rfl, h⟩ := h
    obtain ⟨rest, rfl, hrest⟩ := ih h hw fun y hy => hns y (by simp [hy])
    exact ⟨rest, rfl, hrest⟩

/-- Copying the `next` word of node `f` to the node `a` before it takes `f` out of the list. -/
theorem State.freeListFrom_memWrite_skip (h : s.freeListFrom n (as ++ a :: f :: bs)) (hnodup : (as ++ a :: f :: bs).Nodup) :
    (s.memWrite a (s.memRead f)).freeListFrom n (as ++ a :: bs) := by
  have hread {c : Int} (hc : c ∈ as ++ a :: f :: bs) (hne : c ≠ a) : (s.memWrite a (s.memRead f)).memRead c = s.memRead c := by
    have ha := inMemory_of_mem_freeListFrom h (show a ∈ as ++ a :: f :: bs by simp)
    rw [State.memRead_memWrite_of_range _ ha (inMemory_of_mem_freeListFrom h hc), if_neg hne.symm]
  induction as generalizing n with
  | nil =>
    obtain ⟨hn, hna, -, -, hbs⟩ := h
    refine ⟨hn, hna, ?_⟩
    rw [State.memRead_memWrite, if_pos rfl]
    refine State.freeListFrom_congr hbs fun c hc => hread (by simp [hc]) ?_
    rintro rfl
    simp [hc] at hnodup
  | cons c cs ih =>
    obtain ⟨hn, hnc, h⟩ := h
    refine ⟨hn, hnc, ?_⟩
    rw [hread (by simp) (by rintro rfl; simp at hnodup)]
    exact ih h (List.nodup_cons.1 hnodup).2 fun hd => hread (by simp at hd ⊢; tauto)

/-- FREE's unlinking takes the neighbour out of the list and leaves the other nodes (41_heap_allocator.md R141). -/
theorem State.freeListFrom_unlink {nb : Neighbour} (h : s.freeListFrom s.head (as ++ f :: bs)) (hnodup : (as ++ f :: bs).Nodup)
    (hprev : nb.prev.map uval = as.getLast?) (hnext : nb.next = s.memRead f) :
    (s.unlink nb).freeListFrom (s.unlink nb).head (as ++ bs) := by
  obtain ⟨_ | p, len, next⟩ := nb <;> obtain rfl : next = s.memRead f := hnext
  case none =>
    obtain rfl : as = [] := List.getLast?_eq_none_iff.1 hprev.symm
    exact State.freeListFrom_congr h.2.2 fun _ _ => rfl
  case some =>
    obtain ⟨cs, rfl⟩ := List.getLast?_eq_some_iff.1 hprev.symm
    rw [List.append_assoc, List.singleton_append] at h hnodup ⊢
    exact State.freeListFrom_memWrite_skip h hnodup

end FreeList

/-! ## A heap laid out but for one extent -/

/-- The heap is well formed with the blocks `pre` and `post` and this free list, but for the extent of a header and `len` words
at `lo` between them, of which nothing is said: neither its words, nor its `LIVE` bit, nor that it is free. -/
structure State.LaidOutBut (s : State) (lo len : Int) (pre post : List Block) (nodes : List Int) : Prop where
  inited : s.hinited = true
  fits : s.hend ≤ 65536
  before : tiles (uval s.hbase) pre lo
  room : 0 ≤ len
  after : tiles (lo + 2 + len) post s.hend
  lengths : ∀ k ∈ pre ++ post, sval (s.memRead (k.header + 1)) = k.length
  walk : s.freeListFrom s.head nodes
  noCycle : nodes.Nodup
  free : ∀ a, a ∈ nodes ↔ ∃ k ∈ pre ++ post, k.isFree = true ∧ k.header = a
  allocated : ∀ a, inMemory a → a ≠ lo + 2 →
    (s.isLive a = true ↔ ∃ k ∈ pre ++ post, k.isFree = false ∧ k.header + 2 = a)
  sizes : ∀ k ∈ pre ++ post, k.isFree = false → 0 < k.length

/-- In a well-formed heap an allocated block may be set aside. -/
theorem State.HeapLaidOut.setAside {s : State} {pre post : List Block} {k : Block} {nodes : List Int}
    (h : s.HeapLaidOut (pre ++ k :: post) nodes) (hfits : s.hend ≤ 65536) (hk : k.isFree = false) :
    s.LaidOutBut k.header k.length pre post nodes := by
  obtain ⟨hbefore, hroom, hafter⟩ := tiles_append_cons.1 h.tiling
  refine ⟨h.inited, hfits, hbefore, hroom, hafter, (forall_mem_append_cons.1 h.lengths).2, h.walk, h.noCycle, fun a => ?_,
    fun a ha hne => ?_, (forall_mem_append_cons.1 h.sizes).2⟩
  · rw [h.free, exists_mem_append_cons]; simp [hk]
  · rw [h.allocated a ha, exists_mem_append_cons]; simp [hne.symm]

namespace State.LaidOutBut

variable {s : State} {lo len a : Int} {pre post : List Block} {nodes as bs : List Int} {k : Block}

theorem tiling (h : s.LaidOutBut lo len pre post nodes) (isFree : Bool) :
    tiles (uval s.hbase) (pre ++ ⟨lo, len, isFree⟩ :: post) s.hend :=
  tiles_append_cons.2 ⟨h.before, h.room, h.after⟩

/-- The extent left open lies in the heap, and the heap in memory. -/
theorem extent (h : s.LaidOutBut lo len pre post nodes) :
    0 ≤ uval s.hbase ∧ uval s.hbase ≤ lo ∧ 0 ≤ len ∧ lo + 2 + len ≤ s.hend ∧ s.hend ≤ 65536 :=
  ⟨uval_nonneg _, le_of_tiles h.before, h.room, le_of_tiles h.after, h.fits⟩

/-- Every block lies in memory, clear of the extent left open. -/
theorem block (h : s.LaidOutBut lo len pre post nodes) (hk : k ∈ pre ++ post) :
    0 ≤ k.header ∧ 0 ≤ k.length ∧ k.header + 2 + k.length ≤ 65536 ∧
      (k.header + 2 + k.length ≤ lo ∨ lo + 2 + len ≤ k.header) := by
  have hextent := h.extent
  rcases List.mem_append.1 hk with hk | hk
  · have := range_of_mem_tiles h.before hk; omega
  · have := range_of_mem_tiles h.after hk; omega

/-- A node of the free list is the header of a block, so it lies in memory, clear of the extent left open. -/
theorem node (h : s.LaidOutBut lo len pre post nodes) (ha : a ∈ nodes) :
    0 ≤ a ∧ a + 2 ≤ 65536 ∧ (a + 2 ≤ lo ∨ lo + 2 + len ≤ a) := by
  obtain ⟨k, hk, -, rfl⟩ := (h.free a).1 ha
  have := h.block hk
  omega

/-- No block's length word is a node's `next` word. -/
theorem length_ne_node (h : s.LaidOutBut lo len pre post nodes) (hk : k ∈ pre ++ post) (ha : a ∈ nodes) : a ≠ k.header + 1 := by
  obtain ⟨j, hj, -, rfl⟩ := (h.free a).1 ha
  have hmem {i : Block} (hi : i ∈ pre ++ post) : i ∈ pre ++ ⟨lo, len, true⟩ :: post := List.perm_middle.mem_iff.2 (.tail _ hi)
  have hj0 := (h.block hj).2.1
  have hk0 := (h.block hk).2.1
  rcases tiles_apart (h.tiling true) (hmem hj) (hmem hk) with rfl | hapart <;> omega

/-! ### Writing in the open extent -/

theorem memWrite (h : s.LaidOutBut lo len pre post nodes) (hlo : lo ≤ a) (hhi : a < lo + 2 + len) (v : Word) :
    (s.memWrite a v).LaidOutBut lo len pre post nodes := by
  have hextent := h.extent
  have hread {c : Int} (hc : inMemory c) (hne : a ≠ c) : (s.memWrite a v).memRead c = s.memRead c := by
    rw [State.memRead_memWrite_of_range _ (by omega) hc, if_neg hne]
  refine { h with lengths := fun k hk => ?_, walk := State.freeListFrom_congr h.walk fun c hc => ?_ }
  · have := h.block hk
    rw [hread (by omega) (by omega), h.lengths k hk]
  · have := h.node hc
    rw [hread (by omega) (by omega)]

/-- Changing no `LIVE` bit but that of the open extent. -/
theorem setLiveMap {l : LiveMap} (h : s.LaidOutBut lo len pre post nodes)
    (hl : ∀ a, wrap a ≠ wrap (lo + 2) → ({ s with live := l } : State).isLive a = s.isLive a) (hlen : 0 < len) :
    ({ s with live := l } : State).LaidOutBut lo len pre post nodes := by
  have hextent := h.extent
  refine { h with walk := State.freeListFrom_congr h.walk fun _ _ => rfl, allocated := fun a ha hne => ?_ }
  rw [hl a (mt (wrap_inj ha (by omega)).1 hne), h.allocated a ha hne]

theorem setLive (h : s.LaidOutBut lo len pre post nodes) (hlen : 0 < len) :
    (s.setLive (lo + 2)).LaidOutBut lo len pre post nodes :=
  h.setLiveMap (fun a hne => (s.isLive_setLive _ a).trans (by rw [decide_eq_false hne, Bool.false_or])) hlen

theorem clearLive (h : s.LaidOutBut lo len pre post nodes) (hlen : 0 < len) :
    (s.clearLive (lo + 2)).LaidOutBut lo len pre post nodes :=
  h.setLiveMap (fun a hne => (s.isLive_clearLive _ a).trans (by rw [decide_eq_false hne, Bool.not_false, Bool.true_and])) hlen

/-! ### Closing the open extent -/

/-- The extent becomes an allocated block when its size word and its `LIVE` bit say so. -/
theorem place (h : s.LaidOutBut lo len pre post nodes) (hsize : sval (s.memRead (lo + 1)) = len) (hpos : 0 < len)
    (hlive : s.isLive (lo + 2) = true) : s.HeapLaidOut (pre ++ ⟨lo, len, false⟩ :: post) nodes where
  inited := h.inited
  tiling := h.tiling false
  lengths := forall_mem_append_cons.2 ⟨hsize, h.lengths⟩
  walk := h.walk
  noCycle := h.noCycle
  free a := by rw [h.free, exists_mem_append_cons]; simp
  allocated a ha := by
    rw [exists_mem_append_cons]
    by_cases hne : a = lo + 2
    · simp [hne, hlive]
    · rw [h.allocated a ha hne]; simp [Ne.symm hne]
  sizes := forall_mem_append_cons.2 ⟨fun _ => hpos, h.sizes⟩

/-- The extent becomes the first free block when its header holds the old `HEAD` and its length, and its `LIVE` bit is clear. -/
theorem link (h : s.LaidOutBut lo len pre post nodes) (hnext : s.memRead lo = s.head)
    (hsize : sval (s.memRead (lo + 1)) = len) (hlive : s.isLive (lo + 2) = false) :
    ({ s with head := wrap lo } : State).HeapLaidOut (pre ++ ⟨lo, len, true⟩ :: post) (lo :: nodes) where
  inited := h.inited
  tiling := h.tiling true
  lengths := forall_mem_append_cons.2 ⟨hsize, h.lengths⟩
  walk := by
    have hextent := h.extent
    have hlo : uval (wrap lo) = lo := uval_wrap_of_range (by omega) (by omega)
    refine ⟨fun (hnil : wrap lo = nilWord) => ?_, hlo, ?_⟩
    · rw [hnil, uval_nilWord] at hlo; omega
    · show State.freeListFrom _ (s.memRead lo) nodes
      rw [hnext]
      exact State.freeListFrom_congr h.walk fun _ _ => rfl
  noCycle := List.nodup_cons.2 ⟨fun hlo => by have := h.node hlo; have := h.room; omega, h.noCycle⟩
  free a := by rw [List.mem_cons, h.free, exists_mem_append_cons]; simp [eq_comm (a := a)]
  allocated a ha := by
    show s.isLive a = true ↔ _
    rw [exists_mem_append_cons]
    by_cases hne : a = lo + 2
    · rw [hne, hlive]
      refine iff_of_false Bool.false_ne_true ?_
      rintro (⟨hfree, -⟩ | ⟨k, hk, -, hk2⟩)
      · cases hfree
      · have := h.block hk; have := h.room; omega
    · rw [h.allocated a ha hne]; simp
  sizes := forall_mem_append_cons.2 ⟨nofun, h.sizes⟩

/-! ### Taking a free block into the open extent -/

/-- FREE's unlinking writes a `next` word, so no block's length changes. -/
theorem memRead_unlink_length {nb : Neighbour} (h : s.LaidOutBut lo len pre post nodes)
    (hprev : ∀ p, nb.prev = some p → uval p ∈ nodes) (hk : k ∈ pre ++ post) :
    (s.unlink nb).memRead (k.header + 1) = s.memRead (k.header + 1) := by
  obtain ⟨_ | p, _, _⟩ := nb
  · rfl
  · have := h.block hk
    have hp := hprev p rfl
    show (s.memWrite (uval p) _).memRead (k.header + 1) = s.memRead (k.header + 1)
    rw [State.memRead_memWrite_of_range _ (inMemory_uval p) (by omega), if_neg (h.length_ne_node hk hp)]

/-- FREE's unlinking of the free block right after the extent lets the extent grow over that block (41_heap_allocator.md R141). -/
theorem unlink {f l : Int} {nb : Neighbour} (h : s.LaidOutBut lo len pre (⟨f, l, true⟩ :: post) (as ++ f :: bs))
    (hprev : nb.prev.map uval = as.getLast?) (hnext : nb.next = s.memRead f) :
    (s.unlink nb).LaidOutBut lo (len + 2 + l) pre post (as ++ bs) := by
  obtain ⟨hf, hl, hafter⟩ : f = lo + 2 + len ∧ 0 ≤ l ∧ tiles (lo + 2 + len + 2 + l) post s.hend := h.after
  have hroom := h.room
  have hregs : (s.unlink nb).hend = s.hend ∧ (s.unlink nb).isLive = s.isLive := by
    simp only [State.hend, State.isLive, funext_iff, State.unlink_hbase, State.unlink_hsize, State.unlink_live, implies_true,
      and_self]
  have hmem {k : Block} (hk : k ∈ pre ++ post) : k ∈ pre ++ ⟨f, l, true⟩ :: post := List.perm_middle.mem_iff.2 (.tail _ hk)
  have hprevNode : ∀ p, nb.prev = some p → uval p ∈ as ++ f :: bs := fun p hp =>
    List.mem_append_left _ (List.mem_of_getLast? (by rw [← hprev, hp]; rfl))
  have hperm : (as ++ f :: bs).Perm (f :: (as ++ bs)) := List.perm_middle
  obtain ⟨hfresh, hnodup⟩ := List.nodup_cons.1 (hperm.nodup_iff.1 h.noCycle)
  have hhead {k : Block} (hk : k ∈ pre ++ post) : k.header ≠ f := by
    rcases List.mem_append.1 hk with hk | hk
    · have := range_of_mem_tiles h.before hk; omega
    · have := range_of_mem_tiles hafter hk; omega
  refine ⟨by simpa using h.inited, hregs.1 ▸ h.fits, by simpa using h.before, by omega, ?_, fun k hk => ?_,
    State.freeListFrom_unlink h.walk h.noCycle hprev hnext, hnodup, fun a => ?_, fun a ha hne => ?_,
    (forall_mem_append_cons.1 h.sizes).2⟩
  · rw [hregs.1, show lo + 2 + (len + 2 + l) = lo + 2 + len + 2 + l by omega]; exact hafter
  · rw [h.memRead_unlink_length hprevNode (hmem hk), h.lengths k (hmem hk)]
  · have hfree := h.free a
    rw [hperm.mem_iff, List.mem_cons, exists_mem_append_cons] at hfree
    by_cases haf : a = f
    · subst haf
      exact iff_of_false hfresh fun ⟨k, hk, _, hka⟩ => hhead hk hka
    · simpa [haf, Ne.symm haf] using hfree
  · rw [hregs.2, h.allocated a ha hne, exists_mem_append_cons]; simp

end State.LaidOutBut

/-- ALLOC's shortening of a free block opens the extent it gives up (41_heap_allocator.md R137). -/
theorem State.HeapLaidOut.shrink {s : State} {pre post : List Block} {nodes : List Int} {a l len : Int}
    (h : s.HeapLaidOut (pre ++ ⟨a, l + 2 + len, true⟩ :: post) nodes) (hfits : s.hend ≤ 65536) (hl : 0 ≤ l) (hlen : 0 ≤ len) :
    (s.memWrite (a + 1) (wrap l)).LaidOutBut (a + 2 + l) len (pre ++ [⟨a, l, true⟩]) post nodes := by
  obtain ⟨hbefore, -, hafter⟩ := tiles_append_cons.1 h.tiling
  obtain ⟨hlength, hlengths⟩ := forall_mem_append_cons.1 h.lengths
  have hbase := uval_nonneg s.hbase
  have hstart := le_of_tiles hbefore
  have hstop := le_of_tiles hafter
  dsimp only at hbefore hafter hlength hstart hstop
  have hrange := sval_range (s.memRead (a + 1))
  have hread {c : Int} (hc : inMemory c) (hne : a + 1 ≠ c) : (s.memWrite (a + 1) (wrap l)).memRead c = s.memRead c := by
    rw [State.memRead_memWrite_of_range _ (by omega) hc, if_neg hne]
  have hother {k : Block} (hk : k ∈ pre ++ post) : 0 ≤ k.header ∧ 0 ≤ k.length ∧ k.header + 2 ≤ 65536 ∧
      (k.header + 2 ≤ a ∨ a + 2 ≤ k.header) := by
    rcases List.mem_append.1 hk with hk | hk
    · have := range_of_mem_tiles hbefore hk; omega
    · have := range_of_mem_tiles hafter hk; omega
  refine ⟨h.inited, hfits, tiles_append_cons.2 ⟨hbefore, hl, rfl⟩, hlen, ?_, ?_, State.freeListFrom_congr h.walk fun c hc => ?_,
    h.noCycle, fun c => ?_, fun c hc _ => ?_, ?_⟩
  · rw [show a + 2 + l + 2 + len = a + 2 + (l + 2 + len) by omega]; exact hafter
  · rw [List.append_assoc, List.singleton_append]
    refine forall_mem_append_cons.2 ⟨?_, fun k hk => ?_⟩
    · show sval ((s.memWrite (a + 1) (wrap l)).memRead (a + 1)) = l
      rw [State.memRead_memWrite, if_pos rfl, sval_wrap_of_range (by omega) (by omega)]
    · have := hother hk
      rw [hread (by omega) (by omega), hlengths k hk]
  · obtain ⟨k, hk, -, rfl⟩ := (h.free c).1 hc
    have hne : a + 1 ≠ k.header := by
      rcases List.mem_cons.1 (List.perm_middle.mem_iff.1 hk) with rfl | hk
      · show a + 1 ≠ a; omega
      · have := hother hk; omega
    exact hread (inMemory_of_mem_freeListFrom h.walk hc) hne
  · rw [h.free, List.append_assoc, List.singleton_append, exists_mem_append_cons, exists_mem_append_cons]
  · show s.isLive c = true ↔ _
    rw [h.allocated c hc, List.append_assoc, List.singleton_append, exists_mem_append_cons, exists_mem_append_cons]
  · rw [List.append_assoc, List.singleton_append]
    exact forall_mem_append_cons.2 ⟨nofun, (forall_mem_append_cons.1 h.sizes).2⟩

end Sys2Proof.Machine
end

section
/-! PROOFS. The heap stays well formed (41_heap_allocator.md R145, R146): HINIT lays the tiling, ALLOC and FREE keep it, and in a
well-formed heap no walk finds anything wrong. -/

namespace Sys2Proof.Machine

variable {s t : State} {blocks : List Block} {nodes : List Int} {n : Word} {ns : List Word}

/-- Being well formed does not depend on the result and the status. -/
theorem State.heapWellFormed.of_same_heap (h : s.heapWellFormed) (ht : t = { s with r0 := t.r0, st := t.st }) :
    t.heapWellFormed := by
  obtain ⟨blocks, nodes, h⟩ := h
  rw [ht]
  exact ⟨blocks, nodes, { h with walk := State.freeListFrom_congr h.walk fun _ _ => rfl }⟩

/-- An error leaves the heap as it is (60_exceptions.md R206). -/
theorem State.heapWellFormed.of_raise {e : Status} (h : s.heapWellFormed) (ht : raise e s = .next t) : t.heapWellFormed :=
  h.of_same_heap (by rw [raise_eq_next.1 ht])

theorem State.heapWellFormed.of_complete (h : s.heapWellFormed) (ht : complete s = .next t) : t.heapWellFormed :=
  h.of_same_heap (by rw [complete_eq_next.1 ht])

theorem State.heapWellFormed.of_completeWith {v : Word} (h : s.heapWellFormed) (ht : completeWith v s = .next t) :
    t.heapWellFormed :=
  h.of_same_heap (by rw [completeWith_eq_next.1 ht])

/-! ## The walker in a well-formed heap (41_heap_allocator.md R134, R145) -/

/-- The walker follows the free list, so where it arrives short of the end it meets a node of the list. -/
theorem State.HeapLaidOut.nodes_of_walk (h : s.HeapLaidOut blocks nodes) (hw : s.walksTo s.head ns n)
    (hns : ∀ x ∈ ns, s.passable x) (hn : n ≠ nilWord) : ∃ rest, nodes = ns.map uval ++ uval n :: rest := by
  obtain ⟨_ | ⟨c, rest⟩, rfl, hrest⟩ := State.freeListFrom_of_walksTo h.walk hw fun x hx => (hns x hx).1
  · exact absurd hrest hn
  · exact ⟨rest, by rw [hrest.2.1]⟩

/-- A node the walker arrives at is a free block, with the length that its length word says. -/
theorem State.HeapLaidOut.block_of_walk (h : s.HeapLaidOut blocks nodes) (hw : s.walksTo s.head ns n)
    (hns : ∀ x ∈ ns, s.passable x) (hn : n ≠ nilWord) : ⟨uval n, sval (s.memRead (uval n + 1)), true⟩ ∈ blocks := by
  obtain ⟨rest, hnodes⟩ := h.nodes_of_walk hw hns hn
  obtain ⟨⟨header, length, isFree⟩, hk, rfl, rfl⟩ := (h.free (uval n)).1 (by simp [hnodes])
  rwa [h.lengths _ hk]

/-- A well-formed heap has at most `MAXNODES` blocks, so its free list is no longer (R134). -/
theorem State.HeapLaidOut.length_nodes_le (h : s.HeapLaidOut blocks nodes) : nodes.length ≤ s.maxNodes := by
  have hblocks := two_mul_length_le_of_tiles h.tiling
  have hsub : nodes ⊆ blocks.map Block.header := fun a ha => by
    obtain ⟨k, hk, -, rfl⟩ := (h.free a).1 ha
    exact List.mem_map_of_mem hk
  have hle := (h.noCycle.subperm hsub).length_le
  rw [List.length_map] at hle
  unfold State.maxNodes
  unfold State.hend at hblocks
  omega

/-- Arriving at a node, the walker has some of its bound left, and the node passes both checks. -/
theorem State.HeapLaidOut.walk_ok (h : s.HeapLaidOut blocks nodes) (hw : s.walksTo s.head ns n)
    (hns : ∀ x ∈ ns, s.passable x) (hn : n ≠ nilWord) :
    ns.length < s.maxNodes ∧ validNode s n ∧ validLen s n (s.memRead (uval n + 1)) := by
  obtain ⟨rest, hnodes⟩ := h.nodes_of_walk hw hns hn
  obtain ⟨hlo, hlen, hhi⟩ := range_of_mem_tiles h.tiling (h.block_of_walk hw hns hn)
  have hbound := h.length_nodes_le
  rw [hnodes, List.length_append, List.length_map, List.length_cons] at hbound
  dsimp only at hlo hlen hhi
  exact ⟨by omega, ⟨hlo, by omega⟩, hlen, hhi⟩

/-- ALLOC's walk finds nothing wrong with a well-formed heap. -/
theorem State.HeapLaidOut.allocWalk_ne_corrupt (h : s.HeapLaidOut blocks nodes) (need : Int) :
    allocWalk s need s.maxNodes s.head ≠ .error .heapCorrupt := by
  obtain ⟨ns, n, hw, -, hall, ⟨hr, -⟩ | ⟨-, hn, hbad⟩ | ⟨hr, -⟩⟩ := allocWalk_cases s need s.maxNodes s.head
  · rw [hr]; nofun
  · obtain ⟨hbound, hnode, hlen⟩ := h.walk_ok hw (fun x hx => (hall x hx).1) hn
    rcases hbad with hbad | hbad | hbad
    · omega
    · exact absurd hnode hbad
    · exact absurd hlen hbad
  · rw [hr]; nofun

/-- FREE's look at the block that follows finds nothing wrong with a well-formed heap. -/
theorem State.HeapLaidOut.freeNeighbour_ne_error (h : s.HeapLaidOut blocks nodes) (f : Int) (e : Status) :
    freeNeighbour s f ≠ .error e := by
  by_cases hskip : s.cfg.coalesce = false ∨ s.hend ≤ f
  · rw [freeNeighbour_of_not_searched hskip]; nofun
  obtain ⟨hcoalesce, hend⟩ := not_or.1 hskip
  rw [Bool.not_eq_false] at hcoalesce
  rw [not_le] at hend
  obtain ⟨ns, n, hw, -, hall, ⟨-, hn, hbad⟩ | ⟨hr, -⟩ | ⟨hr, -, hn, rfl⟩⟩ := freeWalk_cases s f s.maxNodes none s.head
  · obtain ⟨hbound, hnode, -⟩ := h.walk_ok hw (fun x hx => (hall x hx).1) hn
    rcases hbad with hbad | hbad
    · omega
    · exact absurd hnode hbad
  · rw [freeNeighbour_of_walk_no hcoalesce hend hr]; nofun
  · rw [freeNeighbour_of_walk_yes hcoalesce hend hr, if_pos (h.walk_ok hw (fun x hx => (hall x hx).1) hn.1).2.2]; nofun

/-- A live address is past the header of an allocated block, whose length its size word says. -/
theorem State.HeapLaidOut.block_of_isLive {address : Word} (h : s.HeapLaidOut blocks nodes)
    (hlive : s.isLive (uval address) = true) :
    ⟨uval address - 2, sval (s.memRead (uval address - 1)), false⟩ ∈ blocks := by
  obtain ⟨⟨header, length, isFree⟩, hk, rfl, haddr⟩ := (h.allocated _ (inMemory_uval address)).1 hlive
  obtain rfl : header = uval address - 2 := by dsimp only at haddr; omega
  have hlength := h.lengths _ hk
  rw [show uval address - 2 + 1 = uval address - 1 by omega] at hlength
  rwa [hlength]

/-- A live block of a well-formed heap has a good size word. -/
theorem State.HeapLaidOut.freeable {address : Word} (h : s.HeapLaidOut blocks nodes) (hlive : s.isLive (uval address) = true) :
    Freeable s address := by
  have hblock := h.block_of_isLive hlive
  obtain ⟨-, -, hend⟩ := range_of_mem_tiles h.tiling hblock
  exact ⟨h.inited, hlive, h.sizes _ hblock rfl, by dsimp only at hend; omega⟩

/-! ## No command raises `HeapCorrupt` (41_heap_allocator.md R145) -/

/-- A status other than `OK` that a command leaves is one of its errors (60_exceptions.md R202). -/
theorem mem_errorsOf_of_st {i : Instr} {e : Status} (ht : exec i s = .next t) (hst : t.st = e.code) (he : e ≠ .ok) :
    e ∈ errorsOf i := by
  have hno : t.st ≠ 0x0000#16 := by rw [hst]; exact Status.code_ne_zero he
  rcases exec_cases i s with ⟨e', he', hr⟩ | ⟨-, u, hr, -⟩ | ⟨-, v, u, hr, -⟩ <;> rw [hr] at ht
  · rw [raise_eq_next.1 ht] at hst
    exact Status.code_inj hst ▸ he'
  · exact absurd (by rw [complete_eq_next.1 ht]) hno
  · exact absurd (by rw [completeWith_eq_next.1 ht]) hno

theorem State.HeapLaidOut.exec_alloc_ne_corrupt {size : Word} (h : s.HeapLaidOut blocks nodes)
    (ht : exec (.alloc size) s = .next t) : t.st ≠ Status.heapCorrupt.code := by
  by_cases hsize : 0 < sval size
  · cases hwalk : allocWalk s (sval size + 2) s.maxNodes s.head with
    | error e =>
      rw [exec_alloc_of_walk_error h.inited hsize hwalk, raise_eq_next] at ht
      rw [ht]
      exact fun hst => h.allocWalk_ne_corrupt _ (hwalk.trans (by rw [Status.code_inj hst]))
    | ok nL =>
      rw [exec_alloc_of_walk_ok h.inited hsize hwalk, completeWith_eq_next] at ht
      rw [ht]
      show Status.ok.code ≠ Status.heapCorrupt.code; decide
  · rw [(allocRefusesBadRequests size s).2 h.inited (not_lt.1 hsize)] at ht
    cases ht
    show Status.invalidSize.code ≠ Status.heapCorrupt.code; decide

theorem State.HeapLaidOut.exec_free_ne_corrupt {address : Word} (h : s.HeapLaidOut blocks nodes)
    (ht : exec (.free address) s = .next t) : t.st ≠ Status.heapCorrupt.code := by
  cases hlive : s.isLive (uval address) with
  | false =>
    rw [(freeErrorsBeforeTheWalk address s).2.1 h.inited hlive] at ht
    cases ht
    show Status.invalidFree.code ≠ Status.heapCorrupt.code; decide
  | true =>
    have hfree := h.freeable hlive
    cases hnb : freeNeighbour s (uval address + sval (s.memRead (uval address - 1))) with
    | error e => exact absurd hnb (h.freeNeighbour_ne_error _ e)
    | ok nb =>
      rw [hfree.exec_of_ok hnb, complete_eq_next] at ht
      rw [ht]
      show Status.ok.code ≠ Status.heapCorrupt.code; decide

/-- Settles O47: only ALLOC and FREE can raise `HeapCorrupt`, and what they walk past is in order. -/
theorem wellFormedHeapIsNeverCorrupt : Obligations.WellFormedHeapIsNeverCorrupt := by
  rintro i s t - ⟨blocks, nodes, h⟩ ht hst
  have herr := mem_errorsOf_of_st ht hst nofun
  cases i with
  | alloc size => exact h.exec_alloc_ne_corrupt ht hst
  | free address => exact h.exec_free_ne_corrupt ht hst
  | _ => simp [errorsOf] at herr

/-! ## HINIT lays a well-formed heap (41_heap_allocator.md R131, R146) -/

/-- Settles O43: the one block tiles the range, the one node ends the list, and nothing is allocated. -/
theorem hinitMakesTheHeapWellFormed : Obligations.HinitMakesTheHeapWellFormed := by
  intro b z s t hinv hno ht hok
  obtain ⟨-, hrange, heq⟩ := exec_hinit_ok ht hok
  obtain ⟨hheap, ⟨hnil, -⟩, hnext, hlength⟩ := State.layHeap_node (s := s) hrange
  obtain ⟨hinited, hbase, hend, hhead⟩ : t.hinited = true ∧ uval t.hbase = uval b ∧ t.hend = uval b + sval z ∧ t.head = b := by
    rw [heq]
    exact ⟨rfl, congrArg uval (wrap_uval b), hheap, wrap_uval b⟩
  have hread : t.memRead = (s.layHeap b z).memRead := funext (State.memRead_congr (by rw [heq]))
  have hlive (a : Int) : t.isLive a = false := by
    have : t.live = [] := by rw [heq]; exact (hinv.beforeInit hno).1
    simp [State.isLive, this]
  have hz := hrange.1
  rw [← hread] at hnext hlength
  exact {
    inited := hinited
    tiling := by rw [hbase, hend]; exact ⟨rfl, by dsimp only; omega, by dsimp only [tiles]; omega⟩
    lengths := by simpa using hlength
    walk := by rw [hhead]; exact ⟨hnil, rfl, hnext⟩
    noCycle := List.nodup_singleton _
    free := fun a => by simp [eq_comm (a := a)]
    allocated := by simp [hlive]
    sizes := by simp }

/-! ## ALLOC keeps the heap well formed (41_heap_allocator.md R137, R146) -/

/-- Carving splits the chosen free block into its front, still free, and the allocated block at its tail. -/
theorem State.HeapLaidOut.carve {L : Word} {size : Int} (h : s.HeapLaidOut blocks nodes) (hfits : s.hend ≤ 65536)
    (hblock : ⟨uval n, sval L, true⟩ ∈ blocks) (hsize : 0 < size) (hfit : size + 2 ≤ sval L) :
    (s.carve n L size).heapWellFormed := by
  obtain ⟨pre, post, rfl⟩ := List.append_of_mem hblock
  obtain ⟨l, hl⟩ : ∃ l, l = sval L - (size + 2) := ⟨_, rfl⟩
  have hL : sval L = l + 2 + size := by omega
  have hlo : carveAddr n L size = uval n + 2 + l := by unfold carveAddr; omega
  rw [hL] at h
  have hgap := h.shrink hfits (by omega) hsize.le
  have hextent := hgap.extent
  have hrange := sval_range L
  have hwritten := ((hgap.memWrite le_rfl (by omega) nilWord).memWrite (a := uval n + 2 + l + 1) (by omega) (by omega)
    (wrap size)).setLive hsize
  rw [State.carve, hlo, ← hl]
  refine ⟨_, _, hwritten.place ?_ hsize ?_⟩
  · rw [State.memRead_setLive, State.memRead_memWrite, if_pos rfl, sval_wrap_of_range (by omega) (by omega)]
  · rw [State.isLive_setLive, decide_eq_true rfl, Bool.true_or]

/-- Settles O44: ALLOC raises and leaves the heap, or carves the block from a free block that its walk found. -/
theorem allocKeepsTheHeapWellFormed : Obligations.AllocKeepsTheHeapWellFormed := by
  intro size s t hinv h ht
  rcases execAlloc_cases size s with ⟨e, -, he⟩ | ⟨ns, n, hinited, hsize, hw, -, hall, hn, -, hfit, he⟩ <;>
    rw [exec, he] at ht
  · exact h.of_raise ht
  · obtain ⟨blocks, nodes, h⟩ := h
    have hblock := h.block_of_walk hw (fun x hx => (hall x hx).1) hn.1
    exact (h.carve (hinv.hend_le hinited) hblock hsize hfit).of_completeWith ht

/-! ## FREE keeps the heap well formed (41_heap_allocator.md R141, R142, R146) -/

/-- Linking the open extent at the head of the list makes it the first free block. -/
theorem State.LaidOutBut.linkAtHead {lo len : Int} {pre post : List Block} (h : s.LaidOutBut lo len pre post nodes)
    (hpos : 0 < len) : (s.linkAtHead lo len).heapWellFormed := by
  have hextent := h.extent
  have hlen : len ≤ 32767 := by have := sval_range s.hsize; unfold State.hend at hextent; omega
  have hwritten := ((h.memWrite le_rfl (by omega) s.head).memWrite (a := lo + 1) (by omega) (by omega) (wrap len)).clearLive hpos
  refine ⟨_, _, hwritten.link ?_ ?_ ?_⟩
  · rw [State.memRead_clearLive, State.memRead_memWrite_of_range _ (by omega) (by omega), if_neg (by omega),
      State.memRead_memWrite, if_pos rfl]
    rfl
  · rw [State.memRead_clearLive, State.memRead_memWrite, if_pos rfl, sval_wrap_of_range (by omega) hlen]
  · rw [State.isLive_clearLive, decide_eq_true rfl, Bool.not_true, Bool.false_and]

/-- Settles O45: FREE raises and leaves the heap, or sets the block aside, takes in the free block after it if it has found one, and
links what it then has at the head of the list. -/
theorem freeKeepsTheHeapWellFormed : Obligations.FreeKeepsTheHeapWellFormed := by
  intro address s t hinv h ht
  rcases execFree_cases address s with ⟨e, -, he⟩ | ⟨nb, hinited, hlive, hpos, -, hnb, he⟩ <;> rw [exec, he] at ht
  · exact h.of_raise ht
  refine State.heapWellFormed.of_complete ?_ ht
  obtain ⟨blocks, nodes, h⟩ := h
  have hfits := hinv.hend_le hinited
  have hblock := h.block_of_isLive hlive
  generalize s.memRead (uval address - 1) = S at hpos hnb hblock ⊢
  obtain ⟨pre, post, rfl⟩ := List.append_of_mem hblock
  have hgap : s.LaidOutBut (uval address - 2) (sval S) pre post nodes := h.setAside hfits rfl
  rcases freeNeighbour_cases s (uval address + sval S) with hc | ⟨hc, -⟩ | ⟨ns, n, hc, -, -, hw, -, hns, hn, hstart, hlen⟩ <;>
    rw [hc] at hnb <;> cases hnb
  · exact hgap.linkAtHead hpos
  · have hnext := h.block_of_walk hw (fun x hx => (hns x hx).1) hn.1
    obtain ⟨post, rfl⟩ := eq_cons_of_tiles_append_cons h.tiling hnext (by dsimp only; omega)
    obtain ⟨rest, rfl⟩ := h.nodes_of_walk hw (fun x hx => (hns x hx).1) hn.1
    exact (hgap.unlink (List.getLast?_map ..).symm rfl).linkAtHead (by have := hlen.1; omega)

end Sys2Proof.Machine
end

section
/-! PROOFS. The statements of 42_rasterizer.md: the colour, CLEAR, the pixels each figure paints, the points of a line and of a
disc, and that a RASTER command reads no word outside the frame buffer. -/

namespace Sys2Proof.Machine

variable {s t : State}

/-! ## SETCOLOR (42_rasterizer.md R161) -/

theorem color_of_raise {e : Status} (ht : raise e s = .next t) : t.color = s.color := by rw [raise_eq_next.1 ht]

theorem color_of_complete (ht : complete s = .next t) : t.color = s.color := by rw [complete_eq_next.1 ht]

/-- A command with a result leaves the colour. -/
theorem color_of_hasResult {i : Instr} (hres : hasResult i = true) (ht : exec i s = .next t) : t.color = s.color := by
  rcases exec_cases i s with ⟨e, -, h⟩ | ⟨hno, -⟩ | ⟨-, v, u, h, hu⟩
  · rw [h] at ht; exact color_of_raise ht
  · rw [hres] at hno; cases hno
  · rw [h] at ht; rw [completeWith_eq_next.1 ht, hu]

theorem execFree_color {address : Word} (ht : execFree address s = .next t) : t.color = s.color := by
  rcases execFree_cases address s with ⟨e, -, h⟩ | ⟨nb, -, -, -, -, -, h⟩ <;> rw [h] at ht
  · exact color_of_raise ht
  · exact (color_of_complete ht).trans (State.release_color ..)

/-- A command other than SETCOLOR leaves the colour. -/
theorem exec_color {i : Instr} (hi : ∀ c, i ≠ .setcolor c) : exec i s = .next t → t.color = s.color := by
  have hdrawn (ps : List Point) (ht : complete (s.plotAll ps) = .next t) : t.color = s.color :=
    (color_of_complete ht).trans (State.plotAll_color ..)
  cases i with
  | hinit b n =>
    exact of_ite_next (fun _ => color_of_raise) fun _ => of_ite_next (fun _ => color_of_complete) (fun _ => color_of_raise)
  | free address => exact execFree_color
  | setcolor c => exact absurd rfl (hi c)
  | clear => intro ht; rw [execClear_next ht]
  | pixel x y => exact of_ite_next (fun _ => color_of_raise) (fun _ => hdrawn [(sval x, sval y)])
  | line x1 y1 x2 y2 => exact of_ite_next (fun _ => color_of_raise) (fun _ => hdrawn _)
  | rect x1 y1 x2 y2 => exact of_ite_next (fun _ => color_of_raise) (fun _ => hdrawn _)
  | circle x y r =>
    exact of_ite_next (fun _ => color_of_raise) fun _ => of_ite_next (fun _ => color_of_raise) (fun _ => hdrawn _)
  | _ => exact color_of_hasResult rfl

theorem colorOperand_eq_decide (c : Word) : colorOperand c = decide (c ≠ 0x0000#16) := by
  rw [Bool.eq_iff_iff, colorOperand]; simp

/-- Settles O48: the operand's truth is the colour, and every other command leaves it. -/
theorem setcolorSelectsTheColour : Obligations.SetcolorSelectsTheColour := by
  intro c s
  refine ⟨?_, fun i t ht hne => ?_⟩
  · rw [← colorOperand_eq_decide]; rfl
  · by_contra hno
    exact hne (exec_color (fun c hc => hno ⟨c, hc⟩) ht)

/-! ## CLEAR (42_rasterizer.md R162) -/

/-- A command that ends by filling `n` words, said of every `n`, so that Lean does not evaluate the count. -/
theorem exists_complete_memFill (s : State) {base : Int} (v : Word) {n : Nat} (hb : 0 ≤ base) (hn : base + n ≤ 65536) :
    ∃ t, complete (State.memFill base v n s) = .next t ∧ t = { s with mem := t.mem, st := 0x0000#16 } ∧
      ∀ a, inMemory a → t.memRead a = if base ≤ a ∧ a < base + n then v else s.memRead a :=
  ⟨_, rfl, complete_memFill rfl, fun _ ha => s.memRead_memFill v hb hn ha⟩

/-- Settles O49: the fill covers the frame buffer. -/
theorem clearWritesTheBackground : Obligations.ClearWritesTheBackground := by
  intro s
  have hbase := s.cfg.screenBase.isLt
  exact exists_complete_memFill s (n := 8192) _ (by omega) (by omega)

/-! ## PIXEL (42_rasterizer.md R164, R165) -/

theorem exec_pixel_of_onScreen {x y : Word} (hon : onScreen (sval x) (sval y)) (s : State) :
    exec (.pixel x y) s = complete (s.plot (sval x, sval y)) :=
  if_neg (not_not.2 hon)

/-- A plot writes the one word of its pixel. -/
theorem State.memRead_plot (s : State) {x y a : Int} (hon : onScreen x y) (ha : inMemory a) :
    (s.plot (x, y)).memRead a =
      if pixelAddr s.cfg x y = a then paintBit s.color (pixelBit x) (s.memRead a) else s.memRead a := by
  rw [State.plot, State.memRead_memWrite_of_range _ (inMemory_of_inFrame (pixelAddr_inFrame s hon)) ha]
  split_ifs with haddr
  · rw [haddr]
  · rfl

/-- Settles O50: the plot writes the pixel's word, and in it paints the pixel's bit. -/
theorem pixelPaintsOnePixel : Obligations.PixelPaintsOnePixel := by
  intro x y s
  refine ⟨fun hoff => if_pos hoff, fun hon => ?_⟩
  rw [← pixelAddr_eq s.cfg hon]
  refine ⟨_, exec_pixel_of_onScreen hon s, rfl, fun a ha hne => ?_, fun k hk => ?_⟩
  · rw [State.memRead_setStatus, s.memRead_plot hon ha, if_neg hne.symm]
  · have hbit : k = pixelBit (sval x) ↔ (k : Int) = sval x % 16 := by unfold pixelBit; omega
    rw [State.memRead_setStatus, s.memRead_plot hon (inMemory_of_inFrame (pixelAddr_inFrame s hon)), if_pos rfl,
      ← testBit_eq _ hk, testBit_paintBit _ _ hk, testBit_eq _ hk]
    exact if_congr hbit rfl rfl

/-! ## Figures (42_rasterizer.md R164) -/

/-- A command that ends by drawing a figure of the screen paints the pixels of the figure and nothing else. -/
theorem exists_complete_plotAll (s : State) {ps : List Point} {figure : Int → Int → Prop}
    [∀ px py, Decidable (figure px py)] (hps : ∀ p ∈ ps, onScreen p.1 p.2)
    (hmem : ∀ px py, (px, py) ∈ ps ↔ figure px py) :
    ∃ t, complete (s.plotAll ps) = .next t ∧ t = { s with mem := t.mem, st := 0x0000#16 } ∧
      (∀ a, inMemory a → ¬ s.inFrame a → t.memRead a = s.memRead a) ∧
      ∀ px py, onScreen px py → t.pixelOn px py = if figure px py then s.color else s.pixelOn px py := by
  obtain ⟨hwords, hpixels⟩ := s.plotAll_spec ps hps
  refine ⟨_, rfl, by rw [State.plotAll_eq]; rfl, hwords, fun px py hon => ?_⟩
  exact (hpixels px py hon).trans (if_congr (hmem px py) rfl rfl)

/-! ## LINE (42_rasterizer.md R166) -/

theorem exec_line_of_onScreen {x1 y1 x2 y2 : Word} (h1 : onScreen (sval x1) (sval y1)) (h2 : onScreen (sval x2) (sval y2))
    (s : State) :
    exec (.line x1 y1 x2 y2) s = complete (s.plotAll (linePoints (sval x1) (sval y1) (sval x2) (sval y2))) :=
  if_neg (not_or.2 ⟨not_not.2 h1, not_not.2 h2⟩)

/-- Settles O51: the points of the walk lie on the screen. -/
theorem linePaintsItsWalk : Obligations.LinePaintsItsWalk := by
  intro x1 y1 x2 y2 s
  refine ⟨fun hoff => if_pos hoff, fun h1 h2 => ?_⟩
  rw [exec_line_of_onScreen h1 h2]
  exact exists_complete_plotAll s (fun p hp => linePoints_onScreen h1 h2 hp) fun _ _ => Iff.rfl

/-! ## The straight lines (42_rasterizer.md R168) -/

/-- The values from `u` to `v`, as the steps of a run reach them. -/
theorem exists_step_iff_between {u v p : Int} :
    (∃ k : Nat, k < (v - u).natAbs + 1 ∧ p = u + signOf (v - u) * k) ↔ min u v ≤ p ∧ p ≤ max u v := by
  constructor
  · rintro ⟨k, hk, rfl⟩
    exact between_of_signOf u v (by omega)
  · intro hp
    refine ⟨(p - u).natAbs, by omega, ?_⟩
    unfold signOf
    split_ifs <;> omega

/-- Settles O52: one coordinate stays, and the other takes every value from its first to its last. -/
theorem straightLinesAreRuns : Obligations.StraightLinesAreRuns := by
  intro x1 y1 x2 y2 px py hstraight
  unfold linePoints
  dsimp only
  split_ifs with hx hy
  · have hrun : (px, py) ∈ run x1 y1 0 (signOf (y2 - y1)) ((y2 - y1).natAbs + 1) ↔
        px = x1 ∧ min y1 y2 ≤ py ∧ py ≤ max y1 y2 := by
      rw [mem_run, ← exists_step_iff_between]; simp [and_left_comm]
    rw [hrun]; omega
  · have hrun : (px, py) ∈ run x1 y1 (signOf (x2 - x1)) 0 ((x2 - x1).natAbs + 1) ↔
        (min x1 x2 ≤ px ∧ px ≤ max x1 x2) ∧ py = y1 := by
      rw [mem_run, ← exists_step_iff_between]; simp [← and_assoc]
    rw [hrun]; omega
  · omega

/-! ## The general walk (42_rasterizer.md R167) -/

/-- The offsets after the offsets `q`: one step in `x` when `diff = a*ady - b*adx` is negative, one in `y` otherwise (R166). -/
def lineStep (adx ady : Nat) (q : Nat × Nat) : Nat × Nat :=
  if (q.1 * ady - q.2 * adx : Int) < 0 then (q.1 + 1, q.2) else (q.1, q.2 + 1)

/-- What holds of the offsets `q` after `k` steps of the walk: neither has passed its target, and `diff` is within the sides. -/
structure OnWalk (adx ady k : Nat) (q : Nat × Nat) : Prop where
  le_adx : q.1 ≤ adx
  le_ady : q.2 ≤ ady
  steps : q.1 + q.2 = k
  diff_ge : -(adx : Int) ≤ q.1 * ady - q.2 * adx
  diff_le : (q.1 * ady - q.2 * adx : Int) ≤ ady

section Walk

variable {adx ady k left a b : Nat}

theorem lineStep_of_neg (h : (a * ady - b * adx : Int) < 0) : lineStep adx ady (a, b) = (a + 1, b) := if_pos h

theorem lineStep_of_nonneg (h : ¬ (a * ady - b * adx : Int) < 0) : lineStep adx ady (a, b) = (a, b + 1) := if_neg h

/-- A step in `x` starts below its target, where `diff` would be `adx*(ady - b)`, not negative; and, short of the end, a step in `y`
starts below its own, where `diff` would be `ady*(a - adx)`, negative (R167). -/
theorem OnWalk.next (h : OnWalk adx ady k (a, b)) (hady : 0 < ady) (hk : k < adx + ady) :
    OnWalk adx ady (k + 1) (lineStep adx ady (a, b)) := by
  obtain ⟨ha, hb, hsum, hge, hle⟩ := h
  dsimp only at ha hb hsum hge hle
  by_cases hneg : (a * ady - b * adx : Int) < 0
  · have hlt : a < adx := by
      by_contra hno
      nlinarith
    rw [lineStep_of_neg hneg]
    exact ⟨hlt, hb, by dsimp only; omega, by push_cast; linarith, by push_cast; linarith⟩
  · have hlt : b < ady := by
      by_contra hno
      have hshort : a < adx := by omega
      nlinarith
    rw [lineStep_of_nonneg hneg]
    exact ⟨ha, hlt, by dsimp only; omega, by push_cast; linarith, by push_cast; linarith⟩

theorem onWalk_zero : OnWalk adx ady 0 (0, 0) := ⟨Nat.zero_le _, Nat.zero_le _, rfl, by simp, by simp⟩

theorem onWalk_iterate (hady : 0 < ady) (hk : k ≤ adx + ady) : OnWalk adx ady k ((lineStep adx ady)^[k] (0, 0)) := by
  induction k with
  | zero => exact onWalk_zero
  | succ k ih => rw [Function.iterate_succ_apply']; exact (ih (by omega)).next hady (by omega)

/-- The walk, its accumulator at `a*ady - b*adx`, is its steps one after another: it ends where its bound does (log 12). -/
theorem lineWalk_eq_iterate (h : OnWalk adx ady k (a, b)) (hady : 0 < ady) (hleft : k + left = adx + ady) :
    lineWalk adx ady left a b (a * ady - b * adx) = List.iterate (lineStep adx ady) (a, b) (left + 1) := by
  induction left generalizing a b k with
  | zero => rfl
  | succ left ih =>
    have hgo : ¬(a = adx ∧ b = ady) := by have := h.steps; dsimp only at this; omega
    have hnext := h.next hady (by omega)
    rw [lineWalk, if_neg hgo, List.iterate]
    by_cases hneg : (a * ady - b * adx : Int) < 0
    · rw [lineStep_of_neg hneg] at hnext ⊢
      rw [if_pos hneg, ← ih hnext (by omega)]
      push_cast; ring_nf
    · rw [lineStep_of_nonneg hneg] at hnext ⊢
      rw [if_neg hneg, ← ih hnext (by omega)]
      push_cast; ring_nf

theorem lineWalk_zero (hady : 0 < ady) :
    lineWalk adx ady (adx + ady) 0 0 0 = List.iterate (lineStep adx ady) (0, 0) (adx + ady + 1) := by
  simpa using lineWalk_eq_iterate onWalk_zero hady (Nat.zero_add (adx + ady))

end Walk

/-- The point at the offsets `q` from the first end point, towards the second (R166). -/
def offsetPoint (x1 y1 x2 y2 : Int) (q : Nat × Nat) : Point := (x1 + signOf (x2 - x1) * q.1, y1 + signOf (y2 - y1) * q.2)

theorem signOf_mul_natAbs (d : Int) : signOf d * d.natAbs = d := by
  unfold signOf
  split_ifs <;> omega

section Slanted

variable {x1 y1 x2 y2 : Int}

theorem linePoints_of_slanted (hx : x1 ≠ x2) (hy : y1 ≠ y2) :
    linePoints x1 y1 x2 y2 =
      (List.iterate (lineStep (x2 - x1).natAbs (y2 - y1).natAbs) (0, 0) ((x2 - x1).natAbs + (y2 - y1).natAbs + 1)).map
        (offsetPoint x1 y1 x2 y2) := by
  rw [← lineWalk_zero (by omega)]
  unfold linePoints
  dsimp only
  rw [if_neg (by omega), if_neg (by omega)]
  rfl

theorem length_linePoints (hx : x1 ≠ x2) (hy : y1 ≠ y2) :
    (linePoints x1 y1 x2 y2).length = (x2 - x1).natAbs + (y2 - y1).natAbs + 1 := by
  rw [linePoints_of_slanted hx hy, List.length_map, List.length_iterate]

theorem getElem?_linePoints (hx : x1 ≠ x2) (hy : y1 ≠ y2) {k : Nat} (hk : k ≤ (x2 - x1).natAbs + (y2 - y1).natAbs) :
    (linePoints x1 y1 x2 y2)[k]? =
      some (offsetPoint x1 y1 x2 y2 ((lineStep (x2 - x1).natAbs (y2 - y1).natAbs)^[k] (0, 0))) := by
  rw [linePoints_of_slanted hx hy, List.getElem?_map, List.getElem?_iterate _ _ _ _ (by omega), Option.map_some]

theorem getLast?_linePoints (hx : x1 ≠ x2) (hy : y1 ≠ y2) : (linePoints x1 y1 x2 y2).getLast? = some (x2, y2) := by
  have hend := onWalk_iterate (adx := (x2 - x1).natAbs) (ady := (y2 - y1).natAbs) (by omega) le_rfl
  rw [List.getLast?_eq_getElem?, length_linePoints hx hy, Nat.add_sub_cancel, getElem?_linePoints hx hy le_rfl]
  generalize (lineStep _ _)^[_] (0, 0) = q at hend ⊢
  obtain ⟨ha, hb, hsum, -, -⟩ := hend
  rw [offsetPoint, show q.1 = (x2 - x1).natAbs by omega, show q.2 = (y2 - y1).natAbs by omega, signOf_mul_natAbs,
    signOf_mul_natAbs, add_sub_cancel, add_sub_cancel]

theorem signOf_sub_of_ne (h : x1 ≠ x2) : signOf (x2 - x1) = if x1 < x2 then 1 else -1 := by
  unfold signOf
  split_ifs <;> omega

/-- Settles O53: the walk is the iteration of one step, and each step keeps the offsets within their targets. -/
theorem slantedLinesAreStaircases : Obligations.SlantedLinesAreStaircases := by
  intro x1 y1 x2 y2 hx hy
  refine ⟨length_linePoints hx hy, ?_, getLast?_linePoints hx hy, fun h1 h2 => ?_, fun k hk => ?_⟩
  · rw [List.head?_eq_getElem?, getElem?_linePoints hx hy (Nat.zero_le _)]
    simp [offsetPoint]
  · rw [abs_le, abs_le]; omega
  · have hnow := onWalk_iterate (adx := (x2 - x1).natAbs) (ady := (y2 - y1).natAbs) (by omega) hk.le
    rw [getElem?_linePoints hx hy hk.le, getElem?_linePoints hx hy hk, Function.iterate_succ_apply', ← Int.natCast_natAbs,
      ← Int.natCast_natAbs]
    generalize (lineStep _ _)^[k] (0, 0) = q at hnow ⊢
    obtain ⟨a, b⟩ := q
    obtain ⟨ha, hb, hsum, hge, hle⟩ := hnow
    dsimp only at ha hb hsum hge hle
    refine ⟨a, b, signOf (x2 - x1), signOf (y2 - y1), by omega, by omega, by omega, by omega, by omega, by omega, by omega,
      signOf_sub_of_ne hx, signOf_sub_of_ne hy, rfl, ?_⟩
    split_ifs with hneg
    · rw [lineStep_of_neg hneg]; simp [offsetPoint]
    · rw [lineStep_of_nonneg hneg]; simp [offsetPoint]

end Slanted

/-! ## RECT (42_rasterizer.md R169) -/

theorem exec_rect_of_onScreen {x1 y1 x2 y2 : Word} (h1 : onScreen (sval x1) (sval y1)) (h2 : onScreen (sval x2) (sval y2))
    (s : State) :
    exec (.rect x1 y1 x2 y2) s = complete (s.plotAll (rectPoints (sval x1) (sval y1) (sval x2) (sval y2))) :=
  if_neg (not_or.2 ⟨not_not.2 h1, not_not.2 h2⟩)

/-- Settles O54: the figure is the inclusive rectangle, which lies on the screen. -/
theorem rectFillsTheRectangle : Obligations.RectFillsTheRectangle := by
  intro x1 y1 x2 y2 s
  refine ⟨fun hoff => if_pos hoff, fun h1 h2 => ?_⟩
  rw [exec_rect_of_onScreen h1 h2]
  exact exists_complete_plotAll s (fun p hp => rectPoints_onScreen h1 h2 hp) fun _ _ => mem_rectPoints

/-! ## CIRCLE (42_rasterizer.md R170) -/

/-- The points of CIRCLE are those of the disc: a row reaches as far as the root of `r^2 - d^2`, rounded down, because the columns
are integers. -/
theorem mem_circlePoints_iff_sq_le {x y r : Int} (hr : 0 ≤ r ∧ r ≤ 181) {q : Point} :
    q ∈ circlePoints x y r ↔ (q.1 - x) * (q.1 - x) + (q.2 - y) * (q.2 - y) ≤ r * r := by
  rw [mem_circlePoints hr]
  simp only [← pow_two]
  constructor
  · rintro ⟨hrow, hleft, hright⟩
    have hsq := (halfWidth_spec hr.2 hrow).2.1
    have hcol : (q.1 - x) ^ 2 ≤ halfWidth r (q.2 - y) ^ 2 := sq_le_sq' (by omega) (by omega)
    omega
  · intro hdisc
    have hcol2 := sq_nonneg (q.1 - x)
    have hrow : -r ≤ q.2 - y ∧ q.2 - y ≤ r := abs_le_of_sq_le_sq' (by omega) hr.1
    obtain ⟨hwidth, -, hlt⟩ := halfWidth_spec hr.2 hrow
    have hcol := abs_lt_of_sq_lt_sq' (a := q.1 - x) (b := halfWidth r (q.2 - y) + 1) (by omega) (by omega)
    exact ⟨hrow, by omega, by omega⟩

theorem exec_circle_of_onScreen {x y r : Word} (hr : 0 ≤ sval r) (h1 : onScreen (sval x - sval r) (sval y - sval r))
    (h2 : onScreen (sval x + sval r) (sval y + sval r)) (s : State) :
    exec (.circle x y r) s = complete (s.plotAll (circlePoints (sval x) (sval y) (sval r))) := by
  show execCircle x y r s = _
  rw [execCircle, if_neg hr.not_gt, if_neg (not_or.2 ⟨not_not.2 h1, not_not.2 h2⟩)]

/-- Settles O55: the figure is the disc, which lies in its bounding square. -/
theorem circleFillsTheDisc : Obligations.CircleFillsTheDisc := by
  intro x y r s hr h1 h2
  rw [exec_circle_of_onScreen hr h1 h2]
  exact exists_complete_plotAll s (fun p hp => circlePoints_onScreen hr h1 h2 hp)
    fun _ _ => mem_circlePoints_iff_sq_le ⟨hr, by omega⟩

/-- Settles O56: the two checks, in their order. -/
theorem circleErrors : Obligations.CircleErrors := by
  intro x y r s hbad
  show execCircle x y r s = raise .invalidCoordinate s
  unfold execCircle
  split_ifs with hneg hoff
  · rfl
  · rfl
  · exact absurd hbad (not_or.2 ⟨hneg, hoff⟩)

end Sys2Proof.Machine
end

section
/-! PROOFS. The RASTER unit reads no word outside the frame buffer (20_memory.md R68, 42_rasterizer.md R160): two machines that
agree on the frame buffer's words, and in every register, stay so through a RASTER command. -/

namespace Sys2Proof.Machine

namespace State.AgreesOn

variable {region : Int → Prop} {s s' t t' : State}

theorem cfg_eq (h : s.AgreesOn region s') : s'.cfg = s.cfg := by rw [h.registers]

theorem color_eq (h : s.AgreesOn region s') : s'.color = s.color := by rw [h.registers]

/-! ## Drawing and filling -/

theorem setColor (h : s.AgreesOn region s') (c : Bool) : { s with color := c }.AgreesOn region { s' with color := c } where
  registers := by rw [h.registers]
  words := h.words

/-- A plot reads the one word of its pixel. -/
theorem plot (h : s.AgreesOn region s') {p : Point} (hp : region (pixelAddr s.cfg p.1 p.2)) :
    (s.plot p).AgreesOn region (s'.plot p) := by
  unfold State.plot
  rw [h.cfg_eq, h.color_eq, ← h.words _ hp]
  exact h.memWrite _ _

theorem plotAll (h : s.AgreesOn region s') {ps : List Point} (hps : ∀ p ∈ ps, region (pixelAddr s.cfg p.1 p.2)) :
    (s.plotAll ps).AgreesOn region (s'.plotAll ps) := by
  induction ps generalizing s s' with
  | nil => exact h
  | cons p ps ih =>
    exact ih (h.plot (hps p List.mem_cons_self)) fun q hq => hps q (List.mem_cons_of_mem p hq)

theorem memFill (h : s.AgreesOn region s') (base : Int) (v : Word) (n : Nat) :
    (State.memFill base v n s).AgreesOn region (State.memFill base v n s') := by
  induction n generalizing s s' with
  | zero => exact h
  | succ n ih => exact ih (h.memWrite _ _)

/-! ## The RASTER commands on two machines that agree on the frame buffer -/

theorem of_complete_plotAll (h : s.AgreesOn s.inFrame s') {ps : List Point} (hps : ∀ p ∈ ps, onScreen p.1 p.2) :
    complete (s.plotAll ps) = .next t → complete (s'.plotAll ps) = .next t' → t.AgreesOn s.inFrame t' :=
  (h.plotAll fun p hp => pixelAddr_inFrame s (hps p hp)).of_complete

/-- CLEAR's fill, said of every count `n`, so that Lean does not evaluate it. -/
theorem of_complete_memFill (h : s.AgreesOn region s') {n : Nat} :
    complete (State.memFill s.cfg.screenBase.val (if s.color then 0x0000#16 else 0xFFFF#16) n s) = .next t →
      complete (State.memFill s'.cfg.screenBase.val (if s'.color then 0x0000#16 else 0xFFFF#16) n s') = .next t' →
        t.AgreesOn region t' := by
  rw [h.cfg_eq, h.color_eq]
  exact (h.memFill _ _ n).of_complete

theorem exec_raster_agreesOn {i : Instr} (h : s.AgreesOn s.inFrame s') (hunit : i.unit = .raster) :
    exec i s = .next t → exec i s' = .next t' → t.AgreesOn s.inFrame t' := by
  cases i with
  | setcolor c => exact (h.setColor _).of_complete
  | clear => exact h.of_complete_memFill (n := 8192)
  | pixel x y =>
    refine of_ite Iff.rfl (fun _ => h.of_raise) fun hon => h.of_complete_plotAll (ps := [(sval x, sval y)]) ?_
    simpa using not_not.1 hon
  | line x1 y1 x2 y2 =>
    refine of_ite Iff.rfl (fun _ => h.of_raise) fun hon => h.of_complete_plotAll fun p hp => ?_
    exact linePoints_onScreen (not_not.1 (not_or.1 hon).1) (not_not.1 (not_or.1 hon).2) hp
  | rect x1 y1 x2 y2 =>
    refine of_ite Iff.rfl (fun _ => h.of_raise) fun hon => h.of_complete_plotAll fun p hp => ?_
    exact rectPoints_onScreen (not_not.1 (not_or.1 hon).1) (not_not.1 (not_or.1 hon).2) hp
  | circle x y r =>
    refine of_ite Iff.rfl (fun _ => h.of_raise) fun hr => of_ite Iff.rfl (fun _ => h.of_raise) fun hon =>
      h.of_complete_plotAll fun p hp => ?_
    exact circlePoints_onScreen (not_lt.1 hr) (not_not.1 (not_or.1 hon).1) (not_not.1 (not_or.1 hon).2) hp
  | _ => cases hunit

end State.AgreesOn

/-- Settles O57: command by command, on two machines that agree on the frame buffer. -/
theorem rasterCommandsIgnoreOtherMemory : Obligations.RasterCommandsIgnoreOtherMemory := by
  intro i s s' t t' hunit hregs hwords ht ht'
  have hbefore : s.AgreesOn s.inFrame s' := ⟨hregs, hwords⟩
  have hafter := hbefore.exec_raster_agreesOn hunit ht ht'
  exact ⟨hafter.registers, hafter.words⟩

end Sys2Proof.Machine
end

section
/-! PROOFS. The statements of 60_exceptions.md: which status a command may end with, that an error changes nothing but `ST`, and
that no command looks at the `ST` it starts from. -/

namespace Sys2Proof.Machine

variable {s t : State}

/-! ## The errors of a command (60_exceptions.md R202) -/

/-- Settles O11: each of the three ends of a command answers a next state, and only the error's has an `ST` other than `OK`. -/
theorem commandsRaiseOnlyTheirErrors : Obligations.CommandsRaiseOnlyTheirErrors := by
  intro i s
  rcases exec_cases i s with ⟨e, he, h⟩ | ⟨-, u, h, -⟩ | ⟨-, v, u, h, -⟩
  case inl => exact ⟨_, h, .inr ⟨e, he, rfl⟩⟩
  case inr.inl => exact ⟨_, h, .inl rfl⟩
  case inr.inr => exact ⟨_, h, .inl rfl⟩

/-! ## What an error leaves alone (60_exceptions.md R206) -/

theorem eq_of_raise {e : Status} (ht : raise e s = .next t) : t = { s with st := t.st } := by
  rw [raise_eq_next.1 ht]

theorem eq_of_exec_error {i : Instr} (ht : exec i s = .next t) (herr : t.st ≠ 0x0000#16) : t = { s with st := t.st } := by
  rcases exec_cases i s with ⟨e, -, h⟩ | ⟨-, u, h, -⟩ | ⟨-, v, u, h, -⟩ <;> rw [h] at ht
  case inl => exact eq_of_raise ht
  case inr.inl => exact absurd (by rw [complete_eq_next.1 ht]) herr
  case inr.inr => exact absurd (by rw [completeWith_eq_next.1 ht]) herr

/-- The block's errors at its port are those of the command and `IllegalCommand`. -/
theorem eq_of_runPort_error (ht : runPort s = .next t) (herr : t.st ≠ 0x0000#16) : t = { s with st := t.st } := by
  obtain ⟨i, h⟩ | h := runPort_cases s
  · exact eq_of_exec_error (h.symm.trans ht) herr
  · exact eq_of_raise (h.symm.trans ht)

/-- Settles O12: the issued words run at the port the host has written. -/
theorem errorsChangeOnlyTheStatus : Obligations.ErrorsChangeOnlyTheStatus := by
  refine ⟨fun i s t => eq_of_exec_error, fun s t c rest hhost ht herr => ?_⟩
  rw [step_of_issue hhost] at ht
  exact eq_of_runPort_error ht herr

/-! ## No command looks at `ST` (60_exceptions.md R207, 10_state.md R24)

A lemma `…_setSt` says what becomes of an operation when `ST` holds any other word `v` before it. -/

section StatusUnread

variable (s) (v : Word)

theorem State.plotAll_setSt (ps : List Point) : { s with st := v }.plotAll ps = { s.plotAll ps with st := v } := by
  induction ps generalizing s with
  | nil => rfl
  | cons p ps ih => exact ih (s.plot p)

theorem State.memFill_setSt (base : Int) (w : Word) (n : Nat) :
    State.memFill base w n { s with st := v } = { State.memFill base w n s with st := v } := by
  induction n generalizing s with
  | zero => rfl
  | succ n ih => exact ih (s.memWrite (base + n) w)

theorem State.release_setSt (h : Int) (S : Word) (nb : Option Neighbour) :
    { s with st := v }.release h S nb = { s.release h S nb with st := v } := by
  obtain _ | ⟨_ | _, _, _⟩ := nb <;> rfl

/-- The end of a command overwrites `ST` (10_state.md R24). -/
theorem complete_setSt : complete { s with st := v } = complete s := rfl

theorem complete_plotAll_setSt (ps : List Point) : complete ({ s with st := v }.plotAll ps) = complete (s.plotAll ps) := by
  rw [State.plotAll_setSt, complete_setSt]

theorem complete_memFill_setSt (base : Int) (w : Word) (n : Nat) :
    complete (State.memFill base w n { s with st := v }) = complete (State.memFill base w n s) := by
  rw [State.memFill_setSt, complete_setSt]

/-- ALLOC's walk does not read `ST`, and either answer to it overwrites `ST`. -/
theorem execAlloc_setSt (size : Word) : execAlloc size { s with st := v } = execAlloc size s := by
  unfold execAlloc
  rw [show allocWalk { s with st := v } = allocWalk s by funext need left n; exact allocWalk_congr rfl rfl rfl]
  rfl

/-- FREE's search does not read `ST`, and either answer to it overwrites `ST`. -/
theorem execFree_setSt (address : Word) : execFree address { s with st := v } = execFree address s := by
  unfold execFree
  rw [show freeNeighbour { s with st := v } = freeNeighbour s from funext (freeNeighbour_congr rfl rfl rfl rfl rfl)]
  simp only [State.release_setSt]
  rfl

end StatusUnread

/-- Settles O13: no check, walk or write of a command reads `ST`, and its end overwrites `ST`. Only the walks, the fills and the
drawings recurse; every other command is the same from both states by computation. -/
theorem noErrorIsSticky : Obligations.NoErrorIsSticky := by
  intro i s v
  cases i with
  | alloc size => exact execAlloc_setSt s v size
  | free address => exact execFree_setSt s v address
  | clear => exact complete_memFill_setSt s v _ _ 8192
  | line x1 y1 x2 y2 => exact if_congr Iff.rfl rfl (complete_plotAll_setSt s v _)
  | rect x1 y1 x2 y2 => exact if_congr Iff.rfl rfl (complete_plotAll_setSt s v _)
  | circle x y r => exact if_congr Iff.rfl rfl (if_congr Iff.rfl rfl (complete_plotAll_setSt s v _))
  | _ => rfl

end Sys2Proof.Machine
end

section
/-! PROOFS. The statements of 70_reset_and_hazards.md: what the host reads and writes between commands, what a reset leaves, and
that the host's writes off the headers keep the heap well formed. -/

namespace Sys2Proof.Machine

variable {s t : State} {blocks : List Block} {nodes : List Int}

/-! ## Reads and writes between commands (70_reset_and_hazards.md R236) -/

/-- A memory word the host writes reads as written, and every other word as before (20_memory.md R57, R59). -/
theorem memRead_of_poke (s : State) (rest : List HostAction) (a v : Word) {b : Int} (hb : inMemory b) :
    ((s.hostDone rest).memWrite (uval a) v).memRead b = if uval a = b then v else s.memRead b :=
  State.memRead_memWrite_of_range _ (inMemory_uval a) hb v

/-- Settles O8: the step by the host's next action; a read changes `seen` alone, a write one word of memory. -/
theorem hostActsBetweenCommands : Obligations.HostActsBetweenCommands := by
  intro s rest
  refine ⟨step_of_nil, step_of_readSt, step_of_readR0, fun a => step_of_peek, fun a v hhost => ?_⟩
  refine ⟨_, step_of_poke hhost, rfl, ?_, fun b hb hne => ?_⟩
  · rw [memRead_of_poke s rest a v (inMemory_uval a), if_pos rfl]
  · rw [memRead_of_poke s rest a v hb, if_neg hne.symm]

/-! ## Reset (70_reset_and_hazards.md R231) -/

theorem isLive_of_live_nil (h : s.live = []) (b : Int) : s.isLive b = false := by
  simp [State.isLive, h]

/-- HINIT hands out no block. -/
theorem live_of_exec_hinit_ok {b z : Word} (ht : exec (.hinit b z) s = .next t) (hok : t.st = 0x0000#16) :
    t.hinited = true ∧ t.live = s.live := by
  obtain ⟨-, -, rfl⟩ := exec_hinit_ok ht hok
  exact ⟨rfl, rfl⟩

/-- Settles O9: a reset empties `LIVE` and clears `HINITED`, and HINIT sets `HINITED` and leaves `LIVE`, so FREE stops at the
first or at the second of its checks. -/
theorem hostResetRestoresTheBlock : Obligations.HostResetRestoresTheBlock := by
  intro s rest hhost
  refine ⟨_, step_of_reset hhost, rfl, fun p => ?_, fun base size t' p ht hok => ?_⟩
  · exact (freeErrorsBeforeTheWalk p _).1 rfl
  · obtain ⟨hinited, hlive⟩ := live_of_exec_hinit_ok ht hok
    exact (freeErrorsBeforeTheWalk p t').2.1 hinited (isLive_of_live_nil hlive _)

/-! ## Writes off the headers (70_reset_and_hazards.md R238) -/

/-- Being laid out does not depend on the host. -/
theorem State.HeapLaidOut.hostDone (h : s.HeapLaidOut blocks nodes) (rest : List HostAction) :
    (s.hostDone rest).HeapLaidOut blocks nodes :=
  { h with walk := State.freeListFrom_congr h.walk fun _ _ => rfl }

/-- A write that hits no header word leaves every length word and every `next` word, which are all that the layout reads of
memory (20_memory.md R62 to R64). -/
theorem State.HeapLaidOut.memWrite {b : Int} (h : s.HeapLaidOut blocks nodes) (hfits : s.hend ≤ 65536) (hb : inMemory b)
    (hoff : ∀ k ∈ blocks, b ≠ k.header ∧ b ≠ k.header + 1) (v : Word) :
    (s.memWrite b v).HeapLaidOut blocks nodes := by
  have hread {c : Int} (hc : inMemory c) (hne : b ≠ c) : (s.memWrite b v).memRead c = s.memRead c := by
    rw [State.memRead_memWrite_of_range _ hb hc, if_neg hne]
  have hbase := uval_nonneg s.hbase
  refine { h with lengths := fun k hk => ?_, walk := State.freeListFrom_congr h.walk fun c hc => ?_ }
  · have hrange := range_of_mem_tiles h.tiling hk
    rw [hread (by omega) (hoff k hk).2, h.lengths k hk]
  · obtain ⟨k, hk, -, rfl⟩ := (h.free c).1 hc
    exact hread (inMemory_of_mem_freeListFrom h.walk hc) (hoff k hk).1

/-- Settles O46: the host's write is a write off the headers, and by the invariant the heap ends in memory. -/
theorem payloadWritesKeepTheHeapWellFormed : Obligations.PayloadWritesKeepTheHeapWellFormed := by
  intro s t a v rest blocks nodes hinv h hoff hhost ht
  obtain rfl := Host.Outcome.next.inj ((step_of_poke hhost).symm.trans ht)
  exact (h.hostDone rest).memWrite (hinv.hend_le h.inited) (inMemory_uval a) hoff v

end Sys2Proof.Machine
end
